-- ==== Sys2Proof/Word.lean ====
section
/-! DEFINITION. The three word widths of rule R10 (00_scope.md). -/

namespace Sys2Proof

/-- A byte: a device id, a function code, a byte count, an exception code (R10). -/
abbrev Byte := BitVec 8

/-- A 16-bit value: a Modbus data address, a quantity, a register value, a CRC (R10). -/
abbrev Word16 := BitVec 16

/-- A 32-bit value: a baud rate, a timeout (R10). -/
abbrev Word32 := BitVec 32

end Sys2Proof
end

