-- ==== Sys2Proof/Syntax.lean ====
section
/-! DEFINITION. The operations of opcode_table.json, one constructor of `Instr` for each of its 18 rows,
and the operand types (10_state.md R40, 30_encoding.md R73). -/

namespace Sys2Proof

/-- The eight function codes of R73. -/
inductive FuncCode where
  | readCoils | readDiscreteInputs | readHoldingRegisters | readInputRegisters
  | writeSingleCoil | writeSingleRegister | writeMultipleCoils | writeMultipleRegisters
  deriving DecidableEq, Repr

/-- The unit of a data item: a packed bit (codes 1, 2, 15) or a 16-bit register (codes 3, 4, 16). -/
inductive DataUnit where
  | bit | register
  deriving DecidableEq, Repr

/-- Data bits of a serial format (R110: 5 to 8). -/
inductive DataBits where
  | five | six | seven | eight
  deriving DecidableEq, Repr

/-- Parity of a serial format (R110: N, E, O). -/
inductive Parity where
  | none | even | odd
  deriving DecidableEq, Repr

/-- Stop bits of a serial format (R110: 1, 2). -/
inductive StopBits where
  | one | two
  deriving DecidableEq, Repr

/-- `fmt = (data, parity, stop)` (R110). -/
structure SerialFormat where
  data : DataBits
  parity : Parity
  stop : StopBits
  deriving DecidableEq, Repr

/-- The name of a host data buffer (R42, R89 "out=B"). The host owns the buffers; an operand names one
(log entry 13). -/
abbrev BufName := Nat

/-- The operations by name: what a fault records as "the operation name" (R205). -/
inductive OpName where
  | readCoils | readDiscreteInputs | readHoldingRegisters | readInputRegisters
  | writeSingleCoil | writeSingleRegister | writeMultipleCoils | writeMultipleRegisters
  | exceptionResponse
  | configure | setResponseTimeout | getExceptionCode
  | crc16 | crcUpdate | crcEncode | crcValidate | timingCalc | transact
  deriving DecidableEq, Repr

/-- One constructor per row of opcode_table.json, with the operands R40 and the row's rule give it. -/
inductive Instr where
  /-- READ_COILS (R151). -/
  | readCoils (id : Byte) (addr : Word16) (out : Option BufName) (qty : Word16)
  /-- READ_DISCRETE_INPUTS (R152). -/
  | readDiscreteInputs (id : Byte) (addr : Word16) (out : Option BufName) (qty : Word16)
  /-- READ_HOLDING_REGISTERS (R153). -/
  | readHoldingRegisters (id : Byte) (addr : Word16) (out : Option BufName) (qty : Word16)
  /-- READ_INPUT_REGISTERS (R154). -/
  | readInputRegisters (id : Byte) (addr : Word16) (out : Option BufName) (qty : Word16)
  /-- WRITE_SINGLE_COIL (R171). -/
  | writeSingleCoil (id : Byte) (addr : Word16) (value : Bool)
  /-- WRITE_SINGLE_REGISTER (R172). -/
  | writeSingleRegister (id : Byte) (addr : Word16) (value : Word16)
  /-- WRITE_MULTIPLE_COILS (R173); `data` is the spec's `in`. -/
  | writeMultipleCoils (id : Byte) (addr : Word16) (data : Option (List Bool)) (qty : Word16)
  /-- WRITE_MULTIPLE_REGISTERS (R174); `data` is the spec's `in`. -/
  | writeMultipleRegisters (id : Byte) (addr : Word16) (data : Option (List Word16)) (qty : Word16)
  /-- EXCEPTION_RESPONSE (R134, R85): the fields of a response whose function-code byte has bit 7 set;
  `fc` is bits 6..0 of that byte. -/
  | exceptionResponse (id : Byte) (fc : BitVec 7) (code : Byte)
  /-- CONFIGURE (R190). -/
  | configure (baud : Word32) (fmt : SerialFormat)
  /-- SET_RESPONSE_TIMEOUT (R191). -/
  | setResponseTimeout (t : Word32)
  /-- GET_EXCEPTION_CODE (R192). -/
  | getExceptionCode
  /-- CRC16 (R100). -/
  | crc16 (d : List Byte)
  /-- CRC_UPDATE (R101). -/
  | crcUpdate (crc : Word16) (b : Byte)
  /-- CRC_ENCODE (R102). -/
  | crcEncode (n : Nat)
  /-- CRC_VALIDATE (R103). -/
  | crcValidate (m : Nat)
  /-- TIMING_CALC (R110). -/
  | timingCalc (baud : Word32) (fmt : SerialFormat)
  /-- TRANSACT (R120). -/
  | transact
  deriving DecidableEq, Repr

/-- The operation's name. -/
def Instr.op : Instr → OpName
  | .readCoils _ _ _ _ => .readCoils
  | .readDiscreteInputs _ _ _ _ => .readDiscreteInputs
  | .readHoldingRegisters _ _ _ _ => .readHoldingRegisters
  | .readInputRegisters _ _ _ _ => .readInputRegisters
  | .writeSingleCoil _ _ _ => .writeSingleCoil
  | .writeSingleRegister _ _ _ => .writeSingleRegister
  | .writeMultipleCoils _ _ _ _ => .writeMultipleCoils
  | .writeMultipleRegisters _ _ _ _ => .writeMultipleRegisters
  | .exceptionResponse _ _ _ => .exceptionResponse
  | .configure _ _ => .configure
  | .setResponseTimeout _ => .setResponseTimeout
  | .getExceptionCode => .getExceptionCode
  | .crc16 _ => .crc16
  | .crcUpdate _ _ => .crcUpdate
  | .crcEncode _ => .crcEncode
  | .crcValidate _ => .crcValidate
  | .timingCalc _ _ => .timingCalc
  | .transact => .transact

/-- The operation that a function code selects (R73). -/
def FuncCode.op : FuncCode → OpName
  | .readCoils => .readCoils
  | .readDiscreteInputs => .readDiscreteInputs
  | .readHoldingRegisters => .readHoldingRegisters
  | .readInputRegisters => .readInputRegisters
  | .writeSingleCoil => .writeSingleCoil
  | .writeSingleRegister => .writeSingleRegister
  | .writeMultipleCoils => .writeMultipleCoils
  | .writeMultipleRegisters => .writeMultipleRegisters

/-- The eleven operations of the host operation port (R40). The exception-response row and the six
internal operations are not among them (R90). -/
def OpName.atPort : OpName → Bool
  | .exceptionResponse | .crc16 | .crcUpdate | .crcEncode | .crcValidate | .timingCalc | .transact => false
  | .readCoils | .readDiscreteInputs | .readHoldingRegisters | .readInputRegisters
  | .writeSingleCoil | .writeSingleRegister | .writeMultipleCoils | .writeMultipleRegisters
  | .configure | .setResponseTimeout | .getExceptionCode => true

end Sys2Proof
end

