-- ==== Sys2Proof/Machine/BitsTable.lean ====
section
/-! DEFINITION. `BITS_TABLE` (41_timing.md R111): the parameter's type, the spec's own table, and its lookup. -/

namespace Sys2Proof.Machine

/-- A map from serial format to bits per character (R8). A character is a start bit, at most 8 data bits, at most
one parity bit and at most 2 stop bits (R110, R111), so an entry is at most 12 (log entry 6). -/
abbrev BitsTable := List (SerialFormat × Fin 13)

/-- `BITS_TABLE` in "this spec" (R8, R111): four entries, every other format has none. -/
def bitsTable : BitsTable :=
  [(⟨.eight, .none, .one⟩, 10), (⟨.eight, .even, .one⟩, 11), (⟨.eight, .odd, .one⟩, 11), (⟨.eight, .none, .two⟩, 11)]

/-- `BITS_TABLE(fmt)`: the format's entry, the first one where a table lists it twice; it may have none (R110). -/
def bitsPerChar : BitsTable → SerialFormat → Option Nat
  | [], _ => none
  | (f, b) :: table, fmt => if f = fmt then some b.val else bitsPerChar table fmt

end Sys2Proof.Machine
end

