-- ==== Sys2Proof/Config.lean ====
section
/-! DEFINITION. The six parameters of rule R8 (00_scope.md), which "the model takes as arguments". -/

namespace Sys2Proof

/-- The parameters an instance is built with. The state carries one, which no rule writes: `step` takes
the state as its one argument, so a statement about every state is a statement about every choice of
parameters (log entry 3). -/
structure Params where
  /-- `BUF_CAP`: the frame buffer's capacity in bytes. -/
  bufCap : Nat
  /-- `BITS_TABLE`: the bits per character of each serial format that has an entry. -/
  bitsTable : Machine.BitsTable
  /-- `RESPONSE_TIMEOUT_RESET`: the reset value of `RESP_TO`, in microseconds. -/
  responseTimeoutReset : Word32
  /-- `CHECK_RESPONSE_ID`: whether a response's address byte must equal the request's id. -/
  checkResponseId : Bool
  /-- `HAS_DE`: whether the direction-control output is present. -/
  hasDE : Bool
  /-- `CLOCK_BITS`: the width of the microsecond clock. -/
  clockBits : Nat
  deriving DecidableEq, Repr

namespace Config

/-- `BUF_CAP` in "this spec" (R8): 256. -/
def bufCap : Nat := 256

/-- `RESPONSE_TIMEOUT_RESET`, an OPEN parameter of R8: a constant without a body (log entry 1). -/
opaque responseTimeoutReset : Word32

/-- `CHECK_RESPONSE_ID` in "this spec" (R8): true. -/
def checkResponseId : Bool := true

/-- `HAS_DE`, an OPEN parameter of R8: a constant without a body (log entry 2). -/
opaque hasDE : Bool

/-- `CLOCK_BITS` in "this spec" (R8): 32. -/
def clockBits : Nat := 32

/-- The parameters of the machine whose reset state is `State.reset`. -/
def params : Params :=
  { bufCap := bufCap, bitsTable := Machine.bitsTable, responseTimeoutReset := responseTimeoutReset,
    checkResponseId := checkResponseId, hasDE := hasDE, clockBits := clockBits }

end Config

/-- "256; any value ≥ 256 is allowed" (R8). -/
abbrev Params.wf (p : Params) : Prop := 256 ≤ p.bufCap

end Sys2Proof
end

