-- ==== Sys2Proof/Machine/Crc.lean ====
section
/-! DEFINITION. The pure part of the Frame Codec: CRC-16, Modbus variant (40_crc_codec.md R100, R101, R106). -/

namespace Sys2Proof.Machine

/-- The polynomial 0xA001 (R9, R100). -/
def crcPoly : Word16 := 0xA001#16

/-- The initial value 0xFFFF (R9, R100). -/
def crcInit : Word16 := 0xFFFF#16

/-- One of the eight steps of R100: test bit 0, shift right, then conditionally XOR the polynomial. -/
def crcShift (crc : Word16) : Word16 :=
  if crc.getLsbD 0 then (crc >>> 1) ^^^ crcPoly else crc >>> 1

/-- `n` steps of R100 in a row. -/
def crcShifts : Nat → Word16 → Word16
  | 0, crc => crc
  | n + 1, crc => crcShifts n (crcShift crc)

/-- CRC_UPDATE (R101): the byte enters the low 8 bits, then exactly 8 steps. -/
def crcUpdate (crc : Word16) (b : Byte) : Word16 :=
  crcShifts 8 (crc ^^^ b.setWidth 16)

/-- CRC16 (R100): CRC_UPDATE folded over the list from the initial value, no final XOR. -/
def crc16 (d : List Byte) : Word16 := d.foldl crcUpdate crcInit

end Sys2Proof.Machine
end

