-- ==== Sys2Proof/Machine/Operands.lean ====
section
/-! DEFINITION. Operand assembly: byte order, bit packing, byte counts, function-code bytes and quantity
bounds (30_encoding.md R73, R74, R86; 20_memory.md R53 to R57; R156 to R158; R175, R176). -/

namespace Sys2Proof.Machine

/-- `hi(v) = v[15:8]` (R11). -/
def hi (v : Word16) : Byte := v.extractLsb' 8 8

/-- `lo(v) = v[7:0]` (R11). -/
def lo (v : Word16) : Byte := v.extractLsb' 0 8

/-- `a ‖ b`: the 16-bit value with `a` the high byte (R11). -/
def join (a b : Byte) : Word16 := a ++ b

/-- The function-code byte (R73). -/
def fcByte : FuncCode → Byte
  | .readCoils => 0x01#8
  | .readDiscreteInputs => 0x02#8
  | .readHoldingRegisters => 0x03#8
  | .readInputRegisters => 0x04#8
  | .writeSingleCoil => 0x05#8
  | .writeSingleRegister => 0x06#8
  | .writeMultipleCoils => 0x0F#8
  | .writeMultipleRegisters => 0x10#8

/-- The function code of a byte, for the eight codes of R73 and no other. -/
def fcOfByte (b : Byte) : Option FuncCode :=
  if b = 0x01#8 then some .readCoils
  else if b = 0x02#8 then some .readDiscreteInputs
  else if b = 0x03#8 then some .readHoldingRegisters
  else if b = 0x04#8 then some .readInputRegisters
  else if b = 0x05#8 then some .writeSingleCoil
  else if b = 0x06#8 then some .writeSingleRegister
  else if b = 0x0F#8 then some .writeMultipleCoils
  else if b = 0x10#8 then some .writeMultipleRegisters
  else none

/-- `fc | 0x80`: the function-code byte of an exception response (R74). -/
def exceptionFc (fc : Byte) : Byte := fc ||| 0x80#8

/-- The function-code byte whose bit 7 is set and whose bits 6..0 are `fc` (R74, R85). -/
def exceptionFcOf (fc : BitVec 7) : Byte := 1#1 ++ fc

/-- The quantity bound of R73. -/
def qtyMax : FuncCode → Nat
  | .readCoils => 2000
  | .readDiscreteInputs => 2000
  | .readHoldingRegisters => 125
  | .readInputRegisters => 125
  | .writeSingleCoil => 1
  | .writeSingleRegister => 1
  | .writeMultipleCoils => 1968
  | .writeMultipleRegisters => 123

/-- `byteCount(unit, qty)` (R158): `(qty + 7) / 8` for bits, `2 · qty` for registers. -/
def byteCount : DataUnit → Nat → Nat
  | .bit, qty => (qty + 7) / 8
  | .register, qty => 2 * qty

/-- The code-5 value field (R86): 0xFF00 if true, else 0x0000. -/
def coilValue (value : Bool) : Word16 := if value then 0xFF00#16 else 0x0000#16

/-- One packed byte: bit `k` is `f k`, for k from 0 to 7. -/
def packByte (f : Nat → Bool) : Byte :=
  BitVec.ofBoolListLE [f 0, f 1, f 2, f 3, f 4, f 5, f 6, f 7]

/-- `PACK_COILS(in, qty)` (R175): data byte j holds items 8j to 8j+7 in bits 0 to 7, and a bit for an
item at index `qty` or above is 0. -/
def packBits (data : List Bool) (qty : Nat) : List Byte :=
  (List.range (byteCount .bit qty)).map fun j =>
    packByte fun k => decide (8 * j + k < qty) && data.getD (8 * j + k) false

/-- `UNPACK(bit)` (R156): item i is bit `i & 7` of data byte `i >> 3`. -/
def unpackBits (bytes : List Byte) (qty : Nat) : List Bool :=
  (List.range qty).map fun i => (bytes.getD (i >>> 3) 0#8).getLsbD (i &&& 7)

/-- `PACK_REGS(in, qty)` (R176): high byte then low byte of each of the first `qty` registers. -/
def packRegs (data : List Word16) (qty : Nat) : List Byte :=
  (data.take qty).flatMap fun v => [hi v, lo v]

/-- `UNPACK(register)` (R157): register k is bytes 2k (high) and 2k+1 (low). -/
def unpackRegs (bytes : List Byte) (qty : Nat) : List Word16 :=
  (List.range qty).map fun k => join (bytes.getD (2 * k) 0#8) (bytes.getD (2 * k + 1) 0#8)

/-- The six bytes `[id, fc, hi(a), lo(a), hi(v), lo(v)]` that begin every request (R76 to R80) and that
a write is echoed with (R83, R84). -/
def header (id : Byte) (fc : FuncCode) (a v : Word16) : List Byte :=
  [id, fcByte fc, hi a, lo a, hi v, lo v]

end Sys2Proof.Machine
end

