-- ==== Sys2Proof/WellFormed.lean ====
section
/-! DEFINITION. Well-formed operations: the operand ranges in each operation's "Operands" line (R151 to R154,
R171 to R174, R102, R103). An ill-formed operation is no error of the machine: it has the effect its rule
gives it (InvalidArgument, or the fault BufferTooShort or BufferOverrun). -/

namespace Sys2Proof

open Machine

/-- `id` 1..247 (reads, R71). -/
def unicastId (id : Byte) : Bool := decide (1 ≤ id.toNat) && decide (id.toNat ≤ 247)

/-- `id` 0..247 (writes; 0 is the broadcast, R71). -/
def writeId (id : Byte) : Bool := decide (id.toNat ≤ 247)

/-- A quantity from 1 to the bound of R73. -/
def qtyInRange (fc : FuncCode) (qty : Word16) : Bool :=
  decide (1 ≤ qty.toNat) && decide (qty.toNat ≤ qtyMax fc)

/-- A present buffer of at least `qty` elements (R52). -/
def holds {α : Type} (data : Option (List α)) (qty : Word16) : Bool :=
  match data with
  | none => false
  | some l => decide (qty.toNat ≤ l.length)

/-- The "Operands" lines of the operations' rules. The length of a read's named buffer is a matter of the
state, so only its presence is asked here. -/
def Instr.wf : Instr → Bool
  | .readCoils id _ out qty => unicastId id && qtyInRange .readCoils qty && out.isSome
  | .readDiscreteInputs id _ out qty => unicastId id && qtyInRange .readDiscreteInputs qty && out.isSome
  | .readHoldingRegisters id _ out qty => unicastId id && qtyInRange .readHoldingRegisters qty && out.isSome
  | .readInputRegisters id _ out qty => unicastId id && qtyInRange .readInputRegisters qty && out.isSome
  | .writeSingleCoil id _ _ => writeId id
  | .writeSingleRegister id _ _ => writeId id
  | .writeMultipleCoils id _ data qty => writeId id && qtyInRange .writeMultipleCoils qty && holds data qty
  | .writeMultipleRegisters id _ data qty =>
    writeId id && qtyInRange .writeMultipleRegisters qty && holds data qty
  | .exceptionResponse _ _ _ => true
  | .configure _ _ => true
  | .setResponseTimeout _ => true
  | .getExceptionCode => true
  | .crc16 _ => true
  | .crcUpdate _ _ => true
  | .crcEncode n => decide (1 ≤ n) && decide (n + 2 ≤ 256)
  | .crcValidate m => decide (m ≤ 256)
  | .timingCalc _ _ => true
  | .transact => true

end Sys2Proof
end

