-- ==== Sys2Proof/Decode.lean ====
section
/-! DEFINITION. The decoder, total on any bytes and rejecting by name, and after it the encoder
(30_encoding.md R70, R73, R76 to R80, R85, R86).

The words of an operation are its `BUF[0..TX_LEN-1]`: the id byte, the function-code byte, the payload;
the frame adds the CRC (R70). A read's output buffer is a data port beside the words (R42), so the
decoder takes the binding of that port as an argument. Host-only and internal operations have no
encoding (R90). -/

namespace Sys2Proof

open Machine

/-- Why bytes are no operation's words. -/
inductive DecodeError where
  /-- Fewer bytes than the layout needs. -/
  | truncated
  /-- A function-code byte outside R73 with bit 7 clear. -/
  | unknownFunctionCode (fc : Byte)
  /-- A code-5 value field other than 0xFF00 and 0x0000 (R77). -/
  | badCoilValue (v : Word16)
  /-- A byte-count byte other than the one R79 or R80 gives for the quantity. -/
  | byteCountMismatch (bc : Byte) (qty : Word16)
  /-- A bit above the last coil that is not 0 (R79, R175). -/
  | paddingNotZero
  /-- Bytes after the operation's last one, in a frame. -/
  | trailingBytes
  /-- A frame whose last two bytes are not the CRC of those before them (R70). -/
  | badCrc
  deriving DecidableEq, Repr

/-- The data part of a multiple write: the byte-count byte `bc`, then `bc` data bytes (R79, R80). -/
def decodeData (unit : DataUnit) (qty : Word16) (r : List Byte) : Except DecodeError (List Byte × List Byte) :=
  match r with
  | [] => .error .truncated
  | bc :: r =>
    if bc.toNat ≠ byteCount unit qty.toNat then .error (.byteCountMismatch bc qty)
    else if r.length < bc.toNat then .error .truncated
    else .ok (r.take bc.toNat, r.drop bc.toNat)

/-- The fields after the function-code byte: `addr` is bytes 2 and 3, `v` is bytes 4 and 5 (a quantity or
a value), `r` what follows (R76 to R80). -/
def decodeFields (out : Option BufName) (id : Byte) (fc : FuncCode) (addr v : Word16) (r : List Byte) :
    Except DecodeError (Instr × List Byte) :=
  match fc with
  | .readCoils => .ok (.readCoils id addr out v, r)
  | .readDiscreteInputs => .ok (.readDiscreteInputs id addr out v, r)
  | .readHoldingRegisters => .ok (.readHoldingRegisters id addr out v, r)
  | .readInputRegisters => .ok (.readInputRegisters id addr out v, r)
  | .writeSingleCoil =>
    if v = coilValue true then .ok (.writeSingleCoil id addr true, r)
    else if v = coilValue false then .ok (.writeSingleCoil id addr false, r)
    else .error (.badCoilValue v)
  | .writeSingleRegister => .ok (.writeSingleRegister id addr v, r)
  | .writeMultipleCoils =>
    match decodeData .bit v r with
    | .error e => .error e
    | .ok (d, r) =>
      if packBits (unpackBits d v.toNat) v.toNat = d then
        .ok (.writeMultipleCoils id addr (some (unpackBits d v.toNat)) v, r)
      else .error .paddingNotZero
  | .writeMultipleRegisters =>
    match decodeData .register v r with
    | .error e => .error e
    | .ok (d, r) => .ok (.writeMultipleRegisters id addr (some (unpackRegs d v.toNat)) v, r)

/-- Decode the operation at the head of a byte list; `out` is the binding of the output-buffer port. The
answer holds the bytes left over. -/
def decode (out : Option BufName) (bytes : List Byte) : Except DecodeError (Instr × List Byte) :=
  match bytes with
  | id :: fc :: r =>
    if fc.msb then
      match r with
      | code :: r => .ok (.exceptionResponse id (fc.setWidth 7) code, r)
      | [] => .error .truncated
    else
      match fcOfByte fc with
      | none => .error (.unknownFunctionCode fc)
      | some f =>
        match r with
        | a1 :: a0 :: v1 :: v0 :: r => decodeFields out id f (join a1 a0) (join v1 v0) r
        | _ => .error .truncated
  | _ => .error .truncated

/-- Decode a whole frame: the CRC checked and taken off, no byte left over (R70). -/
def decodeFrame (out : Option BufName) (frame : List Byte) : Except DecodeError Instr :=
  let n := frame.length - 2
  if frame.length < 2 then .error .truncated
  else if frame.drop n ≠ [lo (crc16 (frame.take n)), hi (crc16 (frame.take n))] then .error .badCrc
  else
    match decode out (frame.take n) with
    | .error e => .error e
    | .ok (i, []) => .ok i
    | .ok (_, _ :: _) => .error .trailingBytes

/-- The words of an operation that has an encoding (R76 to R80, R85); none for the others (R90). -/
def encode : Instr → Option (List Byte)
  | .readCoils id addr _ qty => some [id, 0x01#8, hi addr, lo addr, hi qty, lo qty]
  | .readDiscreteInputs id addr _ qty => some [id, 0x02#8, hi addr, lo addr, hi qty, lo qty]
  | .readHoldingRegisters id addr _ qty => some [id, 0x03#8, hi addr, lo addr, hi qty, lo qty]
  | .readInputRegisters id addr _ qty => some [id, 0x04#8, hi addr, lo addr, hi qty, lo qty]
  | .writeSingleCoil id addr value =>
    some [id, 0x05#8, hi addr, lo addr, if value then 0xFF#8 else 0x00#8, 0x00#8]
  | .writeSingleRegister id addr value => some [id, 0x06#8, hi addr, lo addr, hi value, lo value]
  | .writeMultipleCoils id addr data qty =>
    some ([id, 0x0F#8, hi addr, lo addr, hi qty, lo qty, BitVec.ofNat 8 ((qty.toNat + 7) / 8)]
      ++ packBits (data.getD []) qty.toNat)
  | .writeMultipleRegisters id addr data qty =>
    some ([id, 0x10#8, hi addr, lo addr, hi qty, lo qty, BitVec.ofNat 8 (2 * qty.toNat)]
      ++ packRegs (data.getD []) qty.toNat)
  | .exceptionResponse id fc code => some [id, exceptionFcOf fc, code]
  | .configure _ _ => none
  | .setResponseTimeout _ => none
  | .getExceptionCode => none
  | .crc16 _ => none
  | .crcUpdate _ _ => none
  | .crcEncode _ => none
  | .crcValidate _ => none
  | .timingCalc _ _ => none
  | .transact => none

/-- A frame: the bytes, then their CRC, low byte first (R54, R70). -/
def withCrc (d : List Byte) : List Byte := d ++ [lo (crc16 d), hi (crc16 d)]

/-- The frame an operation is sent as (R70). -/
def encodeFrame (i : Instr) : Option (List Byte) := (encode i).map withCrc

/-- The output-buffer port's binding: the one operand of a read that its words do not carry. -/
def Instr.out : Instr → Option BufName
  | .readCoils _ _ out _ => out
  | .readDiscreteInputs _ _ out _ => out
  | .readHoldingRegisters _ _ out _ => out
  | .readInputRegisters _ _ out _ => out
  | .writeSingleCoil _ _ _ => none
  | .writeSingleRegister _ _ _ => none
  | .writeMultipleCoils _ _ _ _ => none
  | .writeMultipleRegisters _ _ _ _ => none
  | .exceptionResponse _ _ _ => none
  | .configure _ _ => none
  | .setResponseTimeout _ => none
  | .getExceptionCode => none
  | .crc16 _ => none
  | .crcUpdate _ _ => none
  | .crcEncode _ => none
  | .crcValidate _ => none
  | .timingCalc _ _ => none
  | .transact => none

/-- The operation with its input buffer cut to the `qty` elements that are read ("Only `in[0..qty-1]` is
read", R175, R176), which are those its words carry. -/
def Instr.trimmed : Instr → Instr
  | .readCoils id addr out qty => .readCoils id addr out qty
  | .readDiscreteInputs id addr out qty => .readDiscreteInputs id addr out qty
  | .readHoldingRegisters id addr out qty => .readHoldingRegisters id addr out qty
  | .readInputRegisters id addr out qty => .readInputRegisters id addr out qty
  | .writeSingleCoil id addr value => .writeSingleCoil id addr value
  | .writeSingleRegister id addr value => .writeSingleRegister id addr value
  | .writeMultipleCoils id addr data qty => .writeMultipleCoils id addr (data.map (List.take qty.toNat)) qty
  | .writeMultipleRegisters id addr data qty =>
    .writeMultipleRegisters id addr (data.map (List.take qty.toNat)) qty
  | .exceptionResponse id fc code => .exceptionResponse id fc code
  | .configure baud fmt => .configure baud fmt
  | .setResponseTimeout t => .setResponseTimeout t
  | .getExceptionCode => .getExceptionCode
  | .crc16 d => .crc16 d
  | .crcUpdate crc b => .crcUpdate crc b
  | .crcEncode n => .crcEncode n
  | .crcValidate m => .crcValidate m
  | .timingCalc baud fmt => .timingCalc baud fmt
  | .transact => .transact

/-- `n` bytes of a number, the least significant first. -/
def bytesOf : Nat → Nat → List Byte
  | 0, _ => []
  | n + 1, w => BitVec.ofNat 8 w :: bytesOf n (w / 256)

/-- The words that a number of the opcode table's stands for: its low byte is the function-code byte, the
next bytes follow it, everything above `nbits` is 0 up to the longest operation (253 bytes, R102), and
the id byte, which the table gives no bits, is 0 (log entry 12). -/
def tableWords (nbits w : Nat) : List Byte := 0#8 :: bytesOf 252 (w % 2 ^ nbits)

/-- The operation the decoder reads from a number laid out as opcode_table.json numbers its bits. -/
def decodeTableWord (nbits w : Nat) : Option Instr :=
  match decode none (tableWords nbits w) with
  | .ok (i, _) => some i
  | .error _ => none

end Sys2Proof
end

