-- ==== Sys2Proof/Machine/State.lean ====
section
/-! DEFINITION. The state: the registers of rule R20 (10_state.md), the Link's, the Clock's and the Host's
state, and the draws. Plain data throughout. -/

namespace Sys2Proof.Machine

/-- The phases of R26. -/
inductive Phase where
  | idle | flushStale | transmit | rxWait | rxBytes | rxSilence | validate | parse | done | failed
  deriving DecidableEq, Repr

/-- The diagnostic error kinds of R200. -/
inductive ErrKind where
  | none | invalidArgument | communicationTimeout | frameIntegrityError | protocolMismatch | deviceException
  deriving DecidableEq, Repr

/-- `RESULT` (R31): the success Boolean, the error kind, and for GET_EXCEPTION_CODE the byte read. -/
structure Result where
  ok : Bool
  err : ErrKind
  byte : Option Byte
  deriving DecidableEq, Repr

/-- `REQ`, the request context (R30). -/
structure ReqContext where
  id : Byte
  fc : FuncCode
  addr : Word16
  qty : Word16
  val : Word16
  expect : Bool
  out : Option BufName
  deriving DecidableEq, Repr

/-- The register that an `UnsetRead` names (R205). -/
inductive UnsetReg where
  | buf (i : Nat) | tMark | req
  deriving DecidableEq, Repr

/-- The value of `FAULT` when it is set: the fault's name with the info R205 records. -/
inductive BlockFault where
  | timingUnset (op : OpName)
  | bufferTooShort (qty length : Nat)
  | reentry (op : OpName)
  | bufferOverrun (index : Nat)
  | unsetRead (reg : UnsetReg)
  deriving DecidableEq, Repr

/-- What the host presents at the operation port (R40): an operation by name (R90), or an operation's
words with the binding of its output-buffer port (log entry 11). -/
inductive PortRequest where
  | byName (i : Instr)
  | byWords (out : Option BufName) (bytes : List Byte)
  deriving DecidableEq, Repr

/-- One draw (R5, R131): which agent moves next and what it does (log entry 7). -/
inductive Event where
  /-- The Link appends a byte to `RXQ` (R36). -/
  | deliver (b : Byte)
  /-- The Clock reaches `now` microseconds and an engine step of the block samples it (R39, R131); what it shows is
  `now` modulo `2^CLOCK_BITS` (log entry 6). -/
  | tick (now : Nat)
  /-- The Host issues an operation when the Clock reaches `now` (R40). -/
  | issue (now : Nat) (request : PortRequest)
  /-- The Host fills one of its bit buffers (R42). -/
  | hostBits (name : BufName) (bits : List Bool)
  /-- The Host fills one of its 16-bit buffers (R42). -/
  | hostWords (name : BufName) (words : List Word16)
  /-- Reset (R230, R231). -/
  | reset
  deriving DecidableEq, Repr

/-- What the block does at its transport port and on `DE`, for the record `portTrace` (R37, R38). -/
inductive PortEvent where
  | de (active : Bool) | write (frame : List Byte) | flush
  deriving DecidableEq, Repr

/-- The value an internal operation returns to its caller (log entry 15). -/
inductive RetVal where
  | none
  | crc (c : Word16)
  | valid (b : Bool)
  | timing (r : Option (Word32 × Word32))
  deriving DecidableEq, Repr

/-- Why the machine stops. -/
inductive Fault where
  /-- Raised by every operation that `exec` is asked to run on a block whose `FAULT` is set: "no further step is taken
  and no host operation is accepted until reset" (R205). `step` never asks it to: the port does not accept the operation
  and the run goes on (log entry 10). Safe. -/
  | stopped (f : BlockFault)
  deriving DecidableEq, Repr

/-- Why a step has no meaning. -/
inductive Refusal where
  /-- Raised by an arm of `exec` whose instruction has no meaning yet. Safe. -/
  | notModelled (mnemonic : String)
  /-- Raised by the operation port for bytes that are no operation's words. Safe: the spec gives the port no
  such request. -/
  | undecodable (e : DecodeError)
  /-- Raised by the operation port for an operation that is not among the eleven of R40. Safe: the host cannot
  issue it. -/
  | notAtPort (op : OpName)
  /-- Raised when the Host changes a buffer that the operation in progress will write: R240 forbids it and the
  spec gives no effect. Safe. -/
  | hostBufferInUse (name : BufName)
  deriving DecidableEq, Repr

/-- The whole machine. -/
structure State where
  /-- The parameters of R8; no rule writes them (log entry 3). -/
  params : Params
  /-- `CHAR_TO` (R21); `none` is the spec's own "unset". -/
  charTo : Option Word32
  /-- `FRAME_TO` (R22); `none` is the spec's own "unset". -/
  frameTo : Option Word32
  /-- `RESP_TO` (R23). -/
  respTo : Word32
  /-- `EXC` (R24). -/
  exc : Byte
  /-- `BUF` (R25, R46): the bytes that hold a value, indices strictly rising; an unlisted index is unset. -/
  buf : List Host.Cell
  /-- `PHASE` (R26). -/
  phase : Phase
  /-- `T_MARK` (R27), a clock value, so as wide as the Clock; `none` is the spec's own "unset". -/
  tMark : Option Nat
  /-- `TX_LEN` (R29). -/
  txLen : Nat
  /-- `RX_LEN` (R28). -/
  rxLen : Nat
  /-- `REQ` (R30); `none` is the spec's own "unset". -/
  req : Option ReqContext
  /-- `RESULT` (R31). -/
  result : Result
  /-- `FAULT` (R32). -/
  fault : Option BlockFault
  /-- The level of the output `DE` (R38). -/
  de : Bool
  /-- The Link's `RXQ`, oldest byte first (R36). -/
  rxq : List Byte
  /-- The Link's `TXLOG`, oldest frame first (R36, R133). -/
  txlog : List (List Byte)
  /-- The Clock's value at the last sample, below `2^CLOCK_BITS` (R39). -/
  now : Nat
  /-- The Host's bit buffers by name, names strictly rising (R42, log entry 13). -/
  bitBufs : List (BufName × List Bool)
  /-- The Host's 16-bit buffers by name, names strictly rising (R42, log entry 13). -/
  wordBufs : List (BufName × List Word16)
  /-- The draws to come, the next one first (log entry 7). -/
  schedule : List Event
  /-- What happened at the transport port and on `DE`, oldest first (log entry 16). -/
  portTrace : List PortEvent
  /-- The value the last internal operation returned (log entry 15). -/
  retval : RetVal
  deriving DecidableEq, Repr

/-- The machine right after reset (R230). The Link, the Clock, the Host and the draws, which reset does not
touch, start empty and at 0 (log entry 18). -/
def State.reset : State :=
  { params := Config.params
    charTo := none
    frameTo := none
    respTo := Config.params.responseTimeoutReset
    exc := 0#8
    buf := []
    phase := .idle
    tMark := none
    txLen := 0
    rxLen := 0
    req := none
    result := { ok := false, err := .none, byte := none }
    fault := none
    de := false
    rxq := []
    txlog := []
    now := 0
    bitBufs := []
    wordBufs := []
    schedule := []
    portTrace := []
    retval := .none }

/-- What an operation, an engine step or a model step answers. -/
abbrev Out := Host.Outcome State Fault Refusal

end Sys2Proof.Machine
end

