-- ==== Sys2Proof/Machine/Ops.lean ====
section
/-! DEFINITION. The named operations over memory and registers, and the shared endings of an operation: `fail`,
`succeed` and `raise`, which stand where another machine takes an exception (00_scope.md R13 to R16;
60_exceptions.md R205, R209). -/

namespace Sys2Proof.Machine

/-! ## Lists of (key, value) pairs with strictly rising keys: `BUF` and the host's named buffers -/

namespace Cells

variable {α : Type}

/-- The value at a key; none where no pair lists it. -/
def read : List (Nat × α) → Nat → Option α
  | [], _ => none
  | (k, v) :: m, i => if i = k then some v else read m i

/-- Write one key, keeping the keys strictly rising. -/
def write : List (Nat × α) → Nat → α → List (Nat × α)
  | [], i, x => [(i, x)]
  | (k, v) :: m, i, x =>
    if i < k then (i, x) :: (k, v) :: m
    else if i = k then (i, x) :: m
    else (k, v) :: write m i x

/-- Write a list of values from key `a` on: `MemWrite(a, n, v)` (R13). -/
def writeList : List (Nat × α) → Nat → List α → List (Nat × α)
  | m, _, [] => m
  | m, a, x :: xs => writeList (write m a x) (a + 1) xs

/-- The canonical form: keys strictly rising. An unlisted key holds no value (for `BUF`: "unset", R46), so
no listed pair can repeat what an unlisted key reads as. -/
abbrev wf (m : List (Nat × α)) : Prop := m.Pairwise fun x y => x.1 < y.1

end Cells

/-- The canonical form of `BUF`. -/
abbrev Memory.wf (m : List Host.Cell) : Prop := Cells.wf m

/-! ## Named updates of the state -/

namespace State

/-- What the Clock shows when it has reached `n` microseconds: a `CLOCK_BITS`-bit count (R39). -/
def clockAt (s : State) (n : Nat) : Nat := n % 2 ^ s.params.clockBits
/-- The Clock's sample of the current step (R39). -/
def setNow (s : State) (n : Nat) : State := { s with now := s.clockAt n }
/-- The draws still to come. -/
def setSchedule (s : State) (es : List Event) : State := { s with schedule := es }
/-- `FAULT <- f` (R205). -/
def setFault (s : State) (f : BlockFault) : State := { s with fault := some f }
/-- `RESULT <- r`. -/
def setResult (s : State) (r : Result) : State := { s with result := r }
/-- `PHASE <- p` (R15). -/
def setPhase (s : State) (p : Phase) : State := { s with phase := p }
/-- `T_MARK <- t`. -/
def setMark (s : State) (t : Nat) : State := { s with tMark := some t }
/-- `TX_LEN <- n`. -/
def setTxLen (s : State) (n : Nat) : State := { s with txLen := n }
/-- `RX_LEN <- n`. -/
def setRxLen (s : State) (n : Nat) : State := { s with rxLen := n }
/-- `REQ <- r`. -/
def setReq (s : State) (r : ReqContext) : State := { s with req := some r }
/-- `EXC <- c`. -/
def setExc (s : State) (c : Byte) : State := { s with exc := c }
/-- `CHAR_TO` and `FRAME_TO`, set together or unset together (R22). -/
def setTimeouts (s : State) (r : Option (Word32 × Word32)) : State :=
  { s with charTo := r.map Prod.fst, frameTo := r.map Prod.snd }
/-- `RESP_TO <- t`. -/
def setRespTo (s : State) (t : Word32) : State := { s with respTo := t }
/-- `BUF[a], BUF[a+1], ... <- v`. -/
def setBuf (s : State) (a : Nat) (v : List Byte) : State := { s with buf := Cells.writeList s.buf a v }
/-- `RXQ <- q`: the Link's queue after a read or an arrival. -/
def setRxq (s : State) (q : List Byte) : State := { s with rxq := q }
/-- `Transport.write(f); TXLOG <- TXLOG ++ [f]` (R123, R133). -/
def transportWrite (s : State) (f : List Byte) : State :=
  { s with txlog := s.txlog ++ [f], portTrace := s.portTrace ++ [.write f] }
/-- `Transport.flush()` (R14): it always completes (R37). -/
def transportFlush (s : State) : State := { s with portTrace := s.portTrace ++ [.flush] }
/-- `DE.set(b)`: drives the output when `HAS_DE`, and does nothing otherwise (R14, R38). -/
def driveDE (s : State) (b : Bool) : State :=
  { s with
    de := if s.params.hasDE then b else s.de
    portTrace := if s.params.hasDE then s.portTrace ++ [.de b] else s.portTrace }
/-- A host bit buffer's new contents. -/
def setBits (s : State) (name : BufName) (bits : List Bool) : State :=
  { s with bitBufs := Cells.write s.bitBufs name bits }
/-- A host 16-bit buffer's new contents. -/
def setWords (s : State) (name : BufName) (words : List Word16) : State :=
  { s with wordBufs := Cells.write s.wordBufs name words }
/-- The value an internal operation returns (log entry 15). -/
def setRetval (s : State) (v : RetVal) : State := { s with retval := v }

end State

/-! ## The endings of an operation -/

/-- `raise F(info)` (R15, R205): `FAULT <- F`, and every effect made before stays. No result is presented: the next state is
not final (`State.final`, `State.presented`). -/
def raise (s : State) (f : BlockFault) : Out := .next (s.setFault f)

/-- `DONE` or `FAILED` reached: the result is presented and `PHASE` returns to `IDLE` in the same step
(R41, R132). -/
def conclude (s : State) (r : Result) : Out := .next ((s.setResult r).setPhase .idle)

/-- `fail(k)` (R15, R209). -/
def fail (s : State) (k : ErrKind) : Out := conclude s { ok := false, err := k, byte := none }

/-- `succeed` (R15). -/
def succeed (s : State) : Out := conclude s { ok := true, err := .none, byte := none }

/-- `succeed` with the byte GET_EXCEPTION_CODE presents (R31, R192). -/
def succeedWith (s : State) (b : Byte) : Out := conclude s { ok := true, err := .none, byte := some b }

/-! ## Guards -/

/-- A block whose `FAULT` is set takes no step and runs no operation (R32, R205). -/
def unlessStopped (s : State) (k : Out) : Out :=
  match s.fault with
  | some f => .fault (.stopped f)
  | none => k

/-- The operation port accepts an operation when `PHASE = IDLE` and `FAULT` is none; an operation issued
while `PHASE ≠ IDLE` raises `Reentry` (R40). -/
def hostOp (op : OpName) (s : State) (k : Out) : Out :=
  unlessStopped s (if s.phase = .idle then k else raise s (.reentry op))

/-! ## Reading registers that may be unset (R20) -/

/-- Go on with a value, or raise. -/
def orRaise {α : Type} (s : State) (x : Except BlockFault α) (k : α → Out) : Out :=
  match x with
  | .ok a => k a
  | .error f => raise s f

/-- The operation in progress, by `REQ.fc`: the name a `TimingUnset` inside the engine records. With `REQ` unset, a state
no run reaches, it is TRANSACT: the spec gives no name there, and this is the model's choice (log entry 21). -/
def currentOp (s : State) : OpName :=
  match s.req with
  | some r => r.fc.op
  | none => .transact

/-- A read of `REQ`. -/
def readReq (s : State) : Except BlockFault ReqContext :=
  match s.req with
  | some r => .ok r
  | none => .error (.unsetRead .req)

/-- A read of `T_MARK`. -/
def readMark (s : State) : Except BlockFault Nat :=
  match s.tMark with
  | some t => .ok t
  | none => .error (.unsetRead .tMark)

/-- A read of `CHAR_TO`. -/
def readCharTo (s : State) : Except BlockFault Word32 :=
  match s.charTo with
  | some t => .ok t
  | none => .error (.timingUnset (currentOp s))

/-- A read of `FRAME_TO`. -/
def readFrameTo (s : State) : Except BlockFault Word32 :=
  match s.frameTo with
  | some t => .ok t
  | none => .error (.timingUnset (currentOp s))

/-! ## The frame buffer (R13) -/

/-- `BUF[i]`. -/
def readByte (s : State) (i : Nat) : Except BlockFault Byte :=
  if i < s.params.bufCap then
    match Cells.read s.buf i with
    | some b => .ok b
    | none => .error (.unsetRead (.buf i))
  else .error (.bufferOverrun i)

/-- `MemRead(a, n)`. -/
def memRead (s : State) (a : Nat) : Nat → Except BlockFault (List Byte)
  | 0 => .ok []
  | n + 1 =>
    match readByte s a with
    | .error f => .error f
    | .ok b =>
      match memRead s (a + 1) n with
      | .error f => .error f
      | .ok bs => .ok (b :: bs)

/-- `MemWrite(a, len(v), v)`, then `k`. An index at or above `BUF_CAP` raises `BufferOverrun` at the first
such index, after the writes below it (R13, R16). -/
def memWrite (s : State) (a : Nat) (v : List Byte) (k : State → Out) : Out :=
  if v.length ≤ s.params.bufCap - a then k (s.setBuf a v)
  else raise (s.setBuf a (v.take (s.params.bufCap - a))) (.bufferOverrun (max a s.params.bufCap))

/-- The engine's result length `L = RX_LEN - 2` (R128). -/
def respLen (s : State) : Nat := s.rxLen - 2

/-! ## The clock (R15, R116, R117) -/

/-- `elapsed(t) = (now - t) mod 2^CLOCK_BITS`. -/
def elapsed (s : State) (t : Nat) : Nat :=
  (((s.now : Int) - (t : Int)) % ((2 ^ s.params.clockBits : Nat) : Int)).toNat

/-- A window `w` measured from `t` has expired once `elapsed(t) ≥ w`. -/
def expired (s : State) (t : Nat) (w : Word32) : Bool := decide (w.toNat ≤ elapsed s t)

end Sys2Proof.Machine
end

