-- ==== Sys2Proof/Machine/Flags.lean ====
section
/-! DEFINITION. The block's condition outputs: `RESULT.ok`, `RESULT.err` and `EXC` (10_state.md R35, 60_exceptions.md
R200, R206). -/

namespace Sys2Proof.Machine

/-- The numeric code of an error kind (R200). -/
def errCode : ErrKind → Nat
  | .none => 0
  | .invalidArgument => 1
  | .communicationTimeout => 2
  | .frameIntegrityError => 3
  | .protocolMismatch => 4
  | .deviceException => 5

/-- A record that an operation ends with: success with kind `None`, or failure with one of the five kinds (R31, R200).
The value reset gives `RESULT`, `{ok = false, err = None}` (R230), is no such record. -/
def Result.complete (r : Result) : Bool := r.ok == decide (r.err = .none)

/-- A state that ends a completed operation: none is in progress (R41), no fault is set ("A model must treat a faulted
state as never final", R205), and `RESULT` is an operation's and not reset's ("The operation in progress then presents
no result", R231). -/
def State.final (s : State) : Bool := decide (s.phase = .idle) && s.fault.isNone && s.result.complete

/-- The result the Host is presented with: `RESULT` in a final state. There is none while an operation is in progress;
after a fault, which leaves the register with an earlier operation's value; and after reset, until an operation ends
(R31, R41, R205, R231; log entry 9). -/
def State.presented (s : State) : Option Result := if s.final then some s.result else none

/-- A well-formed exception response: `EXC <- code`, then `fail(DeviceException)` (R134, R206). -/
def deviceException (s : State) (code : Byte) : Out := fail (s.setExc code) .deviceException

end Sys2Proof.Machine
end

