-- ==== Sys2Proof/Machine/Codec.lean ====
section
/-! DEFINITION. The Frame Codec's operations: CRC16, CRC_UPDATE, CRC_ENCODE, CRC_VALIDATE (40_crc_codec.md). -/

namespace Sys2Proof.Machine

/-- `CRC_ENCODE(n)` (R102), then `k`: append the CRC of `BUF[0..n-1]`, low byte first. -/
def crcEncode (s : State) (n : Nat) (k : State → Out) : Out :=
  if s.params.bufCap < n + 2 then raise s (.bufferOverrun n)
  else orRaise s (memRead s 0 n) fun d => memWrite s n [lo (crc16 d), hi (crc16 d)] k

/-- `CRC_VALIDATE(m)` (R103): false below 2 bytes; else the last two of the m bytes are the CRC of those
before them, low byte first. Both of those two are read, and an unset one raises, whether or not the first of them
agrees: the spec does not say whether the rule's `and` leaves its second part unread, and the model's choice matters only
in states no run reaches (log entry 28). -/
def crcValidate (s : State) (m : Nat) : Except BlockFault Bool :=
  if m < 2 then .ok false
  else
    match memRead s 0 (m - 2), readByte s (m - 2), readByte s (m - 1) with
    | .ok d, .ok l, .ok h => .ok (decide (l = lo (crc16 d)) && decide (h = hi (crc16 d)))
    | .error f, _, _ => .error f
    | .ok _, .error f, _ => .error f
    | .ok _, .ok _, .error f => .error f

/-- CRC16 (R100). -/
def execCrc16 (d : List Byte) (s : State) : Out :=
  unlessStopped s (.next (s.setRetval (.crc (crc16 d))))

/-- CRC_UPDATE (R101). -/
def execCrcUpdate (crc : Word16) (b : Byte) (s : State) : Out :=
  unlessStopped s (.next (s.setRetval (.crc (crcUpdate crc b))))

/-- CRC_ENCODE (R102). -/
def execCrcEncode (n : Nat) (s : State) : Out := unlessStopped s (crcEncode s n .next)

/-- CRC_VALIDATE (R103). -/
def execCrcValidate (m : Nat) (s : State) : Out :=
  unlessStopped s (orRaise s (crcValidate s m) fun b => .next (s.setRetval (.valid b)))

end Sys2Proof.Machine
end

