-- ==== Sys2Proof/Machine/Transact.lean ====
section
/-! DEFINITION. The start of a transaction (42_engine.md R120, R121). -/

namespace Sys2Proof.Machine

/-- `TRANSACT` (R120): both timeouts needed (R121), the CRC appended, `T_MARK <- now`,
`PHASE <- FLUSH_STALE`. `op` is the operation that a `TimingUnset` records. -/
def transact (op : OpName) (s : State) : Out :=
  if s.charTo.isSome && s.frameTo.isSome then
    crcEncode s s.txLen fun s => .next ((s.setMark s.now).setPhase .flushStale)
  else raise s (.timingUnset op)

/-- TRANSACT, run by itself. -/
def execTransact (s : State) : Out := unlessStopped s (transact .transact s)

/-- The end of a handler's request part (R150, R170): `BUF[0..] <- words; TX_LEN <- len(words);
REQ <- req; TRANSACT`. -/
def startRequest (op : OpName) (words : List Byte) (req : ReqContext) (s : State) : Out :=
  memWrite s 0 words fun s => transact op ((s.setTxLen words.length).setReq req)

end Sys2Proof.Machine
end

