-- ==== Sys2Proof/Machine/ReadHandlers.lean ====
section
/-! DEFINITION. The read handlers, function codes 1, 2, 3 and 4 (43_read_handlers.md). -/

namespace Sys2Proof.Machine

/-- The argument checks and the request of `READ(fc, QMAX, unit)` (R150). `len` is the length of the buffer
that `out` names, none for an absent buffer. -/
def readRequest (fc : FuncCode) (len : Option Nat) (id : Byte) (addr : Word16) (out : Option BufName)
    (qty : Word16) (s : State) : Out :=
  if id.toNat = 0 ∨ 247 < id.toNat then fail s .invalidArgument
  else if qty.toNat = 0 ∨ qtyMax fc < qty.toNat then fail s .invalidArgument
  else
    match len with
    | none => fail s .invalidArgument
    | some n =>
      if n < qty.toNat then raise s (.bufferTooShort qty.toNat n)
      else
        startRequest fc.op (header id fc addr qty)
          { id := id, fc := fc, addr := addr, qty := qty, val := 0#16, expect := true, out := out } s

/-- The length of the bit buffer an operand names; none for an absent one. -/
def bitBufLen (s : State) (out : Option BufName) : Option Nat :=
  (out.bind (Cells.read s.bitBufs)).map List.length

/-- The length of the 16-bit buffer an operand names; none for an absent one. -/
def wordBufLen (s : State) (out : Option BufName) : Option Nat :=
  (out.bind (Cells.read s.wordBufs)).map List.length

/-- READ_COILS (R151). -/
def execReadCoils (id : Byte) (addr : Word16) (out : Option BufName) (qty : Word16) (s : State) : Out :=
  hostOp .readCoils s (readRequest .readCoils (bitBufLen s out) id addr out qty s)

/-- READ_DISCRETE_INPUTS (R152). -/
def execReadDiscreteInputs (id : Byte) (addr : Word16) (out : Option BufName) (qty : Word16) (s : State) :
    Out :=
  hostOp .readDiscreteInputs s (readRequest .readDiscreteInputs (bitBufLen s out) id addr out qty s)

/-- READ_HOLDING_REGISTERS (R153). -/
def execReadHoldingRegisters (id : Byte) (addr : Word16) (out : Option BufName) (qty : Word16) (s : State) :
    Out :=
  hostOp .readHoldingRegisters s (readRequest .readHoldingRegisters (wordBufLen s out) id addr out qty s)

/-- READ_INPUT_REGISTERS (R154). -/
def execReadInputRegisters (id : Byte) (addr : Word16) (out : Option BufName) (qty : Word16) (s : State) :
    Out :=
  hostOp .readInputRegisters s (readRequest .readInputRegisters (wordBufLen s out) id addr out qty s)

/-- `PARSE_READ(unit)` (R155), then `k` with the `bc` data bytes, all of them read before UNPACK writes an item: the
model's choice, which matters only where one is unset, in states no run reaches (log entry 28). -/
def parseRead (unit : DataUnit) (req : ReqContext) (s : State) (k : List Byte → Out) : Out :=
  if respLen s ≠ 3 + byteCount unit req.qty.toNat then fail s .frameIntegrityError
  else
    orRaise s (readByte s 2) fun b =>
      if b.toNat ≠ byteCount unit req.qty.toNat then fail s .frameIntegrityError
      else orRaise s (memRead s 3 (byteCount unit req.qty.toNat)) k

/-- The elements from index 0 on replaced; those at index `qty` or above are not written (R156, R157). -/
def overlay {α : Type} (new old : List α) : List α := new ++ old.drop new.length

/-- The rest of PARSE for a read of bits: R155, then `UNPACK(bit)` (R156) into the buffer `REQ.out`. A buffer that is not bound, or
is shorter than `qty`, when the response comes is created or lengthened, and the read succeeds: R150 has checked the buffer
before the request, so the spec has no such state and no run reaches it; the model's choice (log entry 26). -/
def finishReadBits (req : ReqContext) (s : State) : Out :=
  parseRead .bit req s fun d =>
    match req.out with
    | none => raise s (.unsetRead .req)
    | some name =>
      succeed (s.setBits name (overlay (unpackBits d req.qty.toNat) ((Cells.read s.bitBufs name).getD [])))

/-- The rest of PARSE for a read of registers: R155, then `UNPACK(register)` (R157) into the buffer `REQ.out`. A buffer that is not bound, or
is shorter than `qty`, when the response comes is created or lengthened, and the read succeeds: R150 has checked the buffer
before the request, so the spec has no such state and no run reaches it; the model's choice (log entry 26). -/
def finishReadRegisters (req : ReqContext) (s : State) : Out :=
  parseRead .register req s fun d =>
    match req.out with
    | none => raise s (.unsetRead .req)
    | some name =>
      succeed (s.setWords name (overlay (unpackRegs d req.qty.toNat) ((Cells.read s.wordBufs name).getD [])))

/-- The rest of PARSE for READ_COILS (R151). -/
def finishReadCoils (req : ReqContext) (s : State) : Out := finishReadBits req s

/-- The rest of PARSE for READ_DISCRETE_INPUTS (R152). -/
def finishReadDiscreteInputs (req : ReqContext) (s : State) : Out := finishReadBits req s

/-- The rest of PARSE for READ_HOLDING_REGISTERS (R153). -/
def finishReadHoldingRegisters (req : ReqContext) (s : State) : Out := finishReadRegisters req s

/-- The rest of PARSE for READ_INPUT_REGISTERS (R154). -/
def finishReadInputRegisters (req : ReqContext) (s : State) : Out := finishReadRegisters req s

end Sys2Proof.Machine
end

