-- ==== Sys2Proof/Machine/WriteHandlers.lean ====
section
/-! DEFINITION. The write handlers, function codes 5, 6, 15 and 16 (44_write_handlers.md). -/

namespace Sys2Proof.Machine

/-- The request context of a write: `expect` is false exactly for a broadcast (R30, R170). -/
def writeReq (id : Byte) (fc : FuncCode) (addr qty val : Word16) : ReqContext :=
  { id := id, fc := fc, addr := addr, qty := qty, val := val, expect := decide (id.toNat ≠ 0), out := none }

/-- `WRITE(fc, single)` (R170): the id check, then `BUF[0..5]` with the value field `v`; `qty` is 1. -/
def writeSingle (fc : FuncCode) (id : Byte) (addr v : Word16) (s : State) : Out :=
  if 247 < id.toNat then fail s .invalidArgument
  else startRequest fc.op (header id fc addr v) (writeReq id fc addr 1#16 v) s

/-- `WRITE(fc, multiple)` (R170): the checks in the order R208 gives, then `BUF[0..6]` and the packed data;
`val` is 0. -/
def writeMultiple {α : Type} (fc : FuncCode) (unit : DataUnit) (pack : List α → Nat → List Byte) (id : Byte)
    (addr : Word16) (data : Option (List α)) (qty : Word16) (s : State) : Out :=
  if 247 < id.toNat then fail s .invalidArgument
  else if qty.toNat = 0 ∨ qtyMax fc < qty.toNat then fail s .invalidArgument
  else
    match data with
    | none => fail s .invalidArgument
    | some l =>
      if l.length < qty.toNat then raise s (.bufferTooShort qty.toNat l.length)
      else
        startRequest fc.op
          (header id fc addr qty ++ BitVec.ofNat 8 (byteCount unit qty.toNat) :: pack l qty.toNat)
          (writeReq id fc addr qty 0#16) s

/-- WRITE_SINGLE_COIL (R171). -/
def execWriteSingleCoil (id : Byte) (addr : Word16) (value : Bool) (s : State) : Out :=
  hostOp .writeSingleCoil s (writeSingle .writeSingleCoil id addr (coilValue value) s)

/-- WRITE_SINGLE_REGISTER (R172). -/
def execWriteSingleRegister (id : Byte) (addr : Word16) (value : Word16) (s : State) : Out :=
  hostOp .writeSingleRegister s (writeSingle .writeSingleRegister id addr value s)

/-- WRITE_MULTIPLE_COILS (R173). -/
def execWriteMultipleCoils (id : Byte) (addr : Word16) (data : Option (List Bool)) (qty : Word16)
    (s : State) : Out :=
  hostOp .writeMultipleCoils s (writeMultiple .writeMultipleCoils .bit packBits id addr data qty s)

/-- WRITE_MULTIPLE_REGISTERS (R174). -/
def execWriteMultipleRegisters (id : Byte) (addr : Word16) (data : Option (List Word16)) (qty : Word16)
    (s : State) : Out :=
  hostOp .writeMultipleRegisters s (writeMultiple .writeMultipleRegisters .register packRegs id addr data qty s)

/-- The echo checks (R177, R178): `L = 6`, then the address, then the value or quantity `v`. -/
def parseEcho (req : ReqContext) (v : Word16) (s : State) : Out :=
  if respLen s ≠ 6 then fail s .frameIntegrityError
  else
    orRaise s (readByte s 2) fun a1 => orRaise s (readByte s 3) fun a0 =>
      if join a1 a0 ≠ req.addr then fail s .protocolMismatch
      else
        orRaise s (readByte s 4) fun v1 => orRaise s (readByte s 5) fun v0 =>
          if join v1 v0 ≠ v then fail s .protocolMismatch else succeed s

/-- PARSE_ECHO_SINGLE (R177) for WRITE_SINGLE_COIL. -/
def finishWriteSingleCoil (req : ReqContext) (s : State) : Out := parseEcho req req.val s

/-- PARSE_ECHO_SINGLE (R177) for WRITE_SINGLE_REGISTER. -/
def finishWriteSingleRegister (req : ReqContext) (s : State) : Out := parseEcho req req.val s

/-- PARSE_ECHO_MULTIPLE (R178) for WRITE_MULTIPLE_COILS. -/
def finishWriteMultipleCoils (req : ReqContext) (s : State) : Out := parseEcho req req.qty s

/-- PARSE_ECHO_MULTIPLE (R178) for WRITE_MULTIPLE_REGISTERS. -/
def finishWriteMultipleRegisters (req : ReqContext) (s : State) : Out := parseEcho req req.qty s

end Sys2Proof.Machine
end

