-- ==== Sys2Proof/Machine/Responses.lean ====
section
/-! DEFINITION. The PARSE phase: the common response-header check, the exception response, and the hand-over to
the function code's own checks (42_engine.md R134, 30_encoding.md R75). -/

namespace Sys2Proof.Machine

/-- `PARSE_HEADER` (R134), then `k` for a normal response. The three bytes are `BUF[0]`, `BUF[1]`, `BUF[2]`.
`BUF[1]` and `BUF[2]` are read only where the rule reads them. `BUF[0]` is read first whether or not `CHECK_RESPONSE_ID`
holds, and raises where it is unset: the spec does not say whether the rule's `and` leaves its second part unread, and
the model's choice matters only in states no run reaches (log entry 28). -/
def parseHeader (req : ReqContext) (id fc code : Except BlockFault Byte) (s : State) (k : Out) : Out :=
  orRaise s id fun id =>
    if s.params.checkResponseId ∧ id ≠ req.id then fail s .protocolMismatch
    else
      orRaise s fc fun fc =>
        if fc = exceptionFc (fcByte req.fc) then
          if respLen s = 3 then orRaise s code fun code => deviceException s code
          else fail s .frameIntegrityError
        else if fc ≠ fcByte req.fc then fail s .protocolMismatch
        else k

/-- The function code's own checks and unpacking, after PARSE_HEADER. -/
def finishResponse (req : ReqContext) (s : State) : Out :=
  match req.fc with
  | .readCoils => finishReadCoils req s
  | .readDiscreteInputs => finishReadDiscreteInputs req s
  | .readHoldingRegisters => finishReadHoldingRegisters req s
  | .readInputRegisters => finishReadInputRegisters req s
  | .writeSingleCoil => finishWriteSingleCoil req s
  | .writeSingleRegister => finishWriteSingleRegister req s
  | .writeMultipleCoils => finishWriteMultipleCoils req s
  | .writeMultipleRegisters => finishWriteMultipleRegisters req s

/-- `PARSE` (R134, R150, R170). `REQ` is read before `BUF[0]`, so with both unset, a state no run reaches, the fault names
`REQ`: the spec does not say which is read first, and this is the model's choice (log entry 28). -/
def parse (s : State) : Out :=
  orRaise s (readReq s) fun req =>
    parseHeader req (readByte s 0) (readByte s 1) (readByte s 2) s (finishResponse req s)

/-- EXCEPTION_RESPONSE (R134, R85, R206): the received response has the address byte `id`, a function-code
byte with bit 7 set and bits 6..0 `fc`, and the byte `code` after it; `L` is its length. No function code of
the block has bit 7 set, so PARSE_HEADER never goes on to a handler: its last answer is the mismatch of R75
(log entry 19). -/
def execExceptionResponse (id : Byte) (fc : BitVec 7) (code : Byte) (s : State) : Out :=
  unlessStopped s <|
    orRaise s (readReq s) fun req =>
      parseHeader req (.ok id) (.ok (exceptionFcOf fc)) (.ok code) s (fail s .protocolMismatch)

end Sys2Proof.Machine
end

