-- ==== Sys2Proof/Machine/Engine.lean ====
section
/-! DEFINITION. The engine's phases, one rule each, and one engine step (42_engine.md R122 to R132). -/

namespace Sys2Proof.Machine

/-- `FLUSH_STALE` (R122). -/
def phaseFlushStale (s : State) : Out :=
  match s.rxq with
  | _ :: q => .next ((s.setRxq q).setMark s.now)
  | [] =>
    orRaise s (readMark s) fun t => orRaise s (readFrameTo s) fun w =>
      if expired s t w then .next (s.setPhase .transmit) else .next s

/-- `TRANSMIT` after the frame has been sent (R123, R124): a broadcast succeeds, any other request waits for
its response from `now`, which is sampled after `flush` returns (R131). -/
def afterTransmit (s : State) : Out :=
  orRaise s (readReq s) fun req =>
    if req.expect then .next (((s.setRxLen 0).setMark s.now).setPhase .rxWait) else succeed s

/-- `TRANSMIT` (R123). -/
def phaseTransmit (s : State) : Out :=
  let s := s.driveDE true
  orRaise s (memRead s 0 (s.txLen + 2)) fun f =>
    afterTransmit ((((s.transportWrite f).transportFlush).driveDE false).setExc 0#8)

/-- `RX_WAIT` (R125). The byte is taken from `RXQ` before it is stored, so a store that raises has taken it: the model's
choice, in states no run reaches (log entry 28). -/
def phaseRxWait (s : State) : Out :=
  match s.rxq with
  | b :: q =>
    memWrite (s.setRxq q) 0 [b] fun s => .next (((s.setRxLen 1).setMark s.now).setPhase .rxBytes)
  | [] =>
    orRaise s (readMark s) fun t =>
      if expired s t s.respTo then fail s .communicationTimeout else .next s

/-- `RX_BYTES` (R126). With `RX_LEN` above `BUF_CAP`, a state no run reaches, the byte is taken from `RXQ` before
`BufferOverrun` is raised: the spec does not order the two, and this is the model's choice (log entry 28). -/
def phaseRxBytes (s : State) : Out :=
  if s.rxLen = s.params.bufCap then .next ((s.setMark s.now).setPhase .rxSilence)
  else
    match s.rxq with
    | b :: q =>
      memWrite (s.setRxq q) s.rxLen [b] fun s => .next ((s.setRxLen (s.rxLen + 1)).setMark s.now)
    | [] =>
      orRaise s (readMark s) fun t => orRaise s (readCharTo s) fun w =>
        if expired s t w then .next ((s.setMark s.now).setPhase .rxSilence) else .next s

/-- `RX_SILENCE` (R127). -/
def phaseRxSilence (s : State) : Out :=
  orRaise s (readMark s) fun t => orRaise s (readFrameTo s) fun w =>
    if expired s t w then .next (s.setPhase .validate) else .next s

/-- `VALIDATE` (R128). -/
def phaseValidate (s : State) : Out :=
  if s.rxq ≠ [] then fail s .communicationTimeout
  else if s.rxLen < 3 then fail s .frameIntegrityError
  else
    orRaise s (crcValidate s s.rxLen) fun good =>
      if good then .next (s.setPhase .parse) else fail s .frameIntegrityError

/-- One engine step (R131): the rule of the current phase. `IDLE` takes no step (R218); `DONE` and `FAILED`
go on to `IDLE` (R132), which the step that reached them has already done. -/
def engineStep (s : State) : Out :=
  match s.phase with
  | .idle => .next s
  | .flushStale => phaseFlushStale s
  | .transmit => phaseTransmit s
  | .rxWait => phaseRxWait s
  | .rxBytes => phaseRxBytes s
  | .rxSilence => phaseRxSilence s
  | .validate => phaseValidate s
  | .parse => parse s
  | .done => .next (s.setPhase .idle)
  | .failed => .next (s.setPhase .idle)

end Sys2Proof.Machine
end

