-- ==== Sys2Proof/Machine/Agents.lean ====
section
/-! DEFINITION. The other agents of rule R4 (00_scope.md): the Link's arrivals, the Host's buffers and the
operation port's fetch, the Clock's tick, and reset. -/

namespace Sys2Proof.Machine

/-- The Link appends a byte to the tail of `RXQ` (R36). -/
def linkDeliver (b : Byte) (s : State) : State := s.setRxq (s.rxq ++ [b])

/-- The Clock reaches `n` and the block takes an engine step; a block whose `FAULT` is set takes none
(R32, R131). -/
def clockTick (n : Nat) (s : State) : Out :=
  match s.fault with
  | some _ => .next (s.setNow n)
  | none => engineStep (s.setNow n)

/-- The operation that a request names or spells, or why the port refuses it (R40, R90). Bytes after the
operation's last one are not looked at. -/
def fetch (r : PortRequest) : Except Refusal Instr :=
  match r with
  | .byName i => if i.op.atPort then .ok i else .error (.notAtPort i.op)
  | .byWords out bytes =>
    match decode out bytes with
    | .error e => .error (.undecodable e)
    | .ok (i, _) => if i.op.atPort then .ok i else .error (.notAtPort i.op)

/-- A bit buffer that the operation in progress will write (R42, R240). An operation that a fault has stopped counts as
in progress until reset: it has presented no result, and the spec does not say whether R240 still holds for it. That
is the model's choice (log entry 14). -/
def bitBufInUse (s : State) (name : BufName) : Bool :=
  decide (s.phase ≠ .idle) &&
    match s.req with
    | some r => decide (r.out = some name) && decide (r.fc = .readCoils ∨ r.fc = .readDiscreteInputs)
    | none => false

/-- A 16-bit buffer that the operation in progress will write (R42, R240), a stopped one until reset included (log
entry 14). -/
def wordBufInUse (s : State) (name : BufName) : Bool :=
  decide (s.phase ≠ .idle) &&
    match s.req with
    | some r => decide (r.out = some name) && decide (r.fc = .readHoldingRegisters ∨ r.fc = .readInputRegisters)
    | none => false

/-- The Host fills a bit buffer. -/
def hostBits (name : BufName) (bits : List Bool) (s : State) : Out :=
  if bitBufInUse s name then .refused (.hostBufferInUse name) else .next (s.setBits name bits)

/-- The Host fills a 16-bit buffer. -/
def hostWords (name : BufName) (words : List Word16) (s : State) : Out :=
  if wordBufInUse s name then .refused (.hostBufferInUse name) else .next (s.setWords name words)

/-- Reset (R230, R231): every register at its reset value, `DE` driven to false; `RXQ`, `TXLOG`, the clock,
the host's buffers, the parameters and the draws are not touched. -/
def resetBlock (s : State) : State :=
  let s := s.driveDE false
  { s with
    charTo := none
    frameTo := none
    respTo := s.params.responseTimeoutReset
    exc := 0#8
    buf := []
    phase := .idle
    tMark := none
    txLen := 0
    rxLen := 0
    req := none
    result := { ok := false, err := .none, byte := none }
    fault := none
    de := false
    retval := .none }

/-- The words of a response row placed where PARSE reads a response (R134): `BUF[0..2]`, with the length of
an exception response (`L = 3`, R85), in PARSE. A response is decoded against `REQ` (R75): where no
operation has written `REQ`, it is one whose function code is the response's low seven bits, or
READ_COILS where they are none of R73's codes (log entry 19). -/
def placeResponse (id : Byte) (fc : BitVec 7) (code : Byte) (s : State) : State :=
  let req : ReqContext :=
    match s.req with
    | some r => r
    | none =>
      { id := id, fc := (fcOfByte (fc.setWidth 8)).getD .readCoils, addr := 0#16, qty := 0#16, val := 0#16,
        expect := true, out := none }
  ((((s.setBuf 0 [id, exceptionFcOf fc, code]).setRxLen 5).setReq req).setPhase .parse).setSchedule
    (.tick s.now :: s.schedule)

/-- Words placed at the operation port of an idle block. -/
def placeRequest (words : List Byte) (s : State) : State :=
  (s.setPhase .idle).setSchedule (.issue s.now (.byWords none words) :: s.schedule)

/-- Words placed where the next step fetches them, in a block that is not stopped: a response row in the
frame buffer, every other row at the operation port (log entries 12, 19). -/
def placeWords (words : List Byte) (s : State) : State :=
  let s : State := { s with fault := none }
  match decode none words with
  | .ok (.exceptionResponse id fc code, _) => placeResponse id fc code s
  | _ => placeRequest words s

end Sys2Proof.Machine
end

