-- ==== Sys2Proof/Machine/Timing.lean ====
section
/-! DEFINITION. The Timing Calculator (41_timing.md R110 to R114). -/

namespace Sys2Proof.Machine

/-- `TIMING_CALC(baud, fmt)` (R110) with `BITS_TABLE` as an argument (R8): `(CHAR_TO, FRAME_TO)` in microseconds, or
none for "unset" (R114). Both quotients fit in 32 bits, since B is at most 12 (R113). -/
def timingCalc (table : BitsTable) (baud : Word32) (fmt : SerialFormat) : Option (Word32 × Word32) :=
  match bitsPerChar table fmt with
  | none => none
  | some b =>
    if baud.toNat = 0 then none
    else if 19200 < baud.toNat then some (750#32, 1750#32)
    else some (BitVec.ofNat 32 (15 * b * 100000 / baud.toNat), BitVec.ofNat 32 (35 * b * 100000 / baud.toNat))

/-- TIMING_CALC (R110). -/
def execTimingCalc (baud : Word32) (fmt : SerialFormat) (s : State) : Out :=
  unlessStopped s (.next (s.setRetval (.timing (timingCalc s.params.bitsTable baud fmt))))

end Sys2Proof.Machine
end

