-- ==== Sys2Proof/Machine/HostOps.lean ====
section
/-! DEFINITION. The three host-only operations (45_host_ops.md). -/

namespace Sys2Proof.Machine

/-- CONFIGURE (R190): the calculator's result, or both timeouts unset; it succeeds in every case. -/
def execConfigure (baud : Word32) (fmt : SerialFormat) (s : State) : Out :=
  hostOp .configure s (succeed (s.setTimeouts (timingCalc s.params.bitsTable baud fmt)))

/-- SET_RESPONSE_TIMEOUT (R191). -/
def execSetResponseTimeout (t : Word32) (s : State) : Out :=
  hostOp .setResponseTimeout s (succeed (s.setRespTo t))

/-- GET_EXCEPTION_CODE (R192). -/
def execGetExceptionCode (s : State) : Out :=
  hostOp .getExceptionCode s (succeedWith s s.exc)

end Sys2Proof.Machine
end

