-- ==== Sys2Proof/Machine/Dispatch.lean ====
section
/-! DEFINITION. One arm per operation of opcode_table.json. -/

namespace Sys2Proof.Machine

def exec (i : Instr) (s : State) : Host.Outcome State Fault Refusal :=
  match i with
  | .readCoils id addr out qty => Sys2Proof.Machine.execReadCoils id addr out qty s
  | .readDiscreteInputs id addr out qty => Sys2Proof.Machine.execReadDiscreteInputs id addr out qty s
  | .readHoldingRegisters id addr out qty => Sys2Proof.Machine.execReadHoldingRegisters id addr out qty s
  | .readInputRegisters id addr out qty => Sys2Proof.Machine.execReadInputRegisters id addr out qty s
  | .writeSingleCoil id addr value => Sys2Proof.Machine.execWriteSingleCoil id addr value s
  | .writeSingleRegister id addr value => Sys2Proof.Machine.execWriteSingleRegister id addr value s
  | .writeMultipleCoils id addr data qty => Sys2Proof.Machine.execWriteMultipleCoils id addr data qty s
  | .writeMultipleRegisters id addr data qty => Sys2Proof.Machine.execWriteMultipleRegisters id addr data qty s
  | .exceptionResponse id fc code => Sys2Proof.Machine.execExceptionResponse id fc code s
  | .configure baud fmt => Sys2Proof.Machine.execConfigure baud fmt s
  | .setResponseTimeout t => Sys2Proof.Machine.execSetResponseTimeout t s
  | .getExceptionCode => Sys2Proof.Machine.execGetExceptionCode s
  | .crc16 d => Sys2Proof.Machine.execCrc16 d s
  | .crcUpdate crc b => Sys2Proof.Machine.execCrcUpdate crc b s
  | .crcEncode n => Sys2Proof.Machine.execCrcEncode n s
  | .crcValidate m => Sys2Proof.Machine.execCrcValidate m s
  | .timingCalc baud fmt => Sys2Proof.Machine.execTimingCalc baud fmt s
  | .transact => Sys2Proof.Machine.execTransact s

end Sys2Proof.Machine
end

