-- ==== Sys2Proof/Machine/Step.lean ====
section
/-! DEFINITION. One step of the machine: the next draw of the schedule (00_scope.md R5, 42_engine.md R131). -/

namespace Sys2Proof.Machine

/-- The operation port takes a request: the operation fetched is run (R40). A block whose `FAULT` is set accepts none
until reset (R205): the request is dropped and nothing of the block changes (log entry 10). -/
def portIssue (r : PortRequest) (s : State) : Host.Outcome State Fault Refusal :=
  match s.fault with
  | some _ => .next s
  | none =>
    match fetch r with
    | .error e => .refused e
    | .ok i => exec i s

/-- One step. With no draw left, no agent moves and the machine waits. -/
def step (s : State) : Host.Outcome State Fault Refusal :=
  match s.schedule with
  | [] => .next s
  | .deliver b :: es => .next (linkDeliver b (s.setSchedule es))
  | .tick n :: es => clockTick n (s.setSchedule es)
  | .issue n r :: es => portIssue r ((s.setSchedule es).setNow n)
  | .hostBits name bits :: es => hostBits name bits (s.setSchedule es)
  | .hostWords name words :: es => hostWords name words (s.setSchedule es)
  | .reset :: es => .next (resetBlock (s.setSchedule es))

/-- The state with an operation's words, numbered as opcode_table.json numbers them, placed where `step`
fetches its next operation. -/
def State.withFetchWord (s : State) (nbits w : Nat) : State := placeWords (tableWords nbits w) s

end Sys2Proof.Machine
end

