-- ==== Sys2Proof/Safety.lean ====
section
/-! DEFINITION. What the statements speak of: the invariant of every reachable state, the conditions under which an
operation is accepted, the state a request starts in, and runs of several steps. -/

namespace Sys2Proof.Machine

/-! ## Runs -/

/-- `k` steps, stopping at the first fault or refusal. -/
def steps : Nat → State → Out
  | 0, s => .next s
  | k + 1, s =>
    match step s with
    | .next t => steps k t
    | .fault f => .fault f
    | .refused r => .refused r

/-! ## Conditions on a state -/

/-- The operation port accepts an operation (R40). -/
structure Accepts (s : State) : Prop where
  idle : s.phase = .idle
  noFault : s.fault = none

/-- Both timeouts are set, to `c` and `f` microseconds (R121). -/
structure Configured (s : State) (c f : Word32) : Prop where
  charTo : s.charTo = some c
  frameTo : s.frameTo = some f

/-- The next draw is an engine step at `n` of a block that is not stopped, in phase `p` (R131). -/
structure EngineAt (s : State) (p : Phase) (n : Nat) (es : List Event) : Prop where
  noFault : s.fault = none
  phase : s.phase = p
  next : s.schedule = .tick n :: es

/-- The state a draw at `n` is acted on in: the draw taken, the clock sampled. -/
def State.drawn (s : State) (n : Nat) (es : List Event) : State :=
  { s with schedule := es, now := n % 2 ^ s.params.clockBits }

/-- The time from a clock value `m` to a draw at `n`, as the block measures it: `(n - m) mod 2^CLOCK_BITS` (R15). -/
def State.between (s : State) (m n : Nat) : Nat :=
  (((n : Int) - (m : Int)) % ((2 ^ s.params.clockBits : Nat) : Int)).toNat

/-- `BUF[0..]` holds the bytes `d`, all of them below `BUF_CAP`. -/
structure Holds (s : State) (d : List Byte) : Prop where
  fits : d.length ≤ s.params.bufCap
  bytes : ∀ i, i < d.length → Cells.read s.buf i = d[i]?

/-- A byte below `n` in `BUF` is unset, and it is the first such one. -/
structure FirstUnset (s : State) (n i : Nat) : Prop where
  below : i < n
  unset : Cells.read s.buf i = none
  first : ∀ j, j < i → (Cells.read s.buf j).isSome

/-- `s` with the frame `f` sent (R123): `TXLOG` extended, `EXC` 0, `DE` driven true before the write and false
after the flush when `HAS_DE`. -/
def State.transmitted (s : State) (f : List Byte) : State :=
  { s with
    txlog := s.txlog ++ [f]
    exc := 0#8
    de := if s.params.hasDE then false else s.de
    portTrace := s.portTrace ++
      if s.params.hasDE then [.de true, .write f, .flush, .de false] else [.write f, .flush] }

/-! ## The invariant -/

/-- The faults the rules can raise; `BufferOverrun` and `UnsetRead` are unreachable (R46, R129, R205). -/
def BlockFault.reachable : BlockFault → Bool
  | .timingUnset _ => true
  | .bufferTooShort _ _ => true
  | .reentry _ => true
  | .bufferOverrun _ => false
  | .unsetRead _ => false

/-- A read's output buffer is bound and holds at least `qty` elements; a write has none to hold. -/
def outputFits (s : State) (r : ReqContext) : Prop :=
  match r.fc with
  | .readCoils | .readDiscreteInputs =>
    ∃ name bits, r.out = some name ∧ Cells.read s.bitBufs name = some bits ∧ r.qty.toNat ≤ bits.length
  | .readHoldingRegisters | .readInputRegisters =>
    ∃ name words, r.out = some name ∧ Cells.read s.wordBufs name = some words ∧ r.qty.toNat ≤ words.length
  | .writeSingleCoil | .writeSingleRegister | .writeMultipleCoils | .writeMultipleRegisters => True

/-- What every state a run reaches has. -/
structure Inv (s : State) : Prop where
  /-- `BUF_CAP ≥ 256` (R8). -/
  params : s.params.wf
  /-- `BUF` is in canonical form. -/
  bufWf : Memory.wf s.buf
  /-- Every byte of `BUF` lies below `BUF_CAP` (R13). -/
  bufBound : ∀ c ∈ s.buf, c.1 < s.params.bufCap
  /-- The host's buffers are in canonical form. -/
  bitsWf : Cells.wf s.bitBufs
  /-- The host's buffers are in canonical form. -/
  wordsWf : Cells.wf s.wordBufs
  /-- The Clock's value and `T_MARK` are `CLOCK_BITS`-bit counts (R39, R27). -/
  clock : s.now < 2 ^ s.params.clockBits ∧ ∀ m, s.tMark = some m → m < 2 ^ s.params.clockBits
  /-- The request frame fits (R81). -/
  txLen : s.txLen + 2 ≤ s.params.bufCap
  /-- `RX_LEN` never exceeds `BUF_CAP` (R28). -/
  rxLen : s.rxLen ≤ s.params.bufCap
  /-- The two timeouts are set together or unset together (R22). -/
  timeouts : s.charTo.isSome = s.frameTo.isSome
  /-- `DE` is true only inside TRANSMIT (R38), which is one step. -/
  de : s.de = false
  /-- `DONE` and `FAILED` are left in the step that reaches them (R41). -/
  notPresenting : s.phase ≠ .done ∧ s.phase ≠ .failed
  /-- No rule raises `BufferOverrun` or `UnsetRead` (R46, R129). -/
  fault : ∀ f, s.fault = some f → f.reachable = true
  /-- In an operation the registers its phases read are set, and its output buffer fits. -/
  inOperation : s.phase ≠ .idle →
    s.charTo.isSome ∧ s.frameTo.isSome ∧ s.tMark.isSome ∧ ∃ r, s.req = some r ∧ outputFits s r
  /-- Before and in TRANSMIT the request frame is in `BUF[0..TX_LEN+1]`. -/
  request : s.phase = .flushStale ∨ s.phase = .transmit → ∀ a, a < s.txLen + 2 → (Cells.read s.buf a).isSome
  /-- From the first byte on the received bytes are in `BUF[0..RX_LEN-1]`. -/
  received : s.phase = .rxBytes ∨ s.phase = .rxSilence ∨ s.phase = .validate ∨ s.phase = .parse →
    ∀ a, a < s.rxLen → (Cells.read s.buf a).isSome
  /-- PARSE is reached only with `L > 0` (R128). -/
  parsed : s.phase = .parse → 3 ≤ s.rxLen

/-! ## Starting and ending an operation -/

/-- `t` is `s` with the request `words` started: `BUF[0..]` holds them and their CRC, everything above as
before; `TX_LEN`, `REQ`, `T_MARK` and `PHASE` are written, and nothing else is (R150, R170, R120). -/
def RequestStarted (s t : State) (words : List Byte) (req : ReqContext) : Prop :=
  t = { s with
        buf := t.buf, txLen := words.length, req := some req, tMark := some s.now, phase := .flushStale } ∧
    ∀ a, Cells.read t.buf a = if a < words.length + 2 then (withCrc words)[a]? else Cells.read s.buf a

/-- `s` with an operation ended by `fail(k)` (R15, R209). -/
def State.failed (s : State) (k : ErrKind) : State :=
  { s with result := { ok := false, err := k, byte := none }, phase := .idle }

/-- `s` with an operation ended by `succeed` (R15). -/
def State.succeeded (s : State) : State :=
  { s with result := { ok := true, err := .none, byte := none }, phase := .idle }

/-- An argument that R201 rejects before any I/O: an id above 247, or 0 for a read; a quantity of 0 or above
the bound; an absent data buffer. -/
def BadArgument (s : State) : Instr → Prop
  | .readCoils id _ out qty | .readDiscreteInputs id _ out qty =>
    id.toNat = 0 ∨ 247 < id.toNat ∨ qty.toNat = 0 ∨ 2000 < qty.toNat ∨ bitBufLen s out = none
  | .readHoldingRegisters id _ out qty | .readInputRegisters id _ out qty =>
    id.toNat = 0 ∨ 247 < id.toNat ∨ qty.toNat = 0 ∨ 125 < qty.toNat ∨ wordBufLen s out = none
  | .writeSingleCoil id _ _ | .writeSingleRegister id _ _ => 247 < id.toNat
  | .writeMultipleCoils id _ data qty =>
    247 < id.toNat ∨ qty.toNat = 0 ∨ 1968 < qty.toNat ∨ data = none
  | .writeMultipleRegisters id _ data qty =>
    247 < id.toNat ∨ qty.toNat = 0 ∨ 123 < qty.toNat ∨ data = none
  | .exceptionResponse _ _ _ | .configure _ _ | .setResponseTimeout _ | .getExceptionCode | .crc16 _
  | .crcUpdate _ _ | .crcEncode _ | .crcValidate _ | .timingCalc _ _ | .transact => False

/-- The quantity and the length of a present data buffer that is shorter than it (R52). -/
def ShortBuffer (s : State) (qty length : Nat) : Instr → Prop
  | .readCoils _ _ out q | .readDiscreteInputs _ _ out q =>
    q.toNat = qty ∧ bitBufLen s out = some length ∧ length < qty
  | .readHoldingRegisters _ _ out q | .readInputRegisters _ _ out q =>
    q.toNat = qty ∧ wordBufLen s out = some length ∧ length < qty
  | .writeMultipleCoils _ _ data q => q.toNat = qty ∧ data.map List.length = some length ∧ length < qty
  | .writeMultipleRegisters _ _ data q => q.toNat = qty ∧ data.map List.length = some length ∧ length < qty
  | .writeSingleCoil _ _ _ | .writeSingleRegister _ _ _ | .exceptionResponse _ _ _ | .configure _ _
  | .setResponseTimeout _ | .getExceptionCode | .crc16 _ | .crcUpdate _ _ | .crcEncode _ | .crcValidate _
  | .timingCalc _ _ | .transact => False

/-- One of the eight operations that talk to a device (R73). -/
def isDeviceOp : Instr → Bool
  | .readCoils _ _ _ _ | .readDiscreteInputs _ _ _ _ | .readHoldingRegisters _ _ _ _
  | .readInputRegisters _ _ _ _ | .writeSingleCoil _ _ _ | .writeSingleRegister _ _ _
  | .writeMultipleCoils _ _ _ _ | .writeMultipleRegisters _ _ _ _ => true
  | .exceptionResponse _ _ _ | .configure _ _ | .setResponseTimeout _ | .getExceptionCode | .crc16 _
  | .crcUpdate _ _ | .crcEncode _ | .crcValidate _ | .timingCalc _ _ | .transact => false

/-! ## A whole exchange -/

/-- The draws of one exchange: the operation is issued at `now`, the line is silent for `FRAME_TO = f`, the
frame is sent by `t`, the reply's bytes arrive and are read one a step, the line is silent for
`CHAR_TO = c` and then for `FRAME_TO`, and two more engine steps judge the frame. -/
def exchange (i : Instr) (now t : Nat) (c f : Word32) (reply : List Byte) : List Event :=
  [.issue now (.byName i), .tick (now + f.toNat), .tick t] ++ reply.map .deliver ++ reply.map (fun _ => .tick t) ++
    [.tick (t + c.toNat), .tick (t + c.toNat + f.toNat), .tick (t + c.toNat + f.toNat), .tick (t + c.toNat + f.toNat)]

end Sys2Proof.Machine
end

