-- ==== Sys2Proof/Certificates/Slice0/Obligations.lean ====
section
/-! DEFINITION. The statements for the provers. Every next state below is written as the whole state, so each
statement is also the frame of what it speaks of: a field that is not named is as it was. -/

open Sys2Proof Sys2Proof.Machine

/-! ## Encoding -/

/-- The request words of the spec's vectors T10, T11, T40, T12, T5, T13, T14, T15 and the response words of T45 e
decode to the operations they stand for (R73, R76 to R80, R85). -/
def Obligations.DecodesTheSpecsWords : Prop :=
  decode (some 7) [0x11, 0x01, 0x00, 0x13, 0x00, 0x13] = .ok (.readCoils 0x11 0x0013 (some 7) 19, []) ∧
  decode (some 7) [0x11, 0x02, 0x00, 0xC4, 0x00, 0x16] = .ok (.readDiscreteInputs 0x11 0x00C4 (some 7) 22, []) ∧
  decode none [0x01, 0x03, 0x00, 0x6B, 0x00, 0x03] = .ok (.readHoldingRegisters 1 0x006B none 3, []) ∧
  decode none [0x01, 0x04, 0x00, 0x08, 0x00, 0x01] = .ok (.readInputRegisters 1 0x0008 none 1, []) ∧
  decode none [0x01, 0x05, 0x00, 0xAC, 0xFF, 0x00] = .ok (.writeSingleCoil 1 0x00AC true, []) ∧
  decode none [0x01, 0x05, 0x00, 0xAC, 0x00, 0x00] = .ok (.writeSingleCoil 1 0x00AC false, []) ∧
  decode none [0x11, 0x06, 0x00, 0x01, 0x00, 0x03] = .ok (.writeSingleRegister 0x11 0x0001 0x0003, []) ∧
  decode none [0x11, 0x0F, 0x00, 0x13, 0x00, 0x0A, 0x02, 0xCD, 0x01] =
    .ok (.writeMultipleCoils 0x11 0x0013
      (some [true, false, true, true, false, false, true, true, true, false]) 10, []) ∧
  decode none [0x11, 0x10, 0x00, 0x01, 0x00, 0x02, 0x04, 0x00, 0x0A, 0x01, 0x02] =
    .ok (.writeMultipleRegisters 0x11 0x0001 (some [0x000A, 0x0102]) 2, []) ∧
  decode none [0x01, 0x83, 0x02] = .ok (.exceptionResponse 1 0x03 0x02, [])

/-- Decoding the encoding of a well-formed operation gives the operation back, at every value of every operand,
whatever bytes follow. A multiple write comes back with the elements its words carry (R175, R176). -/
def Obligations.DecodeInvertsEncode : Prop :=
  ∀ (i : Instr) (words rest : List Byte), i.wf = true → encode i = some words →
    decode i.out (words ++ rest) = .ok (i.trimmed, rest)

/-- Bytes that decode to an operation are that operation's encoding and what is left over: no bit of the words is
ignored, and no two encodings share words. The spec decodes no request: that the decoder refuses another byte count,
padding bits other than 0 and another coil value, on which this rests, is the model's choice (log entry 27). -/
def Obligations.EncodeInvertsDecode : Prop :=
  ∀ (out : Option BufName) (bytes : List Byte) (i : Instr) (rest : List Byte), decode out bytes = .ok (i, rest) →
    ∃ words, encode i = some words ∧ bytes = words ++ rest

/-- A whole frame, CRC included, decodes to the operation it was built from (R70), and every other frame that decodes
to it is the same list of bytes, which rests on the decoder's refusals, the model's choice (log entry 27). -/
def Obligations.FrameRoundTrip : Prop :=
  (∀ (i : Instr) (frame : List Byte), i.wf = true → encodeFrame i = some frame →
    decodeFrame i.out frame = .ok i.trimmed) ∧
  (∀ (out : Option BufName) (i : Instr) (frame : List Byte), decodeFrame out frame = .ok i →
    encodeFrame i = some frame)

/-- Every request frame is at most 255 bytes, and so is every response that PARSE accepts: a step that ends PARSE
in success had `RX_LEN ≤ 255` (R81). -/
def Obligations.FramesFitTheBuffer : Prop :=
  (∀ (i : Instr) (frame : List Byte), i.wf = true → encodeFrame i = some frame → frame.length ≤ 255) ∧
  (∀ (s t : State) (n : Nat) (es : List Event) (r : ReqContext), EngineAt s .parse n es → s.req = some r →
    1 ≤ r.qty.toNat → r.qty.toNat ≤ qtyMax r.fc → step s = .next t → t.fault = none → t.result.ok = true →
    s.rxLen ≤ 255)

/-- `UNPACK` inverts `PACK_COILS` and `PACK_REGS`, and packing clears the bits above the last item (R57, R175,
R176). -/
def Obligations.UnpackInvertsPack : Prop :=
  (∀ (l : List Bool) (qty : Nat), qty ≤ l.length → unpackBits (packBits l qty) qty = l.take qty) ∧
  (∀ (l : List Bool) (qty i : Nat), qty ≤ i → i < 8 * byteCount .bit qty →
    ((packBits l qty).getD (i / 8) 0#8).getLsbD (i % 8) = false) ∧
  (∀ (l : List Word16) (qty : Nat), qty ≤ l.length → unpackRegs (packRegs l qty) qty = l.take qty)

/-! ## How a step comes to run an operation -/

/-- An operation at the port, by name or by its words, is run by the step that issues it: `step` is `exec` of it in
the state with the draw taken and the clock sampled (R40), where no fault is set; `StoppedBlockAcceptsNoOperation` says
what a step does where one is. That draws stand in a schedule and that the port takes
words as well as names are the model's choices (log entries 7 and 11). -/
def Obligations.StepRunsTheOperationIssued : Prop :=
  (∀ (s : State) (n : Nat) (i : Instr) (es : List Event),
    s.fault = none → s.schedule = .issue n (.byName i) :: es → i.op.atPort = true → step s = exec i (s.drawn n es)) ∧
  (∀ (s : State) (n : Nat) (out : Option BufName) (bytes rest : List Byte) (i : Instr) (es : List Event),
    s.fault = none → s.schedule = .issue n (.byWords out bytes) :: es → decode out bytes = .ok (i, rest) → i.op.atPort = true →
    step s = exec i (s.drawn n es))

/-- A received response whose function-code byte has bit 7 set decodes to EXCEPTION_RESPONSE, and the PARSE step
is `exec` of it (R134, R85). That the row is an operation with those three bytes as operands is the model's choice
(log entry 19). -/
def Obligations.StepRunsTheExceptionResponseReceived : Prop :=
  ∀ (s : State) (n : Nat) (es : List Event) (r : ReqContext) (b0 b1 b2 : Byte) (rest : List Byte) (i : Instr),
    EngineAt s .parse n es → s.req = some r → Holds s (b0 :: b1 :: b2 :: rest) → b1.msb = true →
    decode none [b0, b1, b2] = .ok (i, []) → step s = exec i (s.drawn n es)

/-- A word of the opcode table's numbering, placed by `withFetchWord`, is run by the very next step, in the state
it was placed in: idle and not stopped, or, for the response row, in PARSE with the response's bytes in
`BUF[0..2]`. The placing is the model's choice (log entries 12, 18 and 19). The clock's value is in its range, as the
invariant says. -/
def Obligations.TableWordRunsOnTheNextStep : Prop :=
  ∀ (s : State) (nbits w : Nat) (i : Instr), s.params.wf →
    s.now < 2 ^ s.params.clockBits → decodeTableWord nbits w = some i →
    (i.op.atPort = true ∧ step (s.withFetchWord nbits w) = exec i { s with fault := none, phase := .idle }) ∨
    (∃ id fc code req, i = .exceptionResponse id fc code ∧ (∀ r, s.req = some r → req = r) ∧
      step (s.withFetchWord nbits w) =
        exec i { s with
          fault := none, phase := .parse, rxLen := 5, req := some req,
          buf := Cells.writeList s.buf 0 [id, exceptionFcOf fc, code] })

/-! ## The Frame Codec -/

/-- CRC16 and CRC_UPDATE run in every state that is not stopped, hand back their value and change nothing else.
CRC_UPDATE is eight steps from the CRC with the byte XORed into its low half, each: test bit 0, shift right,
conditionally XOR 0xA001. CRC16 is its fold from 0xFFFF, with no final XOR (R100, R101; the fold is a sentence that
R101 marks as derived). That the two run by themselves, and in any phase, and hand their value back in `retval` is the
model's choice (log entries 15 and 20). -/
def Obligations.CrcIsTheModbusCrc : Prop :=
  (∀ (c : Word16) (b : Byte), Sys2Proof.Machine.crcUpdate c b =
    Nat.iterate (fun x : Word16 => if x.getLsbD 0 then (x >>> 1) ^^^ 0xA001#16 else x >>> 1) 8
      (c ^^^ b.setWidth 16)) ∧
  (∀ d : List Byte, Sys2Proof.Machine.crc16 d = d.foldl Sys2Proof.Machine.crcUpdate 0xFFFF#16) ∧
  (∀ (s : State) (c : Word16) (b : Byte), s.fault = none →
    exec (.crcUpdate c b) s = .next { s with retval := .crc (Sys2Proof.Machine.crcUpdate c b) }) ∧
  (∀ (s : State) (d : List Byte), s.fault = none →
    exec (.crc16 d) s = .next { s with retval := .crc (Sys2Proof.Machine.crc16 d) })

/-- CRC_ENCODE: where the CRC fits and the `n` bytes are set, `BUF[n]` and `BUF[n+1]` become its low and high byte
and every other byte and register is unchanged; where it does not fit, `BufferOverrun(n)`; where a byte is unset,
`UnsetRead` of the first such one (R102). That it runs by itself, and in any phase, is the model's choice (log entry
20), and that the byte named is the first unset one is read from R16 (log entry 23, DEDUCED). -/
def Obligations.CrcEncodeAppendsTheCrc : Prop :=
  (∀ (s : State) (d : List Byte), s.fault = none → Holds s d → d.length + 2 ≤ s.params.bufCap →
    ∃ buf, exec (.crcEncode d.length) s = .next { s with buf := buf } ∧
      ∀ a, Cells.read buf a =
        if a = d.length then some (lo (crc16 d))
        else if a = d.length + 1 then some (hi (crc16 d))
        else Cells.read s.buf a) ∧
  (∀ (s : State) (n : Nat), s.fault = none → s.params.bufCap < n + 2 →
    exec (.crcEncode n) s = .next { s with fault := some (.bufferOverrun n) }) ∧
  (∀ (s : State) (n i : Nat), s.fault = none → n + 2 ≤ s.params.bufCap → FirstUnset s n i →
    exec (.crcEncode n) s = .next { s with fault := some (.unsetRead (.buf i)) })

/-- CRC_VALIDATE: false below 2 bytes; else whether the last two of the bytes are the CRC of those before them, low
byte first. It writes nothing but the value it hands back (R103). Where one of the bytes is unset it raises
`UnsetRead` of the first such one, and past `BUF_CAP` it raises `BufferOverrun` (R13, R20, R46, R205; that the index is
the first that cannot be read is DEDUCED, log entry 23, and that `BUF[m-1]` is read whatever `BUF[m-2]` holds is the
model's choice, log entry 28). That it runs by itself, and in any phase, with its answer in
`retval` is the model's choice (log entries 15 and 20). -/
def Obligations.CrcValidateComparesTheCrc : Prop :=
  (∀ (s : State) (m : Nat), s.fault = none → m < 2 →
    exec (.crcValidate m) s = .next { s with retval := .valid false }) ∧
  (∀ (s : State) (d : List Byte) (l h : Byte), s.fault = none → Holds s (d ++ [l, h]) →
    exec (.crcValidate (d.length + 2)) s =
      .next { s with retval := .valid (decide (l = lo (crc16 d) ∧ h = hi (crc16 d))) }) ∧
  (∀ (s : State) (m i : Nat), s.fault = none → 2 ≤ m → m ≤ s.params.bufCap → FirstUnset s m i →
    exec (.crcValidate m) s = .next { s with fault := some (.unsetRead (.buf i)) }) ∧
  (∀ (s : State) (d : List Byte) (m : Nat), s.fault = none → 2 ≤ m → s.params.bufCap < m → Holds s d →
    d.length = s.params.bufCap →
    exec (.crcValidate m) s = .next { s with fault := some (.bufferOverrun s.params.bufCap) })

/-- The residue: the CRC over a frame is 0 exactly when the frame's last two bytes are the CRC of those before
them, and so CRC_VALIDATE of `m` bytes is true exactly when `m ≥ 2` and the CRC over all of them is 0. R104 marks this
as its own inference, from R100 and R103. That CRC_VALIDATE runs by itself, and in any phase, with its answer in `retval`
is the model's choice (log entries 15 and 20). -/
def Obligations.CrcResidueIsZero : Prop :=
  (∀ (d : List Byte) (l h : Byte), crc16 (d ++ [l, h]) = 0x0000#16 ↔ l = lo (crc16 d) ∧ h = hi (crc16 d)) ∧
  (∀ (s : State) (d : List Byte), s.fault = none → Holds s d →
    exec (.crcValidate d.length) s =
      .next { s with retval := .valid (decide (2 ≤ d.length ∧ crc16 d = 0x0000#16)) })

/-- After CRC_ENCODE(n), CRC_VALIDATE(n + 2) is true; with exactly one bit of `BUF[0..n+1]` inverted it is false
(R105, which marks its wording in terms of the two operations as derived). That both run by themselves, and in any phase,
with the answer in `retval` is the model's choice (log entries 15 and 20). -/
def Obligations.CrcRoundTripAndSingleBitErrors : Prop :=
  ∀ (s : State) (d : List Byte), s.fault = none → Holds s d → d.length + 2 ≤ s.params.bufCap →
    ∃ t, exec (.crcEncode d.length) s = .next t ∧
      exec (.crcValidate (d.length + 2)) t = .next { t with retval := .valid true } ∧
      ∀ (k bit : Nat) (b : Byte), k < d.length + 2 → bit < 8 → Cells.read t.buf k = some b →
        exec (.crcValidate (d.length + 2)) { t with buf := Cells.write t.buf k (b ^^^ (1#8 <<< bit)) } =
          .next { t with buf := Cells.write t.buf k (b ^^^ (1#8 <<< bit)), retval := .valid false }

/-! ## The Timing Calculator -/

/-- TIMING_CALC, for every `BITS_TABLE` the parameter may be: unset without an entry or at baud 0; 750 and 1750 above
19200; else the floors of `15·B·100000 / baud` and `35·B·100000 / baud`. It changes nothing but the value it hands back
(R110, R112 to R114). The table of the reset state is R111's: 10 bits for 8N1, 11 for 8E1, 8O1 and 8N2, no other entry.
The table's form as a list is the model's choice (log entry 6), and so is that the operation runs by itself, and in any
phase, with its value in `retval` (log entries 15 and 20). -/
def Obligations.TimingCalcFollowsTheTable : Prop :=
  (∀ (s : State) (baud : Word32) (fmt : SerialFormat), s.fault = none →
    exec (.timingCalc baud fmt) s = .next { s with retval := .timing (timingCalc s.params.bitsTable baud fmt) }) ∧
  (∀ (table : BitsTable) (baud : Word32) (fmt : SerialFormat) (B : Nat), bitsPerChar table fmt = some B →
    (baud.toNat = 0 → timingCalc table baud fmt = none) ∧
    (19200 < baud.toNat → timingCalc table baud fmt = some (750#32, 1750#32)) ∧
    (1 ≤ baud.toNat → baud.toNat ≤ 19200 → ∃ c f : Word32, timingCalc table baud fmt = some (c, f) ∧
      c.toNat = 15 * B * 100000 / baud.toNat ∧ f.toNat = 35 * B * 100000 / baud.toNat)) ∧
  (∀ (table : BitsTable) (baud : Word32) (fmt : SerialFormat), bitsPerChar table fmt = none →
    timingCalc table baud fmt = none) ∧
  (∀ fmt : SerialFormat, bitsPerChar State.reset.params.bitsTable fmt =
    if fmt = ⟨.eight, .none, .one⟩ then some 10
    else if fmt = ⟨.eight, .even, .one⟩ ∨ fmt = ⟨.eight, .odd, .one⟩ ∨ fmt = ⟨.eight, .none, .two⟩ then some 11
    else none)

/-- Where the calculator gives timeouts for a format of at least 10 bits per character, `FRAME_TO` is at least 1750 and
`CHAR_TO` at least 750 and below it, so no window it sets is 0 (R122's corner case). Every format of the reset state's
table has at least 10. -/
def Obligations.ComputedTimeoutsAreNeverZero : Prop :=
  (∀ (table : BitsTable) (baud : Word32) (fmt : SerialFormat) (B : Nat) (c f : Word32),
    bitsPerChar table fmt = some B → 10 ≤ B → timingCalc table baud fmt = some (c, f) →
    750 ≤ c.toNat ∧ 1750 ≤ f.toNat ∧ c.toNat < f.toNat) ∧
  (∀ (fmt : SerialFormat) (B : Nat), bitsPerChar State.reset.params.bitsTable fmt = some B → 10 ≤ B)

/-! ## The host-only operations -/

/-- CONFIGURE sets both timeouts to the calculator's result, or unsets both, and succeeds; it writes nothing else
(R190). -/
def Obligations.ConfigureSetsTheTimeouts : Prop :=
  ∀ (s : State) (baud : Word32) (fmt : SerialFormat), Accepts s →
    exec (.configure baud fmt) s =
      .next { s with
        charTo := (timingCalc s.params.bitsTable baud fmt).map Prod.fst
        frameTo := (timingCalc s.params.bitsTable baud fmt).map Prod.snd
        result := { ok := true, err := .none, byte := none } }

/-- SET_RESPONSE_TIMEOUT sets `RESP_TO`, every value being legal, and succeeds; it writes nothing else (R191). -/
def Obligations.SetResponseTimeoutSetsRespTo : Prop :=
  ∀ (s : State) (w : Word32), Accepts s →
    exec (.setResponseTimeout w) s =
      .next { s with respTo := w, result := { ok := true, err := .none, byte := none } }

/-- GET_EXCEPTION_CODE presents `EXC`, changes nothing but `RESULT`, and succeeds (R192). -/
def Obligations.GetExceptionCodeReadsExc : Prop :=
  ∀ (s : State), Accepts s →
    exec .getExceptionCode s = .next { s with result := { ok := true, err := .none, byte := some s.exc } }

/-- An operation issued while `PHASE ≠ IDLE` raises `Reentry` with its own name and changes nothing else (R40). -/
def Obligations.OperationInProgressRaisesReentry : Prop :=
  ∀ (s : State) (i : Instr), i.op.atPort = true → s.fault = none → s.phase ≠ .idle →
    exec i s = .next { s with fault := some (.reentry i.op) }

/-! ## Starting a device operation -/

/-- A read that passes its checks writes the request of R76 and its CRC, `TX_LEN`, `REQ`, `T_MARK` and `PHASE`, and
nothing else (R76, R150, R120): for each of the four codes. -/
def Obligations.ReadStartsItsRequest : Prop :=
  ∀ (s : State) (c f : Word32) (id : Byte) (addr qty : Word16) (name : BufName),
    Accepts s → Configured s c f → s.params.wf → 1 ≤ id.toNat → id.toNat ≤ 247 → 1 ≤ qty.toNat →
    (∀ bits, Cells.read s.bitBufs name = some bits → qty.toNat ≤ bits.length → qty.toNat ≤ 2000 →
      (∃ t, exec (.readCoils id addr (some name) qty) s = .next t ∧
        RequestStarted s t [id, 0x01#8, hi addr, lo addr, hi qty, lo qty]
          { id := id, fc := .readCoils, addr := addr, qty := qty, val := 0#16, expect := true,
            out := some name }) ∧
      (∃ t, exec (.readDiscreteInputs id addr (some name) qty) s = .next t ∧
        RequestStarted s t [id, 0x02#8, hi addr, lo addr, hi qty, lo qty]
          { id := id, fc := .readDiscreteInputs, addr := addr, qty := qty, val := 0#16, expect := true,
            out := some name })) ∧
    (∀ words, Cells.read s.wordBufs name = some words → qty.toNat ≤ words.length → qty.toNat ≤ 125 →
      (∃ t, exec (.readHoldingRegisters id addr (some name) qty) s = .next t ∧
        RequestStarted s t [id, 0x03#8, hi addr, lo addr, hi qty, lo qty]
          { id := id, fc := .readHoldingRegisters, addr := addr, qty := qty, val := 0#16, expect := true,
            out := some name }) ∧
      (∃ t, exec (.readInputRegisters id addr (some name) qty) s = .next t ∧
        RequestStarted s t [id, 0x04#8, hi addr, lo addr, hi qty, lo qty]
          { id := id, fc := .readInputRegisters, addr := addr, qty := qty, val := 0#16, expect := true,
            out := some name }))

/-- A single write with an id of at most 247 (0 is the broadcast) writes the request of R77 or R78 and its CRC,
`TX_LEN`, `REQ`, `T_MARK` and `PHASE`, and nothing else (R77, R78, R171, R172). `REQ.val` is the value field sent,
`REQ.qty` is 1, and `REQ.expect` is false exactly for id 0. -/
def Obligations.SingleWriteStartsItsRequest : Prop :=
  ∀ (s : State) (c f : Word32) (id : Byte) (addr value : Word16) (on : Bool),
    Accepts s → Configured s c f → s.params.wf → id.toNat ≤ 247 →
    (∃ t, exec (.writeSingleCoil id addr on) s = .next t ∧
      RequestStarted s t [id, 0x05#8, hi addr, lo addr, if on then 0xFF#8 else 0x00#8, 0x00#8]
        { id := id, fc := .writeSingleCoil, addr := addr, qty := 1#16,
          val := if on then 0xFF00#16 else 0x0000#16, expect := decide (id ≠ 0#8), out := none }) ∧
    (∃ t, exec (.writeSingleRegister id addr value) s = .next t ∧
      RequestStarted s t [id, 0x06#8, hi addr, lo addr, hi value, lo value]
        { id := id, fc := .writeSingleRegister, addr := addr, qty := 1#16, val := value,
          expect := decide (id ≠ 0#8), out := none })

/-- WRITE_MULTIPLE_COILS that passes its checks writes the request of R79: the header, the byte count
`bc = ⌈qty/8⌉`, then `bc` data bytes; bit k of data byte j is coil 8j + k, and 0 where 8j + k ≥ qty (R79,
R175). -/
def Obligations.MultipleCoilsWriteStartsItsRequest : Prop :=
  ∀ (s : State) (c f : Word32) (id : Byte) (addr qty : Word16) (l : List Bool),
    Accepts s → Configured s c f → s.params.wf → id.toNat ≤ 247 → 1 ≤ qty.toNat → qty.toNat ≤ 1968 →
    qty.toNat ≤ l.length →
    ∃ t data, exec (.writeMultipleCoils id addr (some l) qty) s = .next t ∧
      RequestStarted s t
        ([id, 0x0F#8, hi addr, lo addr, hi qty, lo qty, BitVec.ofNat 8 ((qty.toNat + 7) / 8)] ++ data)
        { id := id, fc := .writeMultipleCoils, addr := addr, qty := qty, val := 0#16,
          expect := decide (id ≠ 0#8), out := none } ∧
      data.length = (qty.toNat + 7) / 8 ∧
      ∀ j k, j < data.length → k < 8 →
        ∃ b, data[j]? = some b ∧ b.getLsbD k = if 8 * j + k < qty.toNat then l.getD (8 * j + k) false else false

/-- WRITE_MULTIPLE_REGISTERS that passes its checks writes the request of R80: the header, the byte count `2·qty`,
then each register's high and low byte (R80, R176). -/
def Obligations.MultipleRegistersWriteStartsItsRequest : Prop :=
  ∀ (s : State) (c f : Word32) (id : Byte) (addr qty : Word16) (l : List Word16),
    Accepts s → Configured s c f → s.params.wf → id.toNat ≤ 247 → 1 ≤ qty.toNat → qty.toNat ≤ 123 →
    qty.toNat ≤ l.length →
    ∃ t data, exec (.writeMultipleRegisters id addr (some l) qty) s = .next t ∧
      RequestStarted s t
        ([id, 0x10#8, hi addr, lo addr, hi qty, lo qty, BitVec.ofNat 8 (2 * qty.toNat)] ++ data)
        { id := id, fc := .writeMultipleRegisters, addr := addr, qty := qty, val := 0#16,
          expect := decide (id ≠ 0#8), out := none } ∧
      data.length = 2 * qty.toNat ∧
      ∀ k, k < qty.toNat → ∃ v, l[k]? = some v ∧ data[2 * k]? = some (hi v) ∧ data[2 * k + 1]? = some (lo v)

/-- A bad argument ends the operation in the step it is issued in, with `InvalidArgument`: nothing but `RESULT` is
changed, so nothing is sent, `RXQ` is not read, and `EXC`, `BUF`, `TX_LEN`, `RX_LEN` and `REQ` keep their values
(R201). That a read whose operand names an unbound buffer has an absent one is the model's choice (log entry 13). -/
def Obligations.BadArgumentFailsBeforeAnyIO : Prop :=
  ∀ (s : State) (i : Instr), Accepts s → BadArgument s i → exec i s = .next (s.failed .invalidArgument)

/-- A present data buffer shorter than the quantity, in an operation whose other arguments are in range, raises
`BufferTooShort` with the quantity and the length, and changes nothing else (R52). -/
def Obligations.ShortBufferRaisesBufferTooShort : Prop :=
  ∀ (s : State) (i : Instr) (qty length : Nat), Accepts s → ¬ BadArgument s i → ShortBuffer s qty length i →
    exec i s = .next { s with fault := some (.bufferTooShort qty length) }

/-- A device operation that passes its checks while a timeout is unset raises `TimingUnset` with its own name.
`BUF[0..TX_LEN-1]` holds the request built and `BUF` is unchanged above it, `REQ` is written, and nothing else is:
nothing is sent (R121). -/
def Obligations.UnsetTimeoutsRaiseTimingUnset : Prop :=
  ∀ (s : State) (i : Instr) (words : List Byte), Accepts s → s.params.wf → isDeviceOp i = true →
    encode i = some words → ¬ BadArgument s i → (∀ qty length, ¬ ShortBuffer s qty length i) →
    s.charTo = none ∨ s.frameTo = none →
    ∃ buf req, exec i s =
        .next { s with
          buf := buf, txLen := words.length, req := some req, fault := some (.timingUnset i.op) } ∧
      ∀ a, Cells.read buf a = if a < words.length then words[a]? else Cells.read s.buf a

/-- TRANSACT with both timeouts set and the request's bytes in `BUF[0..TX_LEN-1]` appends the CRC, marks the time
and enters FLUSH_STALE. With a timeout unset it raises `TimingUnset`, where the CRC does not fit `BufferOverrun`,
where a byte is unset `UnsetRead` of the first such one, and changes nothing else (R120, R102). Nothing is said of
the name a `TimingUnset` records when TRANSACT is run by itself, which is the model's choice (log entry 21); so is that
it runs by itself, and in any phase (log entry 20). That the byte named is the first unset one is DEDUCED (log entry
23). -/
def Obligations.TransactEntersFlushStale : Prop :=
  (∀ (s : State) (c f : Word32) (d : List Byte), s.fault = none → Configured s c f → Holds s d →
    s.txLen = d.length → d.length + 2 ≤ s.params.bufCap →
    ∃ buf, exec .transact s = .next { s with buf := buf, tMark := some s.now, phase := .flushStale } ∧
      ∀ a, Cells.read buf a = if a < d.length + 2 then (withCrc d)[a]? else Cells.read s.buf a) ∧
  (∀ (s : State), s.fault = none → s.charTo = none ∨ s.frameTo = none →
    ∃ op, exec .transact s = .next { s with fault := some (.timingUnset op) }) ∧
  (∀ (s : State) (c f : Word32), s.fault = none → Configured s c f → s.params.bufCap < s.txLen + 2 →
    exec .transact s = .next { s with fault := some (.bufferOverrun s.txLen) }) ∧
  (∀ (s : State) (c f : Word32) (i : Nat), s.fault = none → Configured s c f → s.txLen + 2 ≤ s.params.bufCap →
    FirstUnset s s.txLen i →
    exec .transact s = .next { s with fault := some (.unsetRead (.buf i)) })

/-- Issuing an operation does no I/O: whatever it answers, `EXC`, `RXQ`, `TXLOG`, `DE`, the clock, the host's
buffers, the parameters and the draws are as before (R24, R150, R170). -/
def Obligations.IssuingDoesNoIO : Prop :=
  ∀ (s t : State) (i : Instr), i.op.atPort = true → exec i s = .next t →
    t.exc = s.exc ∧ t.rxq = s.rxq ∧ t.txlog = s.txlog ∧ t.de = s.de ∧ t.portTrace = s.portTrace ∧
    t.now = s.now ∧ t.bitBufs = s.bitBufs ∧ t.wordBufs = s.wordBufs ∧ t.params = s.params ∧
    t.schedule = s.schedule ∧ t.rxLen = s.rxLen

/-! ## The engine's phases -/

/-- FLUSH_STALE: a byte available is discarded and the window restarts; with none, the phase ends once `FRAME_TO`
has passed since `T_MARK`, and stays otherwise (R122). -/
def Obligations.FlushStaleDiscardsUntilSilence : Prop :=
  ∀ (s : State) (n : Nat) (es : List Event), EngineAt s .flushStale n es →
    (∀ b q, s.rxq = b :: q → step s = .next { s.drawn n es with rxq := q, tMark := some (s.clockAt n) }) ∧
    (∀ m w, s.rxq = [] → s.tMark = some m → s.frameTo = some w →
      (w.toNat ≤ s.between m n → step s = .next { s.drawn n es with phase := .transmit }) ∧
      (s.between m n < w.toNat → step s = .next (s.drawn n es)))

/-- TRANSMIT sends `BUF[0..TX_LEN+1]` as one frame with `DE` true around the write and the flush, and sets `EXC` to
0. A request that expects a response goes on to RX_WAIT with `RX_LEN = 0` and the time marked (R123). The draw's clock
value is the one after the flush, and `portTrace` is the model's record (log entries 8 and 16). -/
def Obligations.TransmitSendsTheFrame : Prop :=
  ∀ (s : State) (n : Nat) (es : List Event) (f : List Byte) (r : ReqContext), EngineAt s .transmit n es →
    Holds s f → f.length = s.txLen + 2 → s.req = some r → r.expect = true →
    step s = .next { (s.drawn n es).transmitted f with rxLen := 0, tMark := some (s.clockAt n), phase := .rxWait }

/-- A broadcast is sent like any other request and ends in TRANSMIT with success: `T_MARK` and `RX_LEN` keep their
values and nothing is received (R124). `portTrace` is the model's record (log entry 16). -/
def Obligations.BroadcastEndsInTransmit : Prop :=
  ∀ (s : State) (n : Nat) (es : List Event) (f : List Byte) (r : ReqContext), EngineAt s .transmit n es →
    Holds s f → f.length = s.txLen + 2 → s.req = some r → r.expect = false →
    step s = .next ((s.drawn n es).transmitted f).succeeded

/-- RX_WAIT: a byte available is stored at `BUF[0]` and the phase moves on; with none, the operation fails with
`CommunicationTimeout` once `RESP_TO` has passed, and stays otherwise (R125). -/
def Obligations.RxWaitAwaitsTheFirstByte : Prop :=
  ∀ (s : State) (n : Nat) (es : List Event), s.params.wf → EngineAt s .rxWait n es →
    (∀ b q, s.rxq = b :: q →
      step s = .next { s.drawn n es with
        rxq := q, buf := Cells.write s.buf 0 b, rxLen := 1, tMark := some (s.clockAt n), phase := .rxBytes }) ∧
    (∀ m, s.rxq = [] → s.tMark = some m →
      (s.respTo.toNat ≤ s.between m n → step s = .next ((s.drawn n es).failed .communicationTimeout)) ∧
      (s.between m n < s.respTo.toNat → step s = .next (s.drawn n es)))

/-- RX_BYTES: a full buffer ends the phase; else a byte available is stored at `BUF[RX_LEN]`, however late the step;
else the phase ends once `CHAR_TO` has passed since the last byte, and stays otherwise (R126). -/
def Obligations.RxBytesStoresUntilAGap : Prop :=
  ∀ (s : State) (n : Nat) (es : List Event), EngineAt s .rxBytes n es →
    (s.rxLen = s.params.bufCap →
      step s = .next { s.drawn n es with tMark := some (s.clockAt n), phase := .rxSilence }) ∧
    (∀ b q, s.rxLen < s.params.bufCap → s.rxq = b :: q →
      step s = .next { s.drawn n es with
        rxq := q, buf := Cells.write s.buf s.rxLen b, rxLen := s.rxLen + 1, tMark := some (s.clockAt n) }) ∧
    (∀ m w, s.rxLen < s.params.bufCap → s.rxq = [] → s.tMark = some m → s.charTo = some w →
      (w.toNat ≤ s.between m n →
        step s = .next { s.drawn n es with tMark := some (s.clockAt n), phase := .rxSilence }) ∧
      (s.between m n < w.toNat → step s = .next (s.drawn n es)))

/-- RX_SILENCE: the phase ends once `FRAME_TO` has passed since RX_BYTES ended; `RXQ` is not touched, whatever
arrives (R127). -/
def Obligations.RxSilenceWaitsFrameTo : Prop :=
  ∀ (s : State) (n m : Nat) (w : Word32) (es : List Event), EngineAt s .rxSilence n es → s.tMark = some m →
    s.frameTo = some w →
    (w.toNat ≤ s.between m n → step s = .next { s.drawn n es with phase := .validate }) ∧
    (s.between m n < w.toNat → step s = .next (s.drawn n es))

/-- VALIDATE: bytes still arriving fail with `CommunicationTimeout`; fewer than 3 bytes, or a CRC that does not
match, fail with `FrameIntegrityError`; else the frame goes to PARSE (R128). -/
def Obligations.ValidateJudgesTheFrame : Prop :=
  ∀ (s : State) (n : Nat) (es : List Event), EngineAt s .validate n es →
    (s.rxq ≠ [] → step s = .next ((s.drawn n es).failed .communicationTimeout)) ∧
    (s.rxq = [] → s.rxLen < 3 → step s = .next ((s.drawn n es).failed .frameIntegrityError)) ∧
    (∀ d l h, s.rxq = [] → 3 ≤ s.rxLen → Holds s (d ++ [l, h]) → s.rxLen = d.length + 2 →
      step s = .next
        (if l = lo (crc16 d) ∧ h = hi (crc16 d) then { s.drawn n es with phase := .parse }
         else (s.drawn n es).failed .frameIntegrityError))

/-! ## PARSE -/

/-- PARSE_HEADER: the address byte (where it is checked), then an exception response (`L = 3` captures the byte
after the function code), then the function code; a normal response goes on to its function code's own checks
(R134). -/
def Obligations.ParseHeaderChecksTheResponse : Prop :=
  ∀ (s : State) (n : Nat) (es : List Event) (r : ReqContext) (b0 b1 b2 : Byte) (rest : List Byte),
    EngineAt s .parse n es → s.req = some r → Holds s (b0 :: b1 :: b2 :: rest) →
    (s.params.checkResponseId = true ∧ b0 ≠ r.id →
      step s = .next ((s.drawn n es).failed .protocolMismatch)) ∧
    (¬ (s.params.checkResponseId = true ∧ b0 ≠ r.id) →
      (b1 = fcByte r.fc ||| 0x80#8 → s.rxLen - 2 = 3 →
        step s = .next ({ s.drawn n es with exc := b2 }.failed .deviceException)) ∧
      (b1 = fcByte r.fc ||| 0x80#8 → s.rxLen - 2 ≠ 3 →
        step s = .next ((s.drawn n es).failed .frameIntegrityError)) ∧
      (b1 ≠ fcByte r.fc ||| 0x80#8 → b1 ≠ fcByte r.fc →
        step s = .next ((s.drawn n es).failed .protocolMismatch)) ∧
      (b1 = fcByte r.fc → step s = finishResponse r (s.drawn n es)))

/-- EXCEPTION_RESPONSE to a request in `REQ`: with the address accepted, the request's function code and `L = 3`, it
sets `EXC` to its byte, verbatim, and fails the operation; with another length it is a frame integrity error; an
address that is not accepted or another function code is a protocol mismatch. Nothing else changes (R85, R206). That
the row is an operation of its own is the model's choice (log entry 19). -/
def Obligations.ExceptionResponseSetsExc : Prop :=
  ∀ (s : State) (r : ReqContext) (id code : Byte) (fc : BitVec 7), s.fault = none → s.req = some r →
    exec (.exceptionResponse id fc code) s = .next
      (if s.params.checkResponseId = true ∧ id ≠ r.id then s.failed .protocolMismatch
       else if fc = (fcByte r.fc).setWidth 7 then
         if s.rxLen - 2 = 3 then { s with exc := code }.failed .deviceException
         else s.failed .frameIntegrityError
       else s.failed .protocolMismatch)

/-- The end of a read of bits. A length other than `3 + bc` or a byte count other than `bc` fails with
`FrameIntegrityError` and writes no buffer. Else item i of the output buffer, for `i < qty`, is bit `i mod 8` of
`BUF[3 + i div 8]`; its other items, its length and every other buffer are as before (R155, R156). `d` is all that
follows the byte count in `BUF[0..RX_LEN-1]`, the CRC's two bytes included. -/
def Obligations.ReadOfBitsUnpacksTheResponse : Prop :=
  ∀ (s : State) (n : Nat) (es : List Event) (r : ReqContext) (id bc : Byte) (d : List Byte) (name : BufName)
    (old : List Bool),
    EngineAt s .parse n es → s.req = some r → r.fc = .readCoils ∨ r.fc = .readDiscreteInputs →
    (s.params.checkResponseId = true → id = r.id) → r.out = some name →
    Cells.read s.bitBufs name = some old → r.qty.toNat ≤ old.length →
    Holds s ([id, fcByte r.fc, bc] ++ d) → d.length + 3 = s.rxLen →
    (s.rxLen - 2 ≠ 3 + (r.qty.toNat + 7) / 8 →
      step s = .next ((s.drawn n es).failed .frameIntegrityError)) ∧
    (s.rxLen - 2 = 3 + (r.qty.toNat + 7) / 8 → bc.toNat ≠ (r.qty.toNat + 7) / 8 →
      step s = .next ((s.drawn n es).failed .frameIntegrityError)) ∧
    (s.rxLen - 2 = 3 + (r.qty.toNat + 7) / 8 → bc.toNat = (r.qty.toNat + 7) / 8 →
      ∃ bufs new, step s = .next ({ s.drawn n es with bitBufs := bufs }.succeeded) ∧
        Cells.read bufs name = some new ∧ new.length = old.length ∧
        (∀ i, i < r.qty.toNat → new[i]? = some ((d.getD (i >>> 3) 0#8).getLsbD (i &&& 7))) ∧
        (∀ i, r.qty.toNat ≤ i → new[i]? = old[i]?) ∧
        ∀ other, other ≠ name → Cells.read bufs other = Cells.read s.bitBufs other)

/-- The end of a read of registers. A length other than `3 + bc` or a byte count other than `bc` fails with
`FrameIntegrityError` and writes no buffer. Else register k of the output buffer, for `k < qty`, is
`BUF[3 + 2k] ‖ BUF[4 + 2k]`; its other items, its length and every other buffer are as before (R155, R157). `d` is
all that follows the byte count in `BUF[0..RX_LEN-1]`, the CRC's two bytes included. -/
def Obligations.ReadOfRegistersUnpacksTheResponse : Prop :=
  ∀ (s : State) (n : Nat) (es : List Event) (r : ReqContext) (id bc : Byte) (d : List Byte) (name : BufName)
    (old : List Word16),
    EngineAt s .parse n es → s.req = some r → r.fc = .readHoldingRegisters ∨ r.fc = .readInputRegisters →
    (s.params.checkResponseId = true → id = r.id) → r.out = some name →
    Cells.read s.wordBufs name = some old → r.qty.toNat ≤ old.length →
    Holds s ([id, fcByte r.fc, bc] ++ d) → d.length + 3 = s.rxLen →
    (s.rxLen - 2 ≠ 3 + 2 * r.qty.toNat →
      step s = .next ((s.drawn n es).failed .frameIntegrityError)) ∧
    (s.rxLen - 2 = 3 + 2 * r.qty.toNat → bc.toNat ≠ 2 * r.qty.toNat →
      step s = .next ((s.drawn n es).failed .frameIntegrityError)) ∧
    (s.rxLen - 2 = 3 + 2 * r.qty.toNat → bc.toNat = 2 * r.qty.toNat →
      ∃ bufs new, step s = .next ({ s.drawn n es with wordBufs := bufs }.succeeded) ∧
        Cells.read bufs name = some new ∧ new.length = old.length ∧
        (∀ k, k < r.qty.toNat → new[k]? = some (join (d.getD (2 * k) 0#8) (d.getD (2 * k + 1) 0#8))) ∧
        (∀ k, r.qty.toNat ≤ k → new[k]? = old[k]?) ∧
        ∀ other, other ≠ name → Cells.read bufs other = Cells.read s.wordBufs other)

/-- The end of a write: a length other than 6 fails with `FrameIntegrityError`; an echoed address other than
`REQ.addr`, or an echoed value (codes 5 and 6) or quantity (codes 15 and 16) other than the one sent, with
`ProtocolMismatch`; else the write succeeds (R177, R178). -/
def Obligations.WriteEchoIsChecked : Prop :=
  ∀ (s : State) (n : Nat) (es : List Event) (r : ReqContext) (id a1 a0 v1 v0 : Byte) (rest : List Byte)
    (sent : Word16),
    EngineAt s .parse n es → s.req = some r →
    ((r.fc = .writeSingleCoil ∨ r.fc = .writeSingleRegister) ∧ sent = r.val) ∨
      ((r.fc = .writeMultipleCoils ∨ r.fc = .writeMultipleRegisters) ∧ sent = r.qty) →
    (s.params.checkResponseId = true → id = r.id) → Holds s ([id, fcByte r.fc, a1, a0, v1, v0] ++ rest) →
    (s.rxLen - 2 ≠ 6 → step s = .next ((s.drawn n es).failed .frameIntegrityError)) ∧
    (s.rxLen - 2 = 6 → join a1 a0 ≠ r.addr → step s = .next ((s.drawn n es).failed .protocolMismatch)) ∧
    (s.rxLen - 2 = 6 → join a1 a0 = r.addr → join v1 v0 ≠ sent →
      step s = .next ((s.drawn n es).failed .protocolMismatch)) ∧
    (s.rxLen - 2 = 6 → join a1 a0 = r.addr → join v1 v0 = sent → step s = .next (s.drawn n es).succeeded)

/-! ## Reset, faults and rules over the whole machine -/

/-- Reset, at any step boundary: every register of the block goes to its reset value and `DE` to false; `RXQ`,
`TXLOG`, the clock, the host's buffers, the parameters and the draws to come are not touched (R230). -/
def Obligations.ResetPutsEveryRegisterAtItsResetValue : Prop :=
  ∀ (s : State) (es : List Event), s.schedule = .reset :: es →
    ∃ t, step s = .next t ∧
      t.charTo = none ∧ t.frameTo = none ∧ t.respTo = s.params.responseTimeoutReset ∧ t.exc = 0#8 ∧
      (∀ a, Cells.read t.buf a = none) ∧ t.phase = .idle ∧ t.tMark = none ∧ t.txLen = 0 ∧ t.rxLen = 0 ∧
      t.req = none ∧ t.result.ok = false ∧ t.result.err = .none ∧ t.fault = none ∧ t.de = false ∧
      t.rxq = s.rxq ∧ t.txlog = s.txlog ∧ t.now = s.now ∧ t.bitBufs = s.bitBufs ∧ t.wordBufs = s.wordBufs ∧
      t.params = s.params ∧ t.schedule = es

/-- The registers right after reset have the values R230 gives. A reset presents no result, in mid-operation or not
(R231); that `RESULT` at its reset value is no result presented is DEDUCED (log entry 9). -/
def Obligations.ResetStateHasTheResetValues : Prop :=
  State.reset.charTo = none ∧ State.reset.frameTo = none ∧
  State.reset.respTo = State.reset.params.responseTimeoutReset ∧ State.reset.exc = 0#8 ∧
  (∀ a, Cells.read State.reset.buf a = none) ∧ State.reset.phase = .idle ∧ State.reset.tMark = none ∧
  State.reset.txLen = 0 ∧ State.reset.rxLen = 0 ∧ State.reset.req = none ∧ State.reset.result.ok = false ∧
  State.reset.result.err = .none ∧ State.reset.fault = none ∧ State.reset.de = false ∧
  State.reset.presented = none ∧
  ∀ (s : State) (es : List Event), s.schedule = .reset :: es → ∃ t, step s = .next t ∧ t.presented = none

/-- Once set, `FAULT` is never cleared except by reset, and until then no step writes any register of the block or
any byte of `BUF`, sends anything or reads `RXQ` (R32, R205). What each draw does to a stopped block is the model's choice
(log entry 9): the draw is taken, and an arrival is appended to `RXQ`, the clock moves, or the host fills a buffer of its
own; an operation issued is dropped (log entry 10). A faulted state is never final (R205): however many steps follow, the fault
stays and the Host is presented with no result, as long as no reset is drawn. -/
def Obligations.FaultStopsTheBlockUntilReset : Prop :=
  (∀ (s t : State) (f : BlockFault), s.fault = some f → step s = .next t →
    (s.schedule = [] ∧ t = s) ∨
    (∃ b es, s.schedule = .deliver b :: es ∧ t = { s with rxq := s.rxq ++ [b], schedule := es }) ∨
    (∃ n es, (s.schedule = .tick n :: es ∨ ∃ r, s.schedule = .issue n r :: es) ∧
      t = { s with now := n % 2 ^ s.params.clockBits, schedule := es }) ∨
    (∃ name v es, s.schedule = .hostBits name v :: es ∧
      t = { s with bitBufs := Cells.write s.bitBufs name v, schedule := es }) ∨
    (∃ name v es, s.schedule = .hostWords name v :: es ∧
      t = { s with wordBufs := Cells.write s.wordBufs name v, schedule := es }) ∨
    (∃ es, s.schedule = .reset :: es ∧ t.fault = none ∧ t.presented = none)) ∧
  (∀ (k : Nat) (s t : State) (f : BlockFault), s.fault = some f → Event.reset ∉ s.schedule.take k →
    steps k s = .next t → t.fault = some f ∧ t.presented = none)

/-- A block whose `FAULT` is set accepts no operation (R205): whatever is issued at the port, only the draw is taken and
the clock sampled, so a reset can follow, and an operation run by itself stops. That what is not accepted is dropped is
the model's choice (log entry 10). -/
def Obligations.StoppedBlockAcceptsNoOperation : Prop :=
  (∀ (s : State) (f : BlockFault) (n : Nat) (r : PortRequest) (es : List Event), s.fault = some f →
    s.schedule = .issue n r :: es → step s = .next (s.drawn n es)) ∧
  (∀ (s : State) (f : BlockFault) (i : Instr), s.fault = some f → exec i s = .fault (.stopped f))

/-- Every step from a state that meets the invariant gives a state that meets it: the canonical form of `BUF` and
its bound, `RX_LEN ≤ BUF_CAP`, the timeouts set together, `DE` false between steps, no presented phase, no
`BufferOverrun` or `UnsetRead`, the clock's value and `T_MARK` in the clock's range, and the registers that each phase
reads set (R13, R22, R27, R28, R38, R39, R41, R46, R129). -/
def Obligations.EveryStepKeepsTheInvariant : Prop :=
  ∀ (s t : State), Inv s → step s = .next t → Inv t

/-- The state right after reset meets the invariant. -/
def Obligations.ResetMeetsTheInvariant : Prop := Inv State.reset

/-- `EXC` changes only in TRANSMIT, to 0; in PARSE, to the byte after a function-code byte `REQ.fc | 0x80` of a
response with `L = 3`, and then the operation has failed with `DeviceException`; and at reset, to 0. So the second
is the only write of a non-zero value to it (R206). -/
def Obligations.ExcIsWrittenOnlyByAnExceptionResponse : Prop :=
  ∀ (s t : State), step s = .next t →
    t.exc = s.exc ∨
    (s.fault = none ∧ s.phase = .transmit ∧ t.exc = 0#8) ∨
    (∃ r, s.fault = none ∧ s.phase = .parse ∧ s.req = some r ∧ s.rxLen - 2 = 3 ∧
      Cells.read s.buf 1 = some (fcByte r.fc ||| 0x80#8) ∧ Cells.read s.buf 2 = some t.exc ∧
      t.presented = some { ok := false, err := .deviceException, byte := none }) ∨
    (∃ es, s.schedule = .reset :: es ∧ t.exc = 0#8)

/-- `TXLOG` grows only in TRANSMIT, by the one frame in `BUF[0..TX_LEN+1]`, and no frame in it is ever changed or
taken out, not even by reset (R133). -/
def Obligations.TxlogGrowsOnlyInTransmit : Prop :=
  ∀ (s t : State), step s = .next t →
    t.txlog = s.txlog ∨
    (s.fault = none ∧ s.phase = .transmit ∧ ∃ f, f.length = s.txLen + 2 ∧ (∀ i, i < f.length → Cells.read s.buf i = f[i]?) ∧
      t.txlog = s.txlog ++ [f])

/-- `DE` is true after no step, and within a step it is driven true only by TRANSMIT, which drives it false again
after the write and the flush: what a step adds to the trace of the port and of `DE` is nothing, or that (R38,
R235). A step that raises in TRANSMIT is ruled out by the invariant. `portTrace` is the model's record (log entry
16). -/
def Obligations.DeIsTrueOnlyAroundTheWrite : Prop :=
  ∀ (s t : State), Inv s → step s = .next t →
    t.de = false ∧
    (t.portTrace = s.portTrace ∨
     (s.phase = .transmit ∧ ∃ f, t.txlog = s.txlog ++ [f] ∧
       t.portTrace = s.portTrace ++
         (if s.params.hasDE then [.de true, .write f, .flush, .de false] else [.write f, .flush])) ∨
     ((∃ es, s.schedule = .reset :: es) ∧ s.params.hasDE = true ∧ t.portTrace = s.portTrace ++ [.de false]))

/-- The transitions of `PHASE` are those of R132's table, and reset's; no other exists. DONE and FAILED are passed
through within a step (R41), so an end shows as IDLE. -/
def Obligations.PhaseMovesOnlyAsTheTableSays : Prop :=
  ∀ (s t : State), Inv s → step s = .next t →
    t.phase = s.phase ∨
    (s.phase, t.phase) ∈
      [(Phase.idle, Phase.flushStale), (.flushStale, .transmit), (.transmit, .idle), (.transmit, .rxWait),
       (.rxWait, .rxBytes), (.rxWait, .idle), (.rxBytes, .rxSilence), (.rxSilence, .validate),
       (.validate, .idle), (.validate, .parse), (.parse, .idle)] ∨
    (∃ es, s.schedule = .reset :: es ∧ t.phase = .idle)

/-- `RXQ` is a queue: a step leaves it alone, or takes one byte from its head, or is an arrival and appends the
byte that arrived to its tail. Bytes are taken only by an engine step of a block that is not stopped, in FLUSH_STALE,
RX_WAIT or RX_BYTES (R36, R127, R205). -/
def Obligations.RxqIsAQueue : Prop :=
  ∀ (s t : State), step s = .next t →
    t.rxq = s.rxq ∨
    (s.fault = none ∧ (s.phase = .flushStale ∨ s.phase = .rxWait ∨ s.phase = .rxBytes) ∧
      (∃ n es, s.schedule = .tick n :: es) ∧ ∃ b, s.rxq = b :: t.rxq) ∨
    (∃ b es, s.schedule = .deliver b :: es ∧ t.rxq = s.rxq ++ [b])

/-- The block writes a host buffer only in the step in which a read succeeds, and then only the buffer that
`REQ.out` names; every other change of a buffer is the host's own (R42, R150). -/
def Obligations.HostBuffersChangeOnlyOnSuccess : Prop :=
  ∀ (s t : State), step s = .next t →
    (t.bitBufs = s.bitBufs ∧ t.wordBufs = s.wordBufs) ∨
    (s.fault = none ∧ s.phase = .parse ∧ t.presented = some { ok := true, err := .none, byte := none } ∧
      ∃ r name, s.req = some r ∧ r.out = some name ∧
        ∀ other, other ≠ name → Cells.read t.bitBufs other = Cells.read s.bitBufs other ∧
          Cells.read t.wordBufs other = Cells.read s.wordBufs other) ∨
    (∃ name v es, s.schedule = .hostBits name v :: es ∧ t.bitBufs = Cells.write s.bitBufs name v ∧
      t.wordBufs = s.wordBufs) ∨
    (∃ name v es, s.schedule = .hostWords name v :: es ∧ t.wordBufs = Cells.write s.wordBufs name v ∧
      t.bitBufs = s.bitBufs)

/-- `CHAR_TO` and `FRAME_TO` are set only by the Timing Calculator run from an accepted CONFIGURE, and are unset by
reset; `RESP_TO` changes only by an accepted SET_RESPONSE_TIMEOUT and by reset (R21, R22, R23). -/
def Obligations.TimeoutsChangeOnlyByTheirOperations : Prop :=
  ∀ (s t : State), step s = .next t →
    (∃ es, s.schedule = .reset :: es ∧ t.charTo = none ∧ t.frameTo = none ∧
      t.respTo = s.params.responseTimeoutReset) ∨
    (((t.charTo = s.charTo ∧ t.frameTo = s.frameTo) ∨
      (s.phase = .idle ∧ s.fault = none ∧ ∃ n req es baud fmt, s.schedule = .issue n req :: es ∧
        fetch req = .ok (.configure baud fmt) ∧ t.charTo = (timingCalc s.params.bitsTable baud fmt).map Prod.fst ∧
        t.frameTo = (timingCalc s.params.bitsTable baud fmt).map Prod.snd)) ∧
     (t.respTo = s.respTo ∨
      (s.phase = .idle ∧ s.fault = none ∧ ∃ n req es w, s.schedule = .issue n req :: es ∧
        fetch req = .ok (.setResponseTimeout w) ∧ t.respTo = w)))

/-! ## Runs: over draws that the state's schedule lists, which is the model's form of R131's draws (log entry 7)

Each that says how an operation ends says that the Host is presented with its result: the block is idle, no fault is
set (R205) and `RESULT` is that result. -/

/-- On a line that never falls silent for `FRAME_TO` the operation does not end: however many bytes arrive, each
read at its step and followed by a step less than `FRAME_TO` later, the block is still in FLUSH_STALE and has sent
nothing (R238). -/
def Obligations.BusyLineNeverTransmits : Prop :=
  ∀ (s : State) (m : Nat) (w : Word32) (line : List (Byte × Nat × Nat)),
    s.fault = none → s.phase = .flushStale → s.rxq = [] → s.tMark = some m → s.frameTo = some w →
    (∀ x ∈ line, s.between x.2.1 x.2.2 < w.toNat) →
    s.schedule = line.flatMap (fun x => [.deliver x.1, .tick x.2.1, .tick x.2.2]) →
    ∃ t, steps (3 * line.length) s = .next t ∧ t.phase = .flushStale ∧ t.fault = none ∧ t.txlog = s.txlog ∧
      t.rxq = [] ∧ t.schedule = []

/-- A device that stays silent: the request is sent, and `RESP_TO` after the end of TRANSMIT the operation fails
with `CommunicationTimeout`, `EXC = 0` and `RX_LEN = 0`, every host buffer unchanged (R202). For every operation
that has been started and expects a response. -/
def Obligations.SilentDeviceTimesOut : Prop :=
  ∀ (s : State) (m now t : Nat) (w : Word32) (r : ReqContext) (f : List Byte) (es : List Event),
    s.fault = none → s.phase = .flushStale → s.rxq = [] → s.tMark = some m → s.frameTo = some w →
    s.req = some r → r.expect = true → Holds s f → f.length = s.txLen + 2 → w.toNat ≤ s.between m now →
    s.respTo.toNat < 2 ^ s.params.clockBits →
    s.schedule = [.tick now, .tick t, .tick (t + s.respTo.toNat)] ++ es →
    ∃ u, steps 3 s = .next u ∧ u.presented = some { ok := false, err := .communicationTimeout, byte := none } ∧
      u.exc = 0#8 ∧ u.rxLen = 0 ∧ u.txlog = s.txlog ++ [f] ∧ u.bitBufs = s.bitBufs ∧ u.wordBufs = s.wordBufs

/-- A broadcast write, from its issue to its end: three draws after it is issued (or any such silence on the line)
the frame is on the wire and the operation has succeeded, with `EXC = 0` and nothing received (R124, R170). -/
def Obligations.BroadcastWriteCompletes : Prop :=
  ∀ (s : State) (c f : Word32) (now t : Nat) (i : Instr) (frame : List Byte) (es : List Event),
    Accepts s → Configured s c f → s.params.wf → s.rxq = [] →
    (∃ addr value, i = .writeSingleCoil 0#8 addr value) ∨
      (∃ addr value, i = .writeSingleRegister 0#8 addr value) ∨
      (∃ addr data qty, i = .writeMultipleCoils 0#8 addr data qty) ∨
      (∃ addr data qty, i = .writeMultipleRegisters 0#8 addr data qty) →
    i.wf = true → encodeFrame i = some frame →
    f.toNat < 2 ^ s.params.clockBits →
    s.schedule = [.issue now (.byName i), .tick (now + f.toNat), .tick t] ++ es →
    ∃ u, steps 3 s = .next u ∧ u.presented = some { ok := true, err := .none, byte := none } ∧
      u.exc = 0#8 ∧ u.txlog = s.txlog ++ [frame] ∧ u.rxLen = s.rxLen ∧ u.schedule = es

/-- A whole read of registers, from its issue through flush, transmit, timed receive, validation and parse to its
result. For every unicast id, address and quantity and every data a device may send: the request's frame goes out,
and the buffer holds the registers sent, high byte first (R150, R153, R154, R157). -/
def Obligations.RegisterReadExchangeDeliversTheData : Prop :=
  ∀ (s : State) (c f : Word32) (now t : Nat) (i : Instr) (fc id : Byte) (addr qty : Word16) (name : BufName)
    (old : List Word16) (data : List Byte),
    Accepts s → Configured s c f → s.params.wf → s.rxq = [] →
    1 ≤ id.toNat → id.toNat ≤ 247 → 1 ≤ qty.toNat → qty.toNat ≤ 125 →
    Cells.read s.wordBufs name = some old → qty.toNat ≤ old.length →
    (i = .readHoldingRegisters id addr (some name) qty ∧ fc = 0x03#8) ∨
      (i = .readInputRegisters id addr (some name) qty ∧ fc = 0x04#8) →
    data.length = 2 * qty.toNat →
    c.toNat < 2 ^ s.params.clockBits → f.toNat < 2 ^ s.params.clockBits →
    s.schedule = exchange i now t c f (withCrc ([id, fc, BitVec.ofNat 8 (2 * qty.toNat)] ++ data)) →
    ∃ u new, steps s.schedule.length s = .next u ∧
      u.presented = some { ok := true, err := .none, byte := none } ∧ u.exc = 0#8 ∧
      u.txlog = s.txlog ++ [withCrc [id, fc, hi addr, lo addr, hi qty, lo qty]] ∧
      Cells.read u.wordBufs name = some new ∧ new.length = old.length ∧
      (∀ k, k < qty.toNat → new[k]? = some (join (data.getD (2 * k) 0#8) (data.getD (2 * k + 1) 0#8))) ∧
      ∀ k, qty.toNat ≤ k → new[k]? = old[k]?

/-- A whole read of bits, likewise: the buffer holds the bits sent, item i at bit `i mod 8` of data byte
`i div 8`, whatever the padding bits (R150, R151, R152, R156). -/
def Obligations.BitReadExchangeDeliversTheData : Prop :=
  ∀ (s : State) (c f : Word32) (now t : Nat) (i : Instr) (fc id : Byte) (addr qty : Word16) (name : BufName)
    (old : List Bool) (data : List Byte),
    Accepts s → Configured s c f → s.params.wf → s.rxq = [] →
    1 ≤ id.toNat → id.toNat ≤ 247 → 1 ≤ qty.toNat → qty.toNat ≤ 2000 →
    Cells.read s.bitBufs name = some old → qty.toNat ≤ old.length →
    (i = .readCoils id addr (some name) qty ∧ fc = 0x01#8) ∨
      (i = .readDiscreteInputs id addr (some name) qty ∧ fc = 0x02#8) →
    data.length = (qty.toNat + 7) / 8 →
    c.toNat < 2 ^ s.params.clockBits → f.toNat < 2 ^ s.params.clockBits →
    s.schedule = exchange i now t c f (withCrc ([id, fc, BitVec.ofNat 8 ((qty.toNat + 7) / 8)] ++ data)) →
    ∃ u new, steps s.schedule.length s = .next u ∧
      u.presented = some { ok := true, err := .none, byte := none } ∧ u.exc = 0#8 ∧
      u.txlog = s.txlog ++ [withCrc [id, fc, hi addr, lo addr, hi qty, lo qty]] ∧
      Cells.read u.bitBufs name = some new ∧ new.length = old.length ∧
      (∀ k, k < qty.toNat → new[k]? = some ((data.getD (k >>> 3) 0#8).getLsbD (k &&& 7))) ∧
      ∀ k, qty.toNat ≤ k → new[k]? = old[k]?

/-- A whole unicast write, with the device's echo: the request's frame goes out and the operation succeeds, every
host buffer unchanged (R170, R177, R178). The echo is the id, the function code, the address, and the value
(codes 5 and 6) or the quantity (codes 15 and 16). -/
def Obligations.WriteExchangeSucceedsOnItsEcho : Prop :=
  ∀ (s : State) (c f : Word32) (now t : Nat) (i : Instr) (fc id : Byte) (addr echoed : Word16) (frame : List Byte),
    Accepts s → Configured s c f → s.params.wf → s.rxq = [] → 1 ≤ id.toNat →
    (∃ on, i = .writeSingleCoil id addr on ∧ fc = 0x05#8 ∧ echoed = if on then 0xFF00#16 else 0x0000#16) ∨
      (i = .writeSingleRegister id addr echoed ∧ fc = 0x06#8) ∨
      (∃ data, i = .writeMultipleCoils id addr data echoed ∧ fc = 0x0F#8) ∨
      (∃ data, i = .writeMultipleRegisters id addr data echoed ∧ fc = 0x10#8) →
    i.wf = true → encodeFrame i = some frame →
    c.toNat < 2 ^ s.params.clockBits → f.toNat < 2 ^ s.params.clockBits →
    s.schedule = exchange i now t c f (withCrc [id, fc, hi addr, lo addr, hi echoed, lo echoed]) →
    ∃ u, steps s.schedule.length s = .next u ∧ u.presented = some { ok := true, err := .none, byte := none } ∧
      u.exc = 0#8 ∧ u.txlog = s.txlog ++ [frame] ∧ u.bitBufs = s.bitBufs ∧ u.wordBufs = s.wordBufs
end

