-- ==== Sys2Proof/Laws/Operands.lean ====
section
/-! SUPPORT. The laws of operand assembly: bytes and words, packed bits, registers, function-code bytes. -/

namespace Sys2Proof.Machine

@[simp] theorem join_hi_lo (v : Word16) : join (hi v) (lo v) = v := by
  simp only [join, hi, lo]
  ext i h
  simp only [BitVec.getElem_append, BitVec.getElem_extractLsb']
  split
  · rw [Nat.zero_add, BitVec.getLsbD_eq_getElem h]
  · rw [show 8 + (i - 8) = i by omega, BitVec.getLsbD_eq_getElem h]

@[simp] theorem hi_join (a b : Byte) : hi (join a b) = a := by
  simp only [join, hi]
  ext i h
  simp only [BitVec.getElem_extractLsb', BitVec.getLsbD_append]
  rw [if_neg (by omega), Nat.add_sub_cancel_left, BitVec.getLsbD_eq_getElem h]

@[simp] theorem lo_join (a b : Byte) : lo (join a b) = b := by
  simp only [join, lo]
  ext i h
  simp only [BitVec.getElem_extractLsb', BitVec.getLsbD_append]
  rw [if_pos (by omega), Nat.zero_add, BitVec.getLsbD_eq_getElem h]

theorem join_inj {a b c d : Byte} (h : join a b = join c d) : a = c ∧ b = d :=
  ⟨by simpa using congrArg hi h, by simpa using congrArg lo h⟩

theorem join_eq_iff {a b : Byte} {v : Word16} : join a b = v ↔ a = hi v ∧ b = lo v := by
  constructor
  · rintro rfl; simp
  · rintro ⟨rfl, rfl⟩; simp

@[simp] theorem fcOfByte_fcByte (fc : FuncCode) : fcOfByte (fcByte fc) = some fc := by cases fc <;> rfl

theorem fcByte_of_fcOfByte {b : Byte} {fc : FuncCode} (h : fcOfByte b = some fc) : b = fcByte fc := by
  unfold fcOfByte at h
  repeat' split at h
  all_goals first | (cases h; assumption) | cases h

theorem fcByte_injective {a b : FuncCode} (h : fcByte a = fcByte b) : a = b := by
  simpa using congrArg fcOfByte h

/-- No function code of R73 has bit 7 set. -/
@[simp] theorem fcByte_msb (fc : FuncCode) : (fcByte fc).msb = false := by cases fc <;> rfl

@[simp] theorem exceptionFcOf_msb (fc : BitVec 7) : (exceptionFcOf fc).msb = true := by
  revert fc; decide

@[simp] theorem exceptionFcOf_setWidth (fc : BitVec 7) : (exceptionFcOf fc).setWidth 7 = fc := by
  revert fc; decide

theorem exceptionFcOf_of_msb {b : Byte} (h : b.msb = true) : exceptionFcOf (b.setWidth 7) = b := by
  revert b; decide

@[simp] theorem exceptionFc_msb (b : Byte) : (exceptionFc b).msb = true := by
  revert b; decide

theorem exceptionFc_ne_fcByte (b : Byte) (fc : FuncCode) : exceptionFc b ≠ fcByte fc := by
  intro h
  simpa using congrArg BitVec.msb h

theorem exceptionFcOf_eq_exceptionFc_iff (x : BitVec 7) (fc : FuncCode) :
    exceptionFcOf x = exceptionFc (fcByte fc) ↔ x = (fcByte fc).setWidth 7 := by
  constructor
  · intro h
    rw [← exceptionFcOf_setWidth x, h]
    cases fc <;> rfl
  · rintro rfl
    cases fc <;> rfl

/-- Bit `k` of a packed byte. -/
theorem packByte_getLsbD (f : Nat → Bool) {k : Nat} (h : k < 8) : (packByte f).getLsbD k = f k := by
  rw [packByte, BitVec.getLsbD_ofBoolListLE]
  match k, h with
  | 0, _ | 1, _ | 2, _ | 3, _ | 4, _ | 5, _ | 6, _ | 7, _ => rfl

@[simp] theorem packBits_length (data : List Bool) (qty : Nat) : (packBits data qty).length = (qty + 7) / 8 := by
  simp [packBits, byteCount]

@[simp] theorem unpackBits_length (bytes : List Byte) (qty : Nat) : (unpackBits bytes qty).length = qty := by
  simp [unpackBits]

@[simp] theorem unpackRegs_length (bytes : List Byte) (qty : Nat) : (unpackRegs bytes qty).length = qty := by
  simp [unpackRegs]

theorem and_seven (i : Nat) : i &&& 7 = i % 8 := by
  rw [show (7 : Nat) = 2 ^ 3 - 1 from rfl, Nat.and_two_pow_sub_one_eq_mod]

theorem shiftRight_three (i : Nat) : i >>> 3 = i / 8 := by
  rw [Nat.shiftRight_eq_div_pow]

/-- Item i of an unpacked field: bit i mod 8 of byte i div 8. -/
theorem unpackBits_getElem? (bytes : List Byte) (qty i : Nat) (h : i < qty) :
    (unpackBits bytes qty)[i]? = some ((bytes.getD (i / 8) 0#8).getLsbD (i % 8)) := by
  simp [unpackBits, h, and_seven, shiftRight_three]

theorem packBits_getElem? (data : List Bool) (qty j : Nat) (h : j < (qty + 7) / 8) :
    (packBits data qty)[j]? =
      some (packByte fun k => decide (8 * j + k < qty) && data.getD (8 * j + k) false) := by
  simp [packBits, byteCount, h]

/-- Register k of an unpacked field. -/
theorem unpackRegs_getElem? (bytes : List Byte) (qty k : Nat) (h : k < qty) :
    (unpackRegs bytes qty)[k]? = some (join (bytes.getD (2 * k) 0#8) (bytes.getD (2 * k + 1) 0#8)) := by
  simp [unpackRegs, h]

@[simp] theorem packRegs_nil (qty : Nat) : packRegs [] qty = [] := by simp [packRegs]

@[simp] theorem packRegs_zero (data : List Word16) : packRegs data 0 = [] := by simp [packRegs]

@[simp] theorem packRegs_cons (v : Word16) (data : List Word16) (qty : Nat) :
    packRegs (v :: data) (qty + 1) = hi v :: lo v :: packRegs data qty := by
  simp [packRegs]

theorem packRegs_length (data : List Word16) (qty : Nat) (h : qty ≤ data.length) :
    (packRegs data qty).length = 2 * qty := by
  induction qty generalizing data with
  | zero => simp
  | succ n ih =>
    cases data with
    | nil => simp at h
    | cons v data => simp [ih data (by simpa using h)]; omega

/-- Bytes 2k and 2k+1 of packed registers. -/
theorem packRegs_getElem? (data : List Word16) (qty k : Nat) (h : qty ≤ data.length) (hk : k < qty) :
    (packRegs data qty)[2 * k]? = (data[k]?).map hi ∧ (packRegs data qty)[2 * k + 1]? = (data[k]?).map lo := by
  induction k generalizing data qty with
  | zero =>
    obtain ⟨n, rfl⟩ : ∃ n, qty = n + 1 := ⟨qty - 1, by omega⟩
    cases data with
    | nil => simp at h
    | cons v data => simp
  | succ k ih =>
    obtain ⟨n, rfl⟩ : ∃ n, qty = n + 1 := ⟨qty - 1, by omega⟩
    cases data with
    | nil => simp at h
    | cons v data =>
      have := ih data n (by simpa using h) (by omega)
      rw [show 2 * (k + 1) = 2 * k + 1 + 1 by omega]
      simpa using this

@[simp] theorem header_length (id : Byte) (fc : FuncCode) (a v : Word16) : (header id fc a v).length = 6 := rfl

/-- The byte counts of the quantities R73 allows fit in a byte (R86). -/
theorem byteCount_bit_le {qty : Nat} (h : qty ≤ 2000) : byteCount .bit qty ≤ 250 := by
  simp only [byteCount]; omega

theorem byteCount_register_le {qty : Nat} (h : qty ≤ 125) : byteCount .register qty ≤ 250 := by
  simp only [byteCount]; omega

end Sys2Proof.Machine
end

