-- ==== Sys2Proof/Laws/Crc.lean ====
section
/-! SUPPORT. The algebra of the CRC step: it is linear over XOR and maps only 0 to 0. -/

namespace Sys2Proof.Machine

/-- The shift step is linear. -/
theorem crcShift_xor (a b : Word16) : crcShift (a ^^^ b) = crcShift a ^^^ crcShift b := by
  simp only [crcShift, BitVec.getLsbD_xor, BitVec.ushiftRight_xor_distrib]
  cases a.getLsbD 0 <;> cases b.getLsbD 0 <;> simp
  · rw [BitVec.xor_assoc]
  · rw [BitVec.xor_assoc, BitVec.xor_comm (b >>> 1), ← BitVec.xor_assoc]
  · rw [BitVec.xor_assoc, ← BitVec.xor_assoc crcPoly, BitVec.xor_comm crcPoly, BitVec.xor_assoc, BitVec.xor_self,
      BitVec.xor_zero]

@[simp] theorem crcShift_zero : crcShift 0#16 = 0#16 := by decide

/-- The shift step maps only 0 to 0: a step that XORs the polynomial sets bit 15. -/
theorem crcShift_eq_zero {c : Word16} (h : crcShift c = 0#16) : c = 0#16 := by
  unfold crcShift at h
  split at h
  · have := congrArg (fun v : Word16 => v.getLsbD 15) h
    simp [crcPoly] at this
  · rename_i h0
    have hc : ∀ i, i < 16 → c.getLsbD i = false := by
      intro i hi
      cases i with
      | zero => simpa using h0
      | succ j =>
        have := congrArg (fun v : Word16 => v.getLsbD j) h
        simpa [Nat.add_comm] using this
    ext i hi
    simpa [BitVec.getLsbD_eq_getElem hi] using hc i hi

theorem crcShifts_xor (n : Nat) (a b : Word16) : crcShifts n (a ^^^ b) = crcShifts n a ^^^ crcShifts n b := by
  induction n generalizing a b with
  | zero => rfl
  | succ n ih => rw [crcShifts, crcShifts, crcShifts, crcShift_xor, ih]

@[simp] theorem crcShifts_zero (n : Nat) : crcShifts n 0#16 = 0#16 := by
  induction n with
  | zero => rfl
  | succ n ih => rw [crcShifts, crcShift_zero, ih]

theorem crcShifts_eq_zero {n : Nat} {c : Word16} (h : crcShifts n c = 0#16) : c = 0#16 := by
  induction n generalizing c with
  | zero => exact h
  | succ n ih => exact crcShift_eq_zero (ih h)

/-- A value whose low `n` bits are 0 is shifted right `n` times. -/
theorem crcShifts_of_low_zero (n : Nat) (c : Word16) (h : ∀ i, i < n → c.getLsbD i = false) :
    crcShifts n c = c >>> n := by
  induction n generalizing c with
  | zero => simp [crcShifts]
  | succ n ih =>
    have h0 : crcShift c = c >>> 1 := by
      unfold crcShift
      rw [if_neg (by rw [h 0 (by omega)]; simp)]
    rw [crcShifts, h0, ih]
    · rw [← BitVec.shiftRight_add, Nat.add_comm]
    · intro i hi
      rw [BitVec.getLsbD_ushiftRight]
      exact h (1 + i) (by omega)

/-- One byte's step is linear in the CRC and the byte together. -/
theorem crcUpdate_xor (a a' : Word16) (b b' : Byte) :
    crcUpdate (a ^^^ a') (b ^^^ b') = crcUpdate a b ^^^ crcUpdate a' b' := by
  rw [crcUpdate, crcUpdate, crcUpdate, ← crcShifts_xor, BitVec.setWidth_xor]
  congr 1
  ext i hi
  simp only [BitVec.getElem_xor]
  generalize a[i] = x, a'[i] = y, (b.setWidth 16)[i] = z, (b'.setWidth 16)[i] = w
  revert x y z w; decide

/-- Folding CRC_UPDATE is linear in the CRC and the bytes together. -/
theorem foldl_crcUpdate_xor (d e : List Byte) (h : d.length = e.length) (a c : Word16) :
    (List.zipWith (· ^^^ ·) d e).foldl crcUpdate (a ^^^ c) = d.foldl crcUpdate a ^^^ e.foldl crcUpdate c := by
  induction d generalizing e a c with
  | nil => cases e with
    | nil => rfl
    | cons => simp at h
  | cons b d ih => cases e with
    | nil => simp at h
    | cons x e =>
      simp only [List.zipWith_cons_cons, List.foldl_cons, crcUpdate_xor]
      exact ih e (by simpa using h) _ _

/-- A CRC other than 0 stays so through bytes that are 0. -/
theorem foldl_crcUpdate_zeros_ne (n : Nat) {c : Word16} (h : c ≠ 0#16) :
    (List.replicate n 0#8).foldl crcUpdate c ≠ 0#16 := by
  induction n generalizing c with
  | zero => exact h
  | succ n ih =>
    refine ih fun hz => h ?_
    have : crcShifts 8 c = 0#16 := by simpa [crcUpdate] using hz
    exact crcShifts_eq_zero this

@[simp] theorem foldl_crcUpdate_zeros (n : Nat) : (List.replicate n 0#8).foldl crcUpdate 0#16 = 0#16 := by
  induction n with
  | zero => rfl
  | succ n ih => simpa [List.replicate_succ, crcUpdate] using ih

/-- Appending bytes goes on from the CRC so far. -/
theorem crc16_append (d e : List Byte) : crc16 (d ++ e) = e.foldl crcUpdate (crc16 d) := by
  simp [crc16, List.foldl_append]

/-- The low byte of the CRC, fed back, leaves the high byte. -/
theorem crcUpdate_lo (c : Word16) : crcUpdate c (lo c) = (hi c).setWidth 16 := by
  rw [crcUpdate, crcShifts_of_low_zero]
  · ext i hi'
    simp only [BitVec.getElem_ushiftRight, BitVec.getLsbD_xor, BitVec.getLsbD_setWidth, BitVec.getElem_setWidth,
      hi, lo, BitVec.getLsbD_extractLsb']
    by_cases h : i < 8 <;> simp [h, show ¬ 8 + i < 8 by omega]
    exact BitVec.getLsbD_of_ge c _ (by omega)
  · intro i hi'
    simp [lo, hi', show i < 16 by omega]

/-- The high byte of the CRC, fed back, leaves 0. -/
theorem crcUpdate_hi (b : Byte) : crcUpdate (b.setWidth 16) b = 0#16 := by
  rw [crcUpdate, BitVec.xor_self, crcShifts_zero]

end Sys2Proof.Machine
end

