-- ==== Sys2Proof/Laws/Memory.lean ====
section
/-! SUPPORT. The laws of the lists of (key, value) pairs: a read after a write, and the canonical form that every
write keeps. -/

namespace Sys2Proof.Machine.Cells

variable {α : Type}

@[simp] theorem read_nil (i : Nat) : read ([] : List (Nat × α)) i = none := rfl

/-- A read after a write gives the value written there, and every other key reads as before. -/
theorem read_write (m : List (Nat × α)) (i : Nat) (x : α) (j : Nat) :
    read (write m i x) j = if j = i then some x else read m j := by
  induction m with
  | nil => simp [write, read]
  | cons c m ih =>
    obtain ⟨k, v⟩ := c
    simp only [write]
    split
    · simp [read]
    · split
      · subst i; simp only [read]; split <;> rfl
      · rename_i h₁ h₂
        simp only [read, ih]
        by_cases hj : j = k
        · subst hj; simp [show ¬ j = i from fun h => h₂ h.symm]
        · simp [hj]

@[simp] theorem read_write_same (m : List (Nat × α)) (i : Nat) (x : α) : read (write m i x) i = some x := by
  simp [read_write]

theorem read_write_other (m : List (Nat × α)) {i j : Nat} (x : α) (h : j ≠ i) :
    read (write m i x) j = read m j := by
  simp [read_write, h]

/-- A read after a list of writes from `a` on. -/
theorem read_writeList (v : List α) : ∀ (m : List (Nat × α)) (a j : Nat),
    read (writeList m a v) j = if a ≤ j ∧ j < a + v.length then v[j - a]? else read m j := by
  induction v with
  | nil => intro m a j; simp [writeList]
  | cons x v ih =>
    intro m a j
    rw [writeList, ih, read_write]
    by_cases h₁ : a + 1 ≤ j ∧ j < a + 1 + v.length
    · have h₂ : a ≤ j ∧ j < a + (x :: v).length := by simp; omega
      rw [if_pos h₁, if_pos h₂, show j - a = (j - (a + 1)) + 1 by omega]; simp
    · rw [if_neg h₁]
      by_cases h₃ : j = a
      · subst h₃; simp
      · have h₂ : ¬ (a ≤ j ∧ j < a + (x :: v).length) := by simp; omega
        rw [if_neg h₃, if_neg h₂]

/-- The keys after a write are the old ones and the one written. -/
theorem mem_write {m : List (Nat × α)} {i : Nat} {x : α} {c : Nat × α} (h : c ∈ write m i x) :
    c = (i, x) ∨ c ∈ m := by
  induction m with
  | nil => simpa [write] using h
  | cons d m ih =>
    obtain ⟨k, v⟩ := d
    simp only [write] at h
    split at h
    · simpa using h
    · split at h
      · simp only [List.mem_cons] at h ⊢; tauto
      · simp only [List.mem_cons] at h ⊢
        rcases h with h | h
        · exact .inr (.inl h)
        · rcases ih h with h | h
          · exact .inl h
          · exact .inr (.inr h)

theorem mem_writeList {v : List α} : ∀ {m : List (Nat × α)} {a : Nat} {c : Nat × α}, c ∈ writeList m a v →
    (a ≤ c.1 ∧ c.1 < a + v.length) ∨ c ∈ m := by
  induction v with
  | nil => intro m a c h; exact .inr h
  | cons x v ih =>
    intro m a c h
    rcases ih h with h | h
    · left; simp; omega
    · rcases mem_write h with rfl | h
      · left; simp
      · exact .inr h

/-- Every write keeps the canonical form. -/
theorem write_wf {m : List (Nat × α)} (i : Nat) (x : α) (h : wf m) : wf (write m i x) := by
  induction m with
  | nil => simp [write, wf]
  | cons c m ih =>
    obtain ⟨k, v⟩ := c
    rw [wf, List.pairwise_cons] at h
    simp only [write]
    split
    · rename_i hlt
      refine List.pairwise_cons.2 ⟨?_, List.pairwise_cons.2 h⟩
      intro d hd
      rcases List.mem_cons.1 hd with rfl | hd
      · exact hlt
      · exact lt_trans hlt (h.1 d hd)
    · split
      · subst i; exact List.pairwise_cons.2 ⟨fun d hd => h.1 d hd, h.2⟩
      · refine List.pairwise_cons.2 ⟨?_, ih h.2⟩
        intro d hd
        rcases mem_write hd with rfl | hd
        · show k < i; omega
        · exact h.1 d hd

theorem writeList_wf {v : List α} : ∀ {m : List (Nat × α)} (a : Nat), wf m → wf (writeList m a v) := by
  induction v with
  | nil => intro m a h; exact h
  | cons x v ih => intro m a h; exact ih (a + 1) (write_wf a x h)

/-- A key below every listed one reads as nothing. -/
theorem read_eq_none {m : List (Nat × α)} {i : Nat} (h : ∀ c ∈ m, i < c.1) : read m i = none := by
  induction m with
  | nil => rfl
  | cons c m ih =>
    have hc : i < c.1 := h c (by simp)
    rw [show c = (c.1, c.2) from rfl, read, if_neg (by omega)]
    exact ih fun d hd => h d (by simp [hd])

/-- Two canonical lists that read alike everywhere are the same data. -/
theorem ext_of_read {m n : List (Nat × α)} (hm : wf m) (hn : wf n) (h : ∀ i, read m i = read n i) : m = n := by
  induction m generalizing n with
  | nil =>
    cases n with
    | nil => rfl
    | cons d n => have := h d.1; rw [show d = (d.1, d.2) from rfl] at this; simp [read] at this
  | cons c m ih =>
    obtain ⟨k, v⟩ := c
    cases n with
    | nil => have := h k; simp [read] at this
    | cons d n =>
      obtain ⟨l, w⟩ := d
      rw [wf, List.pairwise_cons] at hm hn
      have hk : k = l := by
        rcases Nat.lt_trichotomy k l with hlt | heq | hgt
        · have := h k
          rw [read_eq_none (m := (l, w) :: n) (by
            intro d hd
            rcases List.mem_cons.1 hd with rfl | hd
            · exact hlt
            · exact lt_trans hlt (hn.1 d hd))] at this
          simp [read] at this
        · exact heq
        · have := h l
          rw [read_eq_none (m := (k, v) :: m) (by
            intro d hd
            rcases List.mem_cons.1 hd with rfl | hd
            · exact hgt
            · exact lt_trans hgt (hm.1 d hd))] at this
          simp [read] at this
      subst hk
      have hv : v = w := by simpa [read] using h k
      subst hv
      congr 1
      refine ih hm.2 hn.2 fun i => ?_
      by_cases hi : i = k
      · subst hi
        rw [read_eq_none fun d hd => hm.1 d hd, read_eq_none fun d hd => hn.1 d hd]
      · simpa [read, hi] using h i

end Sys2Proof.Machine.Cells
end

