-- ==== Sys2Proof/Laws/State.lean ====
section
/-! SUPPORT. One lemma per field per named update of the state, each true by rfl, so that no later proof unfolds
a record update. -/

namespace Sys2Proof.Machine

namespace State

variable (s : State)

@[simp] theorem setNow_params (n : Nat) : (s.setNow n).params = s.params := rfl
@[simp] theorem setNow_charTo (n : Nat) : (s.setNow n).charTo = s.charTo := rfl
@[simp] theorem setNow_frameTo (n : Nat) : (s.setNow n).frameTo = s.frameTo := rfl
@[simp] theorem setNow_respTo (n : Nat) : (s.setNow n).respTo = s.respTo := rfl
@[simp] theorem setNow_exc (n : Nat) : (s.setNow n).exc = s.exc := rfl
@[simp] theorem setNow_buf (n : Nat) : (s.setNow n).buf = s.buf := rfl
@[simp] theorem setNow_phase (n : Nat) : (s.setNow n).phase = s.phase := rfl
@[simp] theorem setNow_tMark (n : Nat) : (s.setNow n).tMark = s.tMark := rfl
@[simp] theorem setNow_txLen (n : Nat) : (s.setNow n).txLen = s.txLen := rfl
@[simp] theorem setNow_rxLen (n : Nat) : (s.setNow n).rxLen = s.rxLen := rfl
@[simp] theorem setNow_req (n : Nat) : (s.setNow n).req = s.req := rfl
@[simp] theorem setNow_result (n : Nat) : (s.setNow n).result = s.result := rfl
@[simp] theorem setNow_fault (n : Nat) : (s.setNow n).fault = s.fault := rfl
@[simp] theorem setNow_de (n : Nat) : (s.setNow n).de = s.de := rfl
@[simp] theorem setNow_rxq (n : Nat) : (s.setNow n).rxq = s.rxq := rfl
@[simp] theorem setNow_txlog (n : Nat) : (s.setNow n).txlog = s.txlog := rfl
@[simp] theorem setNow_now (n : Nat) : (s.setNow n).now = s.clockAt n := rfl
@[simp] theorem setNow_bitBufs (n : Nat) : (s.setNow n).bitBufs = s.bitBufs := rfl
@[simp] theorem setNow_wordBufs (n : Nat) : (s.setNow n).wordBufs = s.wordBufs := rfl
@[simp] theorem setNow_schedule (n : Nat) : (s.setNow n).schedule = s.schedule := rfl
@[simp] theorem setNow_portTrace (n : Nat) : (s.setNow n).portTrace = s.portTrace := rfl
@[simp] theorem setNow_retval (n : Nat) : (s.setNow n).retval = s.retval := rfl

@[simp] theorem setSchedule_params (es : List Event) : (s.setSchedule es).params = s.params := rfl
@[simp] theorem setSchedule_charTo (es : List Event) : (s.setSchedule es).charTo = s.charTo := rfl
@[simp] theorem setSchedule_frameTo (es : List Event) : (s.setSchedule es).frameTo = s.frameTo := rfl
@[simp] theorem setSchedule_respTo (es : List Event) : (s.setSchedule es).respTo = s.respTo := rfl
@[simp] theorem setSchedule_exc (es : List Event) : (s.setSchedule es).exc = s.exc := rfl
@[simp] theorem setSchedule_buf (es : List Event) : (s.setSchedule es).buf = s.buf := rfl
@[simp] theorem setSchedule_phase (es : List Event) : (s.setSchedule es).phase = s.phase := rfl
@[simp] theorem setSchedule_tMark (es : List Event) : (s.setSchedule es).tMark = s.tMark := rfl
@[simp] theorem setSchedule_txLen (es : List Event) : (s.setSchedule es).txLen = s.txLen := rfl
@[simp] theorem setSchedule_rxLen (es : List Event) : (s.setSchedule es).rxLen = s.rxLen := rfl
@[simp] theorem setSchedule_req (es : List Event) : (s.setSchedule es).req = s.req := rfl
@[simp] theorem setSchedule_result (es : List Event) : (s.setSchedule es).result = s.result := rfl
@[simp] theorem setSchedule_fault (es : List Event) : (s.setSchedule es).fault = s.fault := rfl
@[simp] theorem setSchedule_de (es : List Event) : (s.setSchedule es).de = s.de := rfl
@[simp] theorem setSchedule_rxq (es : List Event) : (s.setSchedule es).rxq = s.rxq := rfl
@[simp] theorem setSchedule_txlog (es : List Event) : (s.setSchedule es).txlog = s.txlog := rfl
@[simp] theorem setSchedule_now (es : List Event) : (s.setSchedule es).now = s.now := rfl
@[simp] theorem setSchedule_bitBufs (es : List Event) : (s.setSchedule es).bitBufs = s.bitBufs := rfl
@[simp] theorem setSchedule_wordBufs (es : List Event) : (s.setSchedule es).wordBufs = s.wordBufs := rfl
@[simp] theorem setSchedule_schedule (es : List Event) : (s.setSchedule es).schedule = es := rfl
@[simp] theorem setSchedule_portTrace (es : List Event) : (s.setSchedule es).portTrace = s.portTrace := rfl
@[simp] theorem setSchedule_retval (es : List Event) : (s.setSchedule es).retval = s.retval := rfl

@[simp] theorem setFault_params (f : BlockFault) : (s.setFault f).params = s.params := rfl
@[simp] theorem setFault_charTo (f : BlockFault) : (s.setFault f).charTo = s.charTo := rfl
@[simp] theorem setFault_frameTo (f : BlockFault) : (s.setFault f).frameTo = s.frameTo := rfl
@[simp] theorem setFault_respTo (f : BlockFault) : (s.setFault f).respTo = s.respTo := rfl
@[simp] theorem setFault_exc (f : BlockFault) : (s.setFault f).exc = s.exc := rfl
@[simp] theorem setFault_buf (f : BlockFault) : (s.setFault f).buf = s.buf := rfl
@[simp] theorem setFault_phase (f : BlockFault) : (s.setFault f).phase = s.phase := rfl
@[simp] theorem setFault_tMark (f : BlockFault) : (s.setFault f).tMark = s.tMark := rfl
@[simp] theorem setFault_txLen (f : BlockFault) : (s.setFault f).txLen = s.txLen := rfl
@[simp] theorem setFault_rxLen (f : BlockFault) : (s.setFault f).rxLen = s.rxLen := rfl
@[simp] theorem setFault_req (f : BlockFault) : (s.setFault f).req = s.req := rfl
@[simp] theorem setFault_result (f : BlockFault) : (s.setFault f).result = s.result := rfl
@[simp] theorem setFault_fault (f : BlockFault) : (s.setFault f).fault = some f := rfl
@[simp] theorem setFault_de (f : BlockFault) : (s.setFault f).de = s.de := rfl
@[simp] theorem setFault_rxq (f : BlockFault) : (s.setFault f).rxq = s.rxq := rfl
@[simp] theorem setFault_txlog (f : BlockFault) : (s.setFault f).txlog = s.txlog := rfl
@[simp] theorem setFault_now (f : BlockFault) : (s.setFault f).now = s.now := rfl
@[simp] theorem setFault_bitBufs (f : BlockFault) : (s.setFault f).bitBufs = s.bitBufs := rfl
@[simp] theorem setFault_wordBufs (f : BlockFault) : (s.setFault f).wordBufs = s.wordBufs := rfl
@[simp] theorem setFault_schedule (f : BlockFault) : (s.setFault f).schedule = s.schedule := rfl
@[simp] theorem setFault_portTrace (f : BlockFault) : (s.setFault f).portTrace = s.portTrace := rfl
@[simp] theorem setFault_retval (f : BlockFault) : (s.setFault f).retval = s.retval := rfl

@[simp] theorem setResult_params (r : Result) : (s.setResult r).params = s.params := rfl
@[simp] theorem setResult_charTo (r : Result) : (s.setResult r).charTo = s.charTo := rfl
@[simp] theorem setResult_frameTo (r : Result) : (s.setResult r).frameTo = s.frameTo := rfl
@[simp] theorem setResult_respTo (r : Result) : (s.setResult r).respTo = s.respTo := rfl
@[simp] theorem setResult_exc (r : Result) : (s.setResult r).exc = s.exc := rfl
@[simp] theorem setResult_buf (r : Result) : (s.setResult r).buf = s.buf := rfl
@[simp] theorem setResult_phase (r : Result) : (s.setResult r).phase = s.phase := rfl
@[simp] theorem setResult_tMark (r : Result) : (s.setResult r).tMark = s.tMark := rfl
@[simp] theorem setResult_txLen (r : Result) : (s.setResult r).txLen = s.txLen := rfl
@[simp] theorem setResult_rxLen (r : Result) : (s.setResult r).rxLen = s.rxLen := rfl
@[simp] theorem setResult_req (r : Result) : (s.setResult r).req = s.req := rfl
@[simp] theorem setResult_result (r : Result) : (s.setResult r).result = r := rfl
@[simp] theorem setResult_fault (r : Result) : (s.setResult r).fault = s.fault := rfl
@[simp] theorem setResult_de (r : Result) : (s.setResult r).de = s.de := rfl
@[simp] theorem setResult_rxq (r : Result) : (s.setResult r).rxq = s.rxq := rfl
@[simp] theorem setResult_txlog (r : Result) : (s.setResult r).txlog = s.txlog := rfl
@[simp] theorem setResult_now (r : Result) : (s.setResult r).now = s.now := rfl
@[simp] theorem setResult_bitBufs (r : Result) : (s.setResult r).bitBufs = s.bitBufs := rfl
@[simp] theorem setResult_wordBufs (r : Result) : (s.setResult r).wordBufs = s.wordBufs := rfl
@[simp] theorem setResult_schedule (r : Result) : (s.setResult r).schedule = s.schedule := rfl
@[simp] theorem setResult_portTrace (r : Result) : (s.setResult r).portTrace = s.portTrace := rfl
@[simp] theorem setResult_retval (r : Result) : (s.setResult r).retval = s.retval := rfl

@[simp] theorem setPhase_params (p : Phase) : (s.setPhase p).params = s.params := rfl
@[simp] theorem setPhase_charTo (p : Phase) : (s.setPhase p).charTo = s.charTo := rfl
@[simp] theorem setPhase_frameTo (p : Phase) : (s.setPhase p).frameTo = s.frameTo := rfl
@[simp] theorem setPhase_respTo (p : Phase) : (s.setPhase p).respTo = s.respTo := rfl
@[simp] theorem setPhase_exc (p : Phase) : (s.setPhase p).exc = s.exc := rfl
@[simp] theorem setPhase_buf (p : Phase) : (s.setPhase p).buf = s.buf := rfl
@[simp] theorem setPhase_phase (p : Phase) : (s.setPhase p).phase = p := rfl
@[simp] theorem setPhase_tMark (p : Phase) : (s.setPhase p).tMark = s.tMark := rfl
@[simp] theorem setPhase_txLen (p : Phase) : (s.setPhase p).txLen = s.txLen := rfl
@[simp] theorem setPhase_rxLen (p : Phase) : (s.setPhase p).rxLen = s.rxLen := rfl
@[simp] theorem setPhase_req (p : Phase) : (s.setPhase p).req = s.req := rfl
@[simp] theorem setPhase_result (p : Phase) : (s.setPhase p).result = s.result := rfl
@[simp] theorem setPhase_fault (p : Phase) : (s.setPhase p).fault = s.fault := rfl
@[simp] theorem setPhase_de (p : Phase) : (s.setPhase p).de = s.de := rfl
@[simp] theorem setPhase_rxq (p : Phase) : (s.setPhase p).rxq = s.rxq := rfl
@[simp] theorem setPhase_txlog (p : Phase) : (s.setPhase p).txlog = s.txlog := rfl
@[simp] theorem setPhase_now (p : Phase) : (s.setPhase p).now = s.now := rfl
@[simp] theorem setPhase_bitBufs (p : Phase) : (s.setPhase p).bitBufs = s.bitBufs := rfl
@[simp] theorem setPhase_wordBufs (p : Phase) : (s.setPhase p).wordBufs = s.wordBufs := rfl
@[simp] theorem setPhase_schedule (p : Phase) : (s.setPhase p).schedule = s.schedule := rfl
@[simp] theorem setPhase_portTrace (p : Phase) : (s.setPhase p).portTrace = s.portTrace := rfl
@[simp] theorem setPhase_retval (p : Phase) : (s.setPhase p).retval = s.retval := rfl

@[simp] theorem setMark_params (t : Nat) : (s.setMark t).params = s.params := rfl
@[simp] theorem setMark_charTo (t : Nat) : (s.setMark t).charTo = s.charTo := rfl
@[simp] theorem setMark_frameTo (t : Nat) : (s.setMark t).frameTo = s.frameTo := rfl
@[simp] theorem setMark_respTo (t : Nat) : (s.setMark t).respTo = s.respTo := rfl
@[simp] theorem setMark_exc (t : Nat) : (s.setMark t).exc = s.exc := rfl
@[simp] theorem setMark_buf (t : Nat) : (s.setMark t).buf = s.buf := rfl
@[simp] theorem setMark_phase (t : Nat) : (s.setMark t).phase = s.phase := rfl
@[simp] theorem setMark_tMark (t : Nat) : (s.setMark t).tMark = some t := rfl
@[simp] theorem setMark_txLen (t : Nat) : (s.setMark t).txLen = s.txLen := rfl
@[simp] theorem setMark_rxLen (t : Nat) : (s.setMark t).rxLen = s.rxLen := rfl
@[simp] theorem setMark_req (t : Nat) : (s.setMark t).req = s.req := rfl
@[simp] theorem setMark_result (t : Nat) : (s.setMark t).result = s.result := rfl
@[simp] theorem setMark_fault (t : Nat) : (s.setMark t).fault = s.fault := rfl
@[simp] theorem setMark_de (t : Nat) : (s.setMark t).de = s.de := rfl
@[simp] theorem setMark_rxq (t : Nat) : (s.setMark t).rxq = s.rxq := rfl
@[simp] theorem setMark_txlog (t : Nat) : (s.setMark t).txlog = s.txlog := rfl
@[simp] theorem setMark_now (t : Nat) : (s.setMark t).now = s.now := rfl
@[simp] theorem setMark_bitBufs (t : Nat) : (s.setMark t).bitBufs = s.bitBufs := rfl
@[simp] theorem setMark_wordBufs (t : Nat) : (s.setMark t).wordBufs = s.wordBufs := rfl
@[simp] theorem setMark_schedule (t : Nat) : (s.setMark t).schedule = s.schedule := rfl
@[simp] theorem setMark_portTrace (t : Nat) : (s.setMark t).portTrace = s.portTrace := rfl
@[simp] theorem setMark_retval (t : Nat) : (s.setMark t).retval = s.retval := rfl

@[simp] theorem setTxLen_params (n : Nat) : (s.setTxLen n).params = s.params := rfl
@[simp] theorem setTxLen_charTo (n : Nat) : (s.setTxLen n).charTo = s.charTo := rfl
@[simp] theorem setTxLen_frameTo (n : Nat) : (s.setTxLen n).frameTo = s.frameTo := rfl
@[simp] theorem setTxLen_respTo (n : Nat) : (s.setTxLen n).respTo = s.respTo := rfl
@[simp] theorem setTxLen_exc (n : Nat) : (s.setTxLen n).exc = s.exc := rfl
@[simp] theorem setTxLen_buf (n : Nat) : (s.setTxLen n).buf = s.buf := rfl
@[simp] theorem setTxLen_phase (n : Nat) : (s.setTxLen n).phase = s.phase := rfl
@[simp] theorem setTxLen_tMark (n : Nat) : (s.setTxLen n).tMark = s.tMark := rfl
@[simp] theorem setTxLen_txLen (n : Nat) : (s.setTxLen n).txLen = n := rfl
@[simp] theorem setTxLen_rxLen (n : Nat) : (s.setTxLen n).rxLen = s.rxLen := rfl
@[simp] theorem setTxLen_req (n : Nat) : (s.setTxLen n).req = s.req := rfl
@[simp] theorem setTxLen_result (n : Nat) : (s.setTxLen n).result = s.result := rfl
@[simp] theorem setTxLen_fault (n : Nat) : (s.setTxLen n).fault = s.fault := rfl
@[simp] theorem setTxLen_de (n : Nat) : (s.setTxLen n).de = s.de := rfl
@[simp] theorem setTxLen_rxq (n : Nat) : (s.setTxLen n).rxq = s.rxq := rfl
@[simp] theorem setTxLen_txlog (n : Nat) : (s.setTxLen n).txlog = s.txlog := rfl
@[simp] theorem setTxLen_now (n : Nat) : (s.setTxLen n).now = s.now := rfl
@[simp] theorem setTxLen_bitBufs (n : Nat) : (s.setTxLen n).bitBufs = s.bitBufs := rfl
@[simp] theorem setTxLen_wordBufs (n : Nat) : (s.setTxLen n).wordBufs = s.wordBufs := rfl
@[simp] theorem setTxLen_schedule (n : Nat) : (s.setTxLen n).schedule = s.schedule := rfl
@[simp] theorem setTxLen_portTrace (n : Nat) : (s.setTxLen n).portTrace = s.portTrace := rfl
@[simp] theorem setTxLen_retval (n : Nat) : (s.setTxLen n).retval = s.retval := rfl

@[simp] theorem setRxLen_params (n : Nat) : (s.setRxLen n).params = s.params := rfl
@[simp] theorem setRxLen_charTo (n : Nat) : (s.setRxLen n).charTo = s.charTo := rfl
@[simp] theorem setRxLen_frameTo (n : Nat) : (s.setRxLen n).frameTo = s.frameTo := rfl
@[simp] theorem setRxLen_respTo (n : Nat) : (s.setRxLen n).respTo = s.respTo := rfl
@[simp] theorem setRxLen_exc (n : Nat) : (s.setRxLen n).exc = s.exc := rfl
@[simp] theorem setRxLen_buf (n : Nat) : (s.setRxLen n).buf = s.buf := rfl
@[simp] theorem setRxLen_phase (n : Nat) : (s.setRxLen n).phase = s.phase := rfl
@[simp] theorem setRxLen_tMark (n : Nat) : (s.setRxLen n).tMark = s.tMark := rfl
@[simp] theorem setRxLen_txLen (n : Nat) : (s.setRxLen n).txLen = s.txLen := rfl
@[simp] theorem setRxLen_rxLen (n : Nat) : (s.setRxLen n).rxLen = n := rfl
@[simp] theorem setRxLen_req (n : Nat) : (s.setRxLen n).req = s.req := rfl
@[simp] theorem setRxLen_result (n : Nat) : (s.setRxLen n).result = s.result := rfl
@[simp] theorem setRxLen_fault (n : Nat) : (s.setRxLen n).fault = s.fault := rfl
@[simp] theorem setRxLen_de (n : Nat) : (s.setRxLen n).de = s.de := rfl
@[simp] theorem setRxLen_rxq (n : Nat) : (s.setRxLen n).rxq = s.rxq := rfl
@[simp] theorem setRxLen_txlog (n : Nat) : (s.setRxLen n).txlog = s.txlog := rfl
@[simp] theorem setRxLen_now (n : Nat) : (s.setRxLen n).now = s.now := rfl
@[simp] theorem setRxLen_bitBufs (n : Nat) : (s.setRxLen n).bitBufs = s.bitBufs := rfl
@[simp] theorem setRxLen_wordBufs (n : Nat) : (s.setRxLen n).wordBufs = s.wordBufs := rfl
@[simp] theorem setRxLen_schedule (n : Nat) : (s.setRxLen n).schedule = s.schedule := rfl
@[simp] theorem setRxLen_portTrace (n : Nat) : (s.setRxLen n).portTrace = s.portTrace := rfl
@[simp] theorem setRxLen_retval (n : Nat) : (s.setRxLen n).retval = s.retval := rfl

@[simp] theorem setReq_params (r : ReqContext) : (s.setReq r).params = s.params := rfl
@[simp] theorem setReq_charTo (r : ReqContext) : (s.setReq r).charTo = s.charTo := rfl
@[simp] theorem setReq_frameTo (r : ReqContext) : (s.setReq r).frameTo = s.frameTo := rfl
@[simp] theorem setReq_respTo (r : ReqContext) : (s.setReq r).respTo = s.respTo := rfl
@[simp] theorem setReq_exc (r : ReqContext) : (s.setReq r).exc = s.exc := rfl
@[simp] theorem setReq_buf (r : ReqContext) : (s.setReq r).buf = s.buf := rfl
@[simp] theorem setReq_phase (r : ReqContext) : (s.setReq r).phase = s.phase := rfl
@[simp] theorem setReq_tMark (r : ReqContext) : (s.setReq r).tMark = s.tMark := rfl
@[simp] theorem setReq_txLen (r : ReqContext) : (s.setReq r).txLen = s.txLen := rfl
@[simp] theorem setReq_rxLen (r : ReqContext) : (s.setReq r).rxLen = s.rxLen := rfl
@[simp] theorem setReq_req (r : ReqContext) : (s.setReq r).req = some r := rfl
@[simp] theorem setReq_result (r : ReqContext) : (s.setReq r).result = s.result := rfl
@[simp] theorem setReq_fault (r : ReqContext) : (s.setReq r).fault = s.fault := rfl
@[simp] theorem setReq_de (r : ReqContext) : (s.setReq r).de = s.de := rfl
@[simp] theorem setReq_rxq (r : ReqContext) : (s.setReq r).rxq = s.rxq := rfl
@[simp] theorem setReq_txlog (r : ReqContext) : (s.setReq r).txlog = s.txlog := rfl
@[simp] theorem setReq_now (r : ReqContext) : (s.setReq r).now = s.now := rfl
@[simp] theorem setReq_bitBufs (r : ReqContext) : (s.setReq r).bitBufs = s.bitBufs := rfl
@[simp] theorem setReq_wordBufs (r : ReqContext) : (s.setReq r).wordBufs = s.wordBufs := rfl
@[simp] theorem setReq_schedule (r : ReqContext) : (s.setReq r).schedule = s.schedule := rfl
@[simp] theorem setReq_portTrace (r : ReqContext) : (s.setReq r).portTrace = s.portTrace := rfl
@[simp] theorem setReq_retval (r : ReqContext) : (s.setReq r).retval = s.retval := rfl

@[simp] theorem setExc_params (c : Byte) : (s.setExc c).params = s.params := rfl
@[simp] theorem setExc_charTo (c : Byte) : (s.setExc c).charTo = s.charTo := rfl
@[simp] theorem setExc_frameTo (c : Byte) : (s.setExc c).frameTo = s.frameTo := rfl
@[simp] theorem setExc_respTo (c : Byte) : (s.setExc c).respTo = s.respTo := rfl
@[simp] theorem setExc_exc (c : Byte) : (s.setExc c).exc = c := rfl
@[simp] theorem setExc_buf (c : Byte) : (s.setExc c).buf = s.buf := rfl
@[simp] theorem setExc_phase (c : Byte) : (s.setExc c).phase = s.phase := rfl
@[simp] theorem setExc_tMark (c : Byte) : (s.setExc c).tMark = s.tMark := rfl
@[simp] theorem setExc_txLen (c : Byte) : (s.setExc c).txLen = s.txLen := rfl
@[simp] theorem setExc_rxLen (c : Byte) : (s.setExc c).rxLen = s.rxLen := rfl
@[simp] theorem setExc_req (c : Byte) : (s.setExc c).req = s.req := rfl
@[simp] theorem setExc_result (c : Byte) : (s.setExc c).result = s.result := rfl
@[simp] theorem setExc_fault (c : Byte) : (s.setExc c).fault = s.fault := rfl
@[simp] theorem setExc_de (c : Byte) : (s.setExc c).de = s.de := rfl
@[simp] theorem setExc_rxq (c : Byte) : (s.setExc c).rxq = s.rxq := rfl
@[simp] theorem setExc_txlog (c : Byte) : (s.setExc c).txlog = s.txlog := rfl
@[simp] theorem setExc_now (c : Byte) : (s.setExc c).now = s.now := rfl
@[simp] theorem setExc_bitBufs (c : Byte) : (s.setExc c).bitBufs = s.bitBufs := rfl
@[simp] theorem setExc_wordBufs (c : Byte) : (s.setExc c).wordBufs = s.wordBufs := rfl
@[simp] theorem setExc_schedule (c : Byte) : (s.setExc c).schedule = s.schedule := rfl
@[simp] theorem setExc_portTrace (c : Byte) : (s.setExc c).portTrace = s.portTrace := rfl
@[simp] theorem setExc_retval (c : Byte) : (s.setExc c).retval = s.retval := rfl

@[simp] theorem setTimeouts_params (r : Option (Word32 × Word32)) : (s.setTimeouts r).params = s.params := rfl
@[simp] theorem setTimeouts_charTo (r : Option (Word32 × Word32)) : (s.setTimeouts r).charTo = r.map Prod.fst := rfl
@[simp] theorem setTimeouts_frameTo (r : Option (Word32 × Word32)) : (s.setTimeouts r).frameTo = r.map Prod.snd := rfl
@[simp] theorem setTimeouts_respTo (r : Option (Word32 × Word32)) : (s.setTimeouts r).respTo = s.respTo := rfl
@[simp] theorem setTimeouts_exc (r : Option (Word32 × Word32)) : (s.setTimeouts r).exc = s.exc := rfl
@[simp] theorem setTimeouts_buf (r : Option (Word32 × Word32)) : (s.setTimeouts r).buf = s.buf := rfl
@[simp] theorem setTimeouts_phase (r : Option (Word32 × Word32)) : (s.setTimeouts r).phase = s.phase := rfl
@[simp] theorem setTimeouts_tMark (r : Option (Word32 × Word32)) : (s.setTimeouts r).tMark = s.tMark := rfl
@[simp] theorem setTimeouts_txLen (r : Option (Word32 × Word32)) : (s.setTimeouts r).txLen = s.txLen := rfl
@[simp] theorem setTimeouts_rxLen (r : Option (Word32 × Word32)) : (s.setTimeouts r).rxLen = s.rxLen := rfl
@[simp] theorem setTimeouts_req (r : Option (Word32 × Word32)) : (s.setTimeouts r).req = s.req := rfl
@[simp] theorem setTimeouts_result (r : Option (Word32 × Word32)) : (s.setTimeouts r).result = s.result := rfl
@[simp] theorem setTimeouts_fault (r : Option (Word32 × Word32)) : (s.setTimeouts r).fault = s.fault := rfl
@[simp] theorem setTimeouts_de (r : Option (Word32 × Word32)) : (s.setTimeouts r).de = s.de := rfl
@[simp] theorem setTimeouts_rxq (r : Option (Word32 × Word32)) : (s.setTimeouts r).rxq = s.rxq := rfl
@[simp] theorem setTimeouts_txlog (r : Option (Word32 × Word32)) : (s.setTimeouts r).txlog = s.txlog := rfl
@[simp] theorem setTimeouts_now (r : Option (Word32 × Word32)) : (s.setTimeouts r).now = s.now := rfl
@[simp] theorem setTimeouts_bitBufs (r : Option (Word32 × Word32)) : (s.setTimeouts r).bitBufs = s.bitBufs := rfl
@[simp] theorem setTimeouts_wordBufs (r : Option (Word32 × Word32)) : (s.setTimeouts r).wordBufs = s.wordBufs := rfl
@[simp] theorem setTimeouts_schedule (r : Option (Word32 × Word32)) : (s.setTimeouts r).schedule = s.schedule := rfl
@[simp] theorem setTimeouts_portTrace (r : Option (Word32 × Word32)) : (s.setTimeouts r).portTrace = s.portTrace := rfl
@[simp] theorem setTimeouts_retval (r : Option (Word32 × Word32)) : (s.setTimeouts r).retval = s.retval := rfl

@[simp] theorem setRespTo_params (t : Word32) : (s.setRespTo t).params = s.params := rfl
@[simp] theorem setRespTo_charTo (t : Word32) : (s.setRespTo t).charTo = s.charTo := rfl
@[simp] theorem setRespTo_frameTo (t : Word32) : (s.setRespTo t).frameTo = s.frameTo := rfl
@[simp] theorem setRespTo_respTo (t : Word32) : (s.setRespTo t).respTo = t := rfl
@[simp] theorem setRespTo_exc (t : Word32) : (s.setRespTo t).exc = s.exc := rfl
@[simp] theorem setRespTo_buf (t : Word32) : (s.setRespTo t).buf = s.buf := rfl
@[simp] theorem setRespTo_phase (t : Word32) : (s.setRespTo t).phase = s.phase := rfl
@[simp] theorem setRespTo_tMark (t : Word32) : (s.setRespTo t).tMark = s.tMark := rfl
@[simp] theorem setRespTo_txLen (t : Word32) : (s.setRespTo t).txLen = s.txLen := rfl
@[simp] theorem setRespTo_rxLen (t : Word32) : (s.setRespTo t).rxLen = s.rxLen := rfl
@[simp] theorem setRespTo_req (t : Word32) : (s.setRespTo t).req = s.req := rfl
@[simp] theorem setRespTo_result (t : Word32) : (s.setRespTo t).result = s.result := rfl
@[simp] theorem setRespTo_fault (t : Word32) : (s.setRespTo t).fault = s.fault := rfl
@[simp] theorem setRespTo_de (t : Word32) : (s.setRespTo t).de = s.de := rfl
@[simp] theorem setRespTo_rxq (t : Word32) : (s.setRespTo t).rxq = s.rxq := rfl
@[simp] theorem setRespTo_txlog (t : Word32) : (s.setRespTo t).txlog = s.txlog := rfl
@[simp] theorem setRespTo_now (t : Word32) : (s.setRespTo t).now = s.now := rfl
@[simp] theorem setRespTo_bitBufs (t : Word32) : (s.setRespTo t).bitBufs = s.bitBufs := rfl
@[simp] theorem setRespTo_wordBufs (t : Word32) : (s.setRespTo t).wordBufs = s.wordBufs := rfl
@[simp] theorem setRespTo_schedule (t : Word32) : (s.setRespTo t).schedule = s.schedule := rfl
@[simp] theorem setRespTo_portTrace (t : Word32) : (s.setRespTo t).portTrace = s.portTrace := rfl
@[simp] theorem setRespTo_retval (t : Word32) : (s.setRespTo t).retval = s.retval := rfl

@[simp] theorem setBuf_params (a : Nat) (v : List Byte) : (s.setBuf a v).params = s.params := rfl
@[simp] theorem setBuf_charTo (a : Nat) (v : List Byte) : (s.setBuf a v).charTo = s.charTo := rfl
@[simp] theorem setBuf_frameTo (a : Nat) (v : List Byte) : (s.setBuf a v).frameTo = s.frameTo := rfl
@[simp] theorem setBuf_respTo (a : Nat) (v : List Byte) : (s.setBuf a v).respTo = s.respTo := rfl
@[simp] theorem setBuf_exc (a : Nat) (v : List Byte) : (s.setBuf a v).exc = s.exc := rfl
@[simp] theorem setBuf_buf (a : Nat) (v : List Byte) : (s.setBuf a v).buf = Cells.writeList s.buf a v := rfl
@[simp] theorem setBuf_phase (a : Nat) (v : List Byte) : (s.setBuf a v).phase = s.phase := rfl
@[simp] theorem setBuf_tMark (a : Nat) (v : List Byte) : (s.setBuf a v).tMark = s.tMark := rfl
@[simp] theorem setBuf_txLen (a : Nat) (v : List Byte) : (s.setBuf a v).txLen = s.txLen := rfl
@[simp] theorem setBuf_rxLen (a : Nat) (v : List Byte) : (s.setBuf a v).rxLen = s.rxLen := rfl
@[simp] theorem setBuf_req (a : Nat) (v : List Byte) : (s.setBuf a v).req = s.req := rfl
@[simp] theorem setBuf_result (a : Nat) (v : List Byte) : (s.setBuf a v).result = s.result := rfl
@[simp] theorem setBuf_fault (a : Nat) (v : List Byte) : (s.setBuf a v).fault = s.fault := rfl
@[simp] theorem setBuf_de (a : Nat) (v : List Byte) : (s.setBuf a v).de = s.de := rfl
@[simp] theorem setBuf_rxq (a : Nat) (v : List Byte) : (s.setBuf a v).rxq = s.rxq := rfl
@[simp] theorem setBuf_txlog (a : Nat) (v : List Byte) : (s.setBuf a v).txlog = s.txlog := rfl
@[simp] theorem setBuf_now (a : Nat) (v : List Byte) : (s.setBuf a v).now = s.now := rfl
@[simp] theorem setBuf_bitBufs (a : Nat) (v : List Byte) : (s.setBuf a v).bitBufs = s.bitBufs := rfl
@[simp] theorem setBuf_wordBufs (a : Nat) (v : List Byte) : (s.setBuf a v).wordBufs = s.wordBufs := rfl
@[simp] theorem setBuf_schedule (a : Nat) (v : List Byte) : (s.setBuf a v).schedule = s.schedule := rfl
@[simp] theorem setBuf_portTrace (a : Nat) (v : List Byte) : (s.setBuf a v).portTrace = s.portTrace := rfl
@[simp] theorem setBuf_retval (a : Nat) (v : List Byte) : (s.setBuf a v).retval = s.retval := rfl

@[simp] theorem setRxq_params (q : List Byte) : (s.setRxq q).params = s.params := rfl
@[simp] theorem setRxq_charTo (q : List Byte) : (s.setRxq q).charTo = s.charTo := rfl
@[simp] theorem setRxq_frameTo (q : List Byte) : (s.setRxq q).frameTo = s.frameTo := rfl
@[simp] theorem setRxq_respTo (q : List Byte) : (s.setRxq q).respTo = s.respTo := rfl
@[simp] theorem setRxq_exc (q : List Byte) : (s.setRxq q).exc = s.exc := rfl
@[simp] theorem setRxq_buf (q : List Byte) : (s.setRxq q).buf = s.buf := rfl
@[simp] theorem setRxq_phase (q : List Byte) : (s.setRxq q).phase = s.phase := rfl
@[simp] theorem setRxq_tMark (q : List Byte) : (s.setRxq q).tMark = s.tMark := rfl
@[simp] theorem setRxq_txLen (q : List Byte) : (s.setRxq q).txLen = s.txLen := rfl
@[simp] theorem setRxq_rxLen (q : List Byte) : (s.setRxq q).rxLen = s.rxLen := rfl
@[simp] theorem setRxq_req (q : List Byte) : (s.setRxq q).req = s.req := rfl
@[simp] theorem setRxq_result (q : List Byte) : (s.setRxq q).result = s.result := rfl
@[simp] theorem setRxq_fault (q : List Byte) : (s.setRxq q).fault = s.fault := rfl
@[simp] theorem setRxq_de (q : List Byte) : (s.setRxq q).de = s.de := rfl
@[simp] theorem setRxq_rxq (q : List Byte) : (s.setRxq q).rxq = q := rfl
@[simp] theorem setRxq_txlog (q : List Byte) : (s.setRxq q).txlog = s.txlog := rfl
@[simp] theorem setRxq_now (q : List Byte) : (s.setRxq q).now = s.now := rfl
@[simp] theorem setRxq_bitBufs (q : List Byte) : (s.setRxq q).bitBufs = s.bitBufs := rfl
@[simp] theorem setRxq_wordBufs (q : List Byte) : (s.setRxq q).wordBufs = s.wordBufs := rfl
@[simp] theorem setRxq_schedule (q : List Byte) : (s.setRxq q).schedule = s.schedule := rfl
@[simp] theorem setRxq_portTrace (q : List Byte) : (s.setRxq q).portTrace = s.portTrace := rfl
@[simp] theorem setRxq_retval (q : List Byte) : (s.setRxq q).retval = s.retval := rfl

@[simp] theorem transportWrite_params (f : List Byte) : (s.transportWrite f).params = s.params := rfl
@[simp] theorem transportWrite_charTo (f : List Byte) : (s.transportWrite f).charTo = s.charTo := rfl
@[simp] theorem transportWrite_frameTo (f : List Byte) : (s.transportWrite f).frameTo = s.frameTo := rfl
@[simp] theorem transportWrite_respTo (f : List Byte) : (s.transportWrite f).respTo = s.respTo := rfl
@[simp] theorem transportWrite_exc (f : List Byte) : (s.transportWrite f).exc = s.exc := rfl
@[simp] theorem transportWrite_buf (f : List Byte) : (s.transportWrite f).buf = s.buf := rfl
@[simp] theorem transportWrite_phase (f : List Byte) : (s.transportWrite f).phase = s.phase := rfl
@[simp] theorem transportWrite_tMark (f : List Byte) : (s.transportWrite f).tMark = s.tMark := rfl
@[simp] theorem transportWrite_txLen (f : List Byte) : (s.transportWrite f).txLen = s.txLen := rfl
@[simp] theorem transportWrite_rxLen (f : List Byte) : (s.transportWrite f).rxLen = s.rxLen := rfl
@[simp] theorem transportWrite_req (f : List Byte) : (s.transportWrite f).req = s.req := rfl
@[simp] theorem transportWrite_result (f : List Byte) : (s.transportWrite f).result = s.result := rfl
@[simp] theorem transportWrite_fault (f : List Byte) : (s.transportWrite f).fault = s.fault := rfl
@[simp] theorem transportWrite_de (f : List Byte) : (s.transportWrite f).de = s.de := rfl
@[simp] theorem transportWrite_rxq (f : List Byte) : (s.transportWrite f).rxq = s.rxq := rfl
@[simp] theorem transportWrite_txlog (f : List Byte) : (s.transportWrite f).txlog = s.txlog ++ [f] := rfl
@[simp] theorem transportWrite_now (f : List Byte) : (s.transportWrite f).now = s.now := rfl
@[simp] theorem transportWrite_bitBufs (f : List Byte) : (s.transportWrite f).bitBufs = s.bitBufs := rfl
@[simp] theorem transportWrite_wordBufs (f : List Byte) : (s.transportWrite f).wordBufs = s.wordBufs := rfl
@[simp] theorem transportWrite_schedule (f : List Byte) : (s.transportWrite f).schedule = s.schedule := rfl
@[simp] theorem transportWrite_portTrace (f : List Byte) : (s.transportWrite f).portTrace = s.portTrace ++ [.write f] := rfl
@[simp] theorem transportWrite_retval (f : List Byte) : (s.transportWrite f).retval = s.retval := rfl

@[simp] theorem transportFlush_params : (s.transportFlush).params = s.params := rfl
@[simp] theorem transportFlush_charTo : (s.transportFlush).charTo = s.charTo := rfl
@[simp] theorem transportFlush_frameTo : (s.transportFlush).frameTo = s.frameTo := rfl
@[simp] theorem transportFlush_respTo : (s.transportFlush).respTo = s.respTo := rfl
@[simp] theorem transportFlush_exc : (s.transportFlush).exc = s.exc := rfl
@[simp] theorem transportFlush_buf : (s.transportFlush).buf = s.buf := rfl
@[simp] theorem transportFlush_phase : (s.transportFlush).phase = s.phase := rfl
@[simp] theorem transportFlush_tMark : (s.transportFlush).tMark = s.tMark := rfl
@[simp] theorem transportFlush_txLen : (s.transportFlush).txLen = s.txLen := rfl
@[simp] theorem transportFlush_rxLen : (s.transportFlush).rxLen = s.rxLen := rfl
@[simp] theorem transportFlush_req : (s.transportFlush).req = s.req := rfl
@[simp] theorem transportFlush_result : (s.transportFlush).result = s.result := rfl
@[simp] theorem transportFlush_fault : (s.transportFlush).fault = s.fault := rfl
@[simp] theorem transportFlush_de : (s.transportFlush).de = s.de := rfl
@[simp] theorem transportFlush_rxq : (s.transportFlush).rxq = s.rxq := rfl
@[simp] theorem transportFlush_txlog : (s.transportFlush).txlog = s.txlog := rfl
@[simp] theorem transportFlush_now : (s.transportFlush).now = s.now := rfl
@[simp] theorem transportFlush_bitBufs : (s.transportFlush).bitBufs = s.bitBufs := rfl
@[simp] theorem transportFlush_wordBufs : (s.transportFlush).wordBufs = s.wordBufs := rfl
@[simp] theorem transportFlush_schedule : (s.transportFlush).schedule = s.schedule := rfl
@[simp] theorem transportFlush_portTrace : (s.transportFlush).portTrace = s.portTrace ++ [.flush] := rfl
@[simp] theorem transportFlush_retval : (s.transportFlush).retval = s.retval := rfl

@[simp] theorem driveDE_params (b : Bool) : (s.driveDE b).params = s.params := rfl
@[simp] theorem driveDE_charTo (b : Bool) : (s.driveDE b).charTo = s.charTo := rfl
@[simp] theorem driveDE_frameTo (b : Bool) : (s.driveDE b).frameTo = s.frameTo := rfl
@[simp] theorem driveDE_respTo (b : Bool) : (s.driveDE b).respTo = s.respTo := rfl
@[simp] theorem driveDE_exc (b : Bool) : (s.driveDE b).exc = s.exc := rfl
@[simp] theorem driveDE_buf (b : Bool) : (s.driveDE b).buf = s.buf := rfl
@[simp] theorem driveDE_phase (b : Bool) : (s.driveDE b).phase = s.phase := rfl
@[simp] theorem driveDE_tMark (b : Bool) : (s.driveDE b).tMark = s.tMark := rfl
@[simp] theorem driveDE_txLen (b : Bool) : (s.driveDE b).txLen = s.txLen := rfl
@[simp] theorem driveDE_rxLen (b : Bool) : (s.driveDE b).rxLen = s.rxLen := rfl
@[simp] theorem driveDE_req (b : Bool) : (s.driveDE b).req = s.req := rfl
@[simp] theorem driveDE_result (b : Bool) : (s.driveDE b).result = s.result := rfl
@[simp] theorem driveDE_fault (b : Bool) : (s.driveDE b).fault = s.fault := rfl
@[simp] theorem driveDE_de (b : Bool) : (s.driveDE b).de = if s.params.hasDE then b else s.de := rfl
@[simp] theorem driveDE_rxq (b : Bool) : (s.driveDE b).rxq = s.rxq := rfl
@[simp] theorem driveDE_txlog (b : Bool) : (s.driveDE b).txlog = s.txlog := rfl
@[simp] theorem driveDE_now (b : Bool) : (s.driveDE b).now = s.now := rfl
@[simp] theorem driveDE_bitBufs (b : Bool) : (s.driveDE b).bitBufs = s.bitBufs := rfl
@[simp] theorem driveDE_wordBufs (b : Bool) : (s.driveDE b).wordBufs = s.wordBufs := rfl
@[simp] theorem driveDE_schedule (b : Bool) : (s.driveDE b).schedule = s.schedule := rfl
@[simp] theorem driveDE_portTrace (b : Bool) : (s.driveDE b).portTrace = if s.params.hasDE then s.portTrace ++ [.de b] else s.portTrace := rfl
@[simp] theorem driveDE_retval (b : Bool) : (s.driveDE b).retval = s.retval := rfl

@[simp] theorem setBits_params (n : BufName) (v : List Bool) : (s.setBits n v).params = s.params := rfl
@[simp] theorem setBits_charTo (n : BufName) (v : List Bool) : (s.setBits n v).charTo = s.charTo := rfl
@[simp] theorem setBits_frameTo (n : BufName) (v : List Bool) : (s.setBits n v).frameTo = s.frameTo := rfl
@[simp] theorem setBits_respTo (n : BufName) (v : List Bool) : (s.setBits n v).respTo = s.respTo := rfl
@[simp] theorem setBits_exc (n : BufName) (v : List Bool) : (s.setBits n v).exc = s.exc := rfl
@[simp] theorem setBits_buf (n : BufName) (v : List Bool) : (s.setBits n v).buf = s.buf := rfl
@[simp] theorem setBits_phase (n : BufName) (v : List Bool) : (s.setBits n v).phase = s.phase := rfl
@[simp] theorem setBits_tMark (n : BufName) (v : List Bool) : (s.setBits n v).tMark = s.tMark := rfl
@[simp] theorem setBits_txLen (n : BufName) (v : List Bool) : (s.setBits n v).txLen = s.txLen := rfl
@[simp] theorem setBits_rxLen (n : BufName) (v : List Bool) : (s.setBits n v).rxLen = s.rxLen := rfl
@[simp] theorem setBits_req (n : BufName) (v : List Bool) : (s.setBits n v).req = s.req := rfl
@[simp] theorem setBits_result (n : BufName) (v : List Bool) : (s.setBits n v).result = s.result := rfl
@[simp] theorem setBits_fault (n : BufName) (v : List Bool) : (s.setBits n v).fault = s.fault := rfl
@[simp] theorem setBits_de (n : BufName) (v : List Bool) : (s.setBits n v).de = s.de := rfl
@[simp] theorem setBits_rxq (n : BufName) (v : List Bool) : (s.setBits n v).rxq = s.rxq := rfl
@[simp] theorem setBits_txlog (n : BufName) (v : List Bool) : (s.setBits n v).txlog = s.txlog := rfl
@[simp] theorem setBits_now (n : BufName) (v : List Bool) : (s.setBits n v).now = s.now := rfl
@[simp] theorem setBits_bitBufs (n : BufName) (v : List Bool) : (s.setBits n v).bitBufs = Cells.write s.bitBufs n v := rfl
@[simp] theorem setBits_wordBufs (n : BufName) (v : List Bool) : (s.setBits n v).wordBufs = s.wordBufs := rfl
@[simp] theorem setBits_schedule (n : BufName) (v : List Bool) : (s.setBits n v).schedule = s.schedule := rfl
@[simp] theorem setBits_portTrace (n : BufName) (v : List Bool) : (s.setBits n v).portTrace = s.portTrace := rfl
@[simp] theorem setBits_retval (n : BufName) (v : List Bool) : (s.setBits n v).retval = s.retval := rfl

@[simp] theorem setWords_params (n : BufName) (v : List Word16) : (s.setWords n v).params = s.params := rfl
@[simp] theorem setWords_charTo (n : BufName) (v : List Word16) : (s.setWords n v).charTo = s.charTo := rfl
@[simp] theorem setWords_frameTo (n : BufName) (v : List Word16) : (s.setWords n v).frameTo = s.frameTo := rfl
@[simp] theorem setWords_respTo (n : BufName) (v : List Word16) : (s.setWords n v).respTo = s.respTo := rfl
@[simp] theorem setWords_exc (n : BufName) (v : List Word16) : (s.setWords n v).exc = s.exc := rfl
@[simp] theorem setWords_buf (n : BufName) (v : List Word16) : (s.setWords n v).buf = s.buf := rfl
@[simp] theorem setWords_phase (n : BufName) (v : List Word16) : (s.setWords n v).phase = s.phase := rfl
@[simp] theorem setWords_tMark (n : BufName) (v : List Word16) : (s.setWords n v).tMark = s.tMark := rfl
@[simp] theorem setWords_txLen (n : BufName) (v : List Word16) : (s.setWords n v).txLen = s.txLen := rfl
@[simp] theorem setWords_rxLen (n : BufName) (v : List Word16) : (s.setWords n v).rxLen = s.rxLen := rfl
@[simp] theorem setWords_req (n : BufName) (v : List Word16) : (s.setWords n v).req = s.req := rfl
@[simp] theorem setWords_result (n : BufName) (v : List Word16) : (s.setWords n v).result = s.result := rfl
@[simp] theorem setWords_fault (n : BufName) (v : List Word16) : (s.setWords n v).fault = s.fault := rfl
@[simp] theorem setWords_de (n : BufName) (v : List Word16) : (s.setWords n v).de = s.de := rfl
@[simp] theorem setWords_rxq (n : BufName) (v : List Word16) : (s.setWords n v).rxq = s.rxq := rfl
@[simp] theorem setWords_txlog (n : BufName) (v : List Word16) : (s.setWords n v).txlog = s.txlog := rfl
@[simp] theorem setWords_now (n : BufName) (v : List Word16) : (s.setWords n v).now = s.now := rfl
@[simp] theorem setWords_bitBufs (n : BufName) (v : List Word16) : (s.setWords n v).bitBufs = s.bitBufs := rfl
@[simp] theorem setWords_wordBufs (n : BufName) (v : List Word16) : (s.setWords n v).wordBufs = Cells.write s.wordBufs n v := rfl
@[simp] theorem setWords_schedule (n : BufName) (v : List Word16) : (s.setWords n v).schedule = s.schedule := rfl
@[simp] theorem setWords_portTrace (n : BufName) (v : List Word16) : (s.setWords n v).portTrace = s.portTrace := rfl
@[simp] theorem setWords_retval (n : BufName) (v : List Word16) : (s.setWords n v).retval = s.retval := rfl

@[simp] theorem setRetval_params (v : RetVal) : (s.setRetval v).params = s.params := rfl
@[simp] theorem setRetval_charTo (v : RetVal) : (s.setRetval v).charTo = s.charTo := rfl
@[simp] theorem setRetval_frameTo (v : RetVal) : (s.setRetval v).frameTo = s.frameTo := rfl
@[simp] theorem setRetval_respTo (v : RetVal) : (s.setRetval v).respTo = s.respTo := rfl
@[simp] theorem setRetval_exc (v : RetVal) : (s.setRetval v).exc = s.exc := rfl
@[simp] theorem setRetval_buf (v : RetVal) : (s.setRetval v).buf = s.buf := rfl
@[simp] theorem setRetval_phase (v : RetVal) : (s.setRetval v).phase = s.phase := rfl
@[simp] theorem setRetval_tMark (v : RetVal) : (s.setRetval v).tMark = s.tMark := rfl
@[simp] theorem setRetval_txLen (v : RetVal) : (s.setRetval v).txLen = s.txLen := rfl
@[simp] theorem setRetval_rxLen (v : RetVal) : (s.setRetval v).rxLen = s.rxLen := rfl
@[simp] theorem setRetval_req (v : RetVal) : (s.setRetval v).req = s.req := rfl
@[simp] theorem setRetval_result (v : RetVal) : (s.setRetval v).result = s.result := rfl
@[simp] theorem setRetval_fault (v : RetVal) : (s.setRetval v).fault = s.fault := rfl
@[simp] theorem setRetval_de (v : RetVal) : (s.setRetval v).de = s.de := rfl
@[simp] theorem setRetval_rxq (v : RetVal) : (s.setRetval v).rxq = s.rxq := rfl
@[simp] theorem setRetval_txlog (v : RetVal) : (s.setRetval v).txlog = s.txlog := rfl
@[simp] theorem setRetval_now (v : RetVal) : (s.setRetval v).now = s.now := rfl
@[simp] theorem setRetval_bitBufs (v : RetVal) : (s.setRetval v).bitBufs = s.bitBufs := rfl
@[simp] theorem setRetval_wordBufs (v : RetVal) : (s.setRetval v).wordBufs = s.wordBufs := rfl
@[simp] theorem setRetval_schedule (v : RetVal) : (s.setRetval v).schedule = s.schedule := rfl
@[simp] theorem setRetval_portTrace (v : RetVal) : (s.setRetval v).portTrace = s.portTrace := rfl
@[simp] theorem setRetval_retval (v : RetVal) : (s.setRetval v).retval = v := rfl

@[simp] theorem drawn_params (n : Nat) (es : List Event) : (s.drawn n es).params = s.params := rfl
@[simp] theorem drawn_charTo (n : Nat) (es : List Event) : (s.drawn n es).charTo = s.charTo := rfl
@[simp] theorem drawn_frameTo (n : Nat) (es : List Event) : (s.drawn n es).frameTo = s.frameTo := rfl
@[simp] theorem drawn_respTo (n : Nat) (es : List Event) : (s.drawn n es).respTo = s.respTo := rfl
@[simp] theorem drawn_exc (n : Nat) (es : List Event) : (s.drawn n es).exc = s.exc := rfl
@[simp] theorem drawn_buf (n : Nat) (es : List Event) : (s.drawn n es).buf = s.buf := rfl
@[simp] theorem drawn_phase (n : Nat) (es : List Event) : (s.drawn n es).phase = s.phase := rfl
@[simp] theorem drawn_tMark (n : Nat) (es : List Event) : (s.drawn n es).tMark = s.tMark := rfl
@[simp] theorem drawn_txLen (n : Nat) (es : List Event) : (s.drawn n es).txLen = s.txLen := rfl
@[simp] theorem drawn_rxLen (n : Nat) (es : List Event) : (s.drawn n es).rxLen = s.rxLen := rfl
@[simp] theorem drawn_req (n : Nat) (es : List Event) : (s.drawn n es).req = s.req := rfl
@[simp] theorem drawn_result (n : Nat) (es : List Event) : (s.drawn n es).result = s.result := rfl
@[simp] theorem drawn_fault (n : Nat) (es : List Event) : (s.drawn n es).fault = s.fault := rfl
@[simp] theorem drawn_de (n : Nat) (es : List Event) : (s.drawn n es).de = s.de := rfl
@[simp] theorem drawn_rxq (n : Nat) (es : List Event) : (s.drawn n es).rxq = s.rxq := rfl
@[simp] theorem drawn_txlog (n : Nat) (es : List Event) : (s.drawn n es).txlog = s.txlog := rfl
@[simp] theorem drawn_now (n : Nat) (es : List Event) : (s.drawn n es).now = s.clockAt n := rfl
@[simp] theorem drawn_bitBufs (n : Nat) (es : List Event) : (s.drawn n es).bitBufs = s.bitBufs := rfl
@[simp] theorem drawn_wordBufs (n : Nat) (es : List Event) : (s.drawn n es).wordBufs = s.wordBufs := rfl
@[simp] theorem drawn_schedule (n : Nat) (es : List Event) : (s.drawn n es).schedule = es := rfl
@[simp] theorem drawn_portTrace (n : Nat) (es : List Event) : (s.drawn n es).portTrace = s.portTrace := rfl
@[simp] theorem drawn_retval (n : Nat) (es : List Event) : (s.drawn n es).retval = s.retval := rfl

@[simp] theorem transmitted_params (f : List Byte) : (s.transmitted f).params = s.params := rfl
@[simp] theorem transmitted_charTo (f : List Byte) : (s.transmitted f).charTo = s.charTo := rfl
@[simp] theorem transmitted_frameTo (f : List Byte) : (s.transmitted f).frameTo = s.frameTo := rfl
@[simp] theorem transmitted_respTo (f : List Byte) : (s.transmitted f).respTo = s.respTo := rfl
@[simp] theorem transmitted_exc (f : List Byte) : (s.transmitted f).exc = 0#8 := rfl
@[simp] theorem transmitted_buf (f : List Byte) : (s.transmitted f).buf = s.buf := rfl
@[simp] theorem transmitted_phase (f : List Byte) : (s.transmitted f).phase = s.phase := rfl
@[simp] theorem transmitted_tMark (f : List Byte) : (s.transmitted f).tMark = s.tMark := rfl
@[simp] theorem transmitted_txLen (f : List Byte) : (s.transmitted f).txLen = s.txLen := rfl
@[simp] theorem transmitted_rxLen (f : List Byte) : (s.transmitted f).rxLen = s.rxLen := rfl
@[simp] theorem transmitted_req (f : List Byte) : (s.transmitted f).req = s.req := rfl
@[simp] theorem transmitted_result (f : List Byte) : (s.transmitted f).result = s.result := rfl
@[simp] theorem transmitted_fault (f : List Byte) : (s.transmitted f).fault = s.fault := rfl
@[simp] theorem transmitted_de (f : List Byte) : (s.transmitted f).de = if s.params.hasDE then false else s.de := rfl
@[simp] theorem transmitted_rxq (f : List Byte) : (s.transmitted f).rxq = s.rxq := rfl
@[simp] theorem transmitted_txlog (f : List Byte) : (s.transmitted f).txlog = s.txlog ++ [f] := rfl
@[simp] theorem transmitted_now (f : List Byte) : (s.transmitted f).now = s.now := rfl
@[simp] theorem transmitted_bitBufs (f : List Byte) : (s.transmitted f).bitBufs = s.bitBufs := rfl
@[simp] theorem transmitted_wordBufs (f : List Byte) : (s.transmitted f).wordBufs = s.wordBufs := rfl
@[simp] theorem transmitted_schedule (f : List Byte) : (s.transmitted f).schedule = s.schedule := rfl
@[simp] theorem transmitted_portTrace (f : List Byte) : (s.transmitted f).portTrace = s.portTrace ++
      if s.params.hasDE then [.de true, .write f, .flush, .de false] else [.write f, .flush] := rfl
@[simp] theorem transmitted_retval (f : List Byte) : (s.transmitted f).retval = s.retval := rfl

@[simp] theorem failed_params (k : ErrKind) : (s.failed k).params = s.params := rfl
@[simp] theorem failed_charTo (k : ErrKind) : (s.failed k).charTo = s.charTo := rfl
@[simp] theorem failed_frameTo (k : ErrKind) : (s.failed k).frameTo = s.frameTo := rfl
@[simp] theorem failed_respTo (k : ErrKind) : (s.failed k).respTo = s.respTo := rfl
@[simp] theorem failed_exc (k : ErrKind) : (s.failed k).exc = s.exc := rfl
@[simp] theorem failed_buf (k : ErrKind) : (s.failed k).buf = s.buf := rfl
@[simp] theorem failed_phase (k : ErrKind) : (s.failed k).phase = .idle := rfl
@[simp] theorem failed_tMark (k : ErrKind) : (s.failed k).tMark = s.tMark := rfl
@[simp] theorem failed_txLen (k : ErrKind) : (s.failed k).txLen = s.txLen := rfl
@[simp] theorem failed_rxLen (k : ErrKind) : (s.failed k).rxLen = s.rxLen := rfl
@[simp] theorem failed_req (k : ErrKind) : (s.failed k).req = s.req := rfl
@[simp] theorem failed_result (k : ErrKind) : (s.failed k).result = { ok := false, err := k, byte := none } := rfl
@[simp] theorem failed_fault (k : ErrKind) : (s.failed k).fault = s.fault := rfl
@[simp] theorem failed_de (k : ErrKind) : (s.failed k).de = s.de := rfl
@[simp] theorem failed_rxq (k : ErrKind) : (s.failed k).rxq = s.rxq := rfl
@[simp] theorem failed_txlog (k : ErrKind) : (s.failed k).txlog = s.txlog := rfl
@[simp] theorem failed_now (k : ErrKind) : (s.failed k).now = s.now := rfl
@[simp] theorem failed_bitBufs (k : ErrKind) : (s.failed k).bitBufs = s.bitBufs := rfl
@[simp] theorem failed_wordBufs (k : ErrKind) : (s.failed k).wordBufs = s.wordBufs := rfl
@[simp] theorem failed_schedule (k : ErrKind) : (s.failed k).schedule = s.schedule := rfl
@[simp] theorem failed_portTrace (k : ErrKind) : (s.failed k).portTrace = s.portTrace := rfl
@[simp] theorem failed_retval (k : ErrKind) : (s.failed k).retval = s.retval := rfl

@[simp] theorem succeeded_params : (s.succeeded).params = s.params := rfl
@[simp] theorem succeeded_charTo : (s.succeeded).charTo = s.charTo := rfl
@[simp] theorem succeeded_frameTo : (s.succeeded).frameTo = s.frameTo := rfl
@[simp] theorem succeeded_respTo : (s.succeeded).respTo = s.respTo := rfl
@[simp] theorem succeeded_exc : (s.succeeded).exc = s.exc := rfl
@[simp] theorem succeeded_buf : (s.succeeded).buf = s.buf := rfl
@[simp] theorem succeeded_phase : (s.succeeded).phase = .idle := rfl
@[simp] theorem succeeded_tMark : (s.succeeded).tMark = s.tMark := rfl
@[simp] theorem succeeded_txLen : (s.succeeded).txLen = s.txLen := rfl
@[simp] theorem succeeded_rxLen : (s.succeeded).rxLen = s.rxLen := rfl
@[simp] theorem succeeded_req : (s.succeeded).req = s.req := rfl
@[simp] theorem succeeded_result : (s.succeeded).result = { ok := true, err := .none, byte := none } := rfl
@[simp] theorem succeeded_fault : (s.succeeded).fault = s.fault := rfl
@[simp] theorem succeeded_de : (s.succeeded).de = s.de := rfl
@[simp] theorem succeeded_rxq : (s.succeeded).rxq = s.rxq := rfl
@[simp] theorem succeeded_txlog : (s.succeeded).txlog = s.txlog := rfl
@[simp] theorem succeeded_now : (s.succeeded).now = s.now := rfl
@[simp] theorem succeeded_bitBufs : (s.succeeded).bitBufs = s.bitBufs := rfl
@[simp] theorem succeeded_wordBufs : (s.succeeded).wordBufs = s.wordBufs := rfl
@[simp] theorem succeeded_schedule : (s.succeeded).schedule = s.schedule := rfl
@[simp] theorem succeeded_portTrace : (s.succeeded).portTrace = s.portTrace := rfl
@[simp] theorem succeeded_retval : (s.succeeded).retval = s.retval := rfl

end State

variable (s : State)

@[simp] theorem resetBlock_params : (resetBlock s).params = s.params := rfl
@[simp] theorem resetBlock_charTo : (resetBlock s).charTo = none := rfl
@[simp] theorem resetBlock_frameTo : (resetBlock s).frameTo = none := rfl
@[simp] theorem resetBlock_respTo : (resetBlock s).respTo = s.params.responseTimeoutReset := rfl
@[simp] theorem resetBlock_exc : (resetBlock s).exc = 0#8 := rfl
@[simp] theorem resetBlock_buf : (resetBlock s).buf = [] := rfl
@[simp] theorem resetBlock_phase : (resetBlock s).phase = .idle := rfl
@[simp] theorem resetBlock_tMark : (resetBlock s).tMark = none := rfl
@[simp] theorem resetBlock_txLen : (resetBlock s).txLen = 0 := rfl
@[simp] theorem resetBlock_rxLen : (resetBlock s).rxLen = 0 := rfl
@[simp] theorem resetBlock_req : (resetBlock s).req = none := rfl
@[simp] theorem resetBlock_result : (resetBlock s).result = { ok := false, err := .none, byte := none } := rfl
@[simp] theorem resetBlock_fault : (resetBlock s).fault = none := rfl
@[simp] theorem resetBlock_de : (resetBlock s).de = false := rfl
@[simp] theorem resetBlock_rxq : (resetBlock s).rxq = s.rxq := rfl
@[simp] theorem resetBlock_txlog : (resetBlock s).txlog = s.txlog := rfl
@[simp] theorem resetBlock_now : (resetBlock s).now = s.now := rfl
@[simp] theorem resetBlock_bitBufs : (resetBlock s).bitBufs = s.bitBufs := rfl
@[simp] theorem resetBlock_wordBufs : (resetBlock s).wordBufs = s.wordBufs := rfl
@[simp] theorem resetBlock_schedule : (resetBlock s).schedule = s.schedule := rfl
@[simp] theorem resetBlock_portTrace : (resetBlock s).portTrace = if s.params.hasDE then s.portTrace ++ [.de false] else s.portTrace := rfl
@[simp] theorem resetBlock_retval : (resetBlock s).retval = .none := rfl

@[simp] theorem linkDeliver_params (b : Byte) : (linkDeliver b s).params = s.params := rfl
@[simp] theorem linkDeliver_charTo (b : Byte) : (linkDeliver b s).charTo = s.charTo := rfl
@[simp] theorem linkDeliver_frameTo (b : Byte) : (linkDeliver b s).frameTo = s.frameTo := rfl
@[simp] theorem linkDeliver_respTo (b : Byte) : (linkDeliver b s).respTo = s.respTo := rfl
@[simp] theorem linkDeliver_exc (b : Byte) : (linkDeliver b s).exc = s.exc := rfl
@[simp] theorem linkDeliver_buf (b : Byte) : (linkDeliver b s).buf = s.buf := rfl
@[simp] theorem linkDeliver_phase (b : Byte) : (linkDeliver b s).phase = s.phase := rfl
@[simp] theorem linkDeliver_tMark (b : Byte) : (linkDeliver b s).tMark = s.tMark := rfl
@[simp] theorem linkDeliver_txLen (b : Byte) : (linkDeliver b s).txLen = s.txLen := rfl
@[simp] theorem linkDeliver_rxLen (b : Byte) : (linkDeliver b s).rxLen = s.rxLen := rfl
@[simp] theorem linkDeliver_req (b : Byte) : (linkDeliver b s).req = s.req := rfl
@[simp] theorem linkDeliver_result (b : Byte) : (linkDeliver b s).result = s.result := rfl
@[simp] theorem linkDeliver_fault (b : Byte) : (linkDeliver b s).fault = s.fault := rfl
@[simp] theorem linkDeliver_de (b : Byte) : (linkDeliver b s).de = s.de := rfl
@[simp] theorem linkDeliver_rxq (b : Byte) : (linkDeliver b s).rxq = s.rxq ++ [b] := rfl
@[simp] theorem linkDeliver_txlog (b : Byte) : (linkDeliver b s).txlog = s.txlog := rfl
@[simp] theorem linkDeliver_now (b : Byte) : (linkDeliver b s).now = s.now := rfl
@[simp] theorem linkDeliver_bitBufs (b : Byte) : (linkDeliver b s).bitBufs = s.bitBufs := rfl
@[simp] theorem linkDeliver_wordBufs (b : Byte) : (linkDeliver b s).wordBufs = s.wordBufs := rfl
@[simp] theorem linkDeliver_schedule (b : Byte) : (linkDeliver b s).schedule = s.schedule := rfl
@[simp] theorem linkDeliver_portTrace (b : Byte) : (linkDeliver b s).portTrace = s.portTrace := rfl
@[simp] theorem linkDeliver_retval (b : Byte) : (linkDeliver b s).retval = s.retval := rfl

end Sys2Proof.Machine
end

