-- ==== Sys2Proof/Laws/Ops.lean ====
section
/-! SUPPORT. One lemma per shared operation that says what it does: an equation where its conditions hold, and an
inversion ("if it answers next t, then ...") that later proofs cite instead of unfolding it. -/

namespace Sys2Proof.Machine

open Host (Outcome)

/-! ## Endings and guards -/

@[simp] theorem raise_eq_next {s t : State} {f : BlockFault} : raise s f = .next t ↔ t = s.setFault f := by
  simp [raise, eq_comm]

theorem conclude_eq_next {s t : State} {r : Result} :
    conclude s r = .next t ↔ t = (s.setResult r).setPhase .idle := by
  simp [conclude, eq_comm]

theorem fail_eq_next {s t : State} {k : ErrKind} :
    fail s k = .next t ↔ t = (s.setResult { ok := false, err := k, byte := none }).setPhase .idle :=
  conclude_eq_next

theorem succeed_eq_next {s t : State} :
    succeed s = .next t ↔ t = (s.setResult { ok := true, err := .none, byte := none }).setPhase .idle :=
  conclude_eq_next

/-- An operation that is accepted runs. -/
theorem hostOp_of_accepts {op : OpName} {s : State} {k : Out} (hp : s.phase = .idle) (hf : s.fault = none) :
    hostOp op s k = k := by
  simp [hostOp, unlessStopped, hf, hp]

/-- What the operation port answers with: it runs the operation, or raises `Reentry`. -/
theorem hostOp_cases {op : OpName} {s t : State} {k : Out} (h : hostOp op s k = .next t) :
    s.fault = none ∧ ((s.phase = .idle ∧ k = .next t) ∨ (s.phase ≠ .idle ∧ t = s.setFault (.reentry op))) := by
  unfold hostOp unlessStopped at h
  split at h
  · cases h
  · rename_i hf
    refine ⟨hf, ?_⟩
    split at h
    · exact .inl ⟨‹_›, h⟩
    · exact .inr ⟨‹_›, raise_eq_next.1 h⟩

theorem unlessStopped_of_running {s : State} {k : Out} (hf : s.fault = none) : unlessStopped s k = k := by
  simp [unlessStopped, hf]

theorem unlessStopped_cases {s t : State} {k : Out} (h : unlessStopped s k = .next t) :
    s.fault = none ∧ k = .next t := by
  unfold unlessStopped at h
  split at h
  · cases h
  · exact ⟨‹_›, h⟩

/-! ## Reading -/

@[simp] theorem orRaise_ok {α : Type} (s : State) (a : α) (k : α → Out) : orRaise s (.ok a) k = k a := rfl

@[simp] theorem orRaise_error {α : Type} (s : State) (f : BlockFault) (k : α → Out) :
    orRaise s (.error f) k = raise s f := rfl

/-- Going on with a value either found it or raised. -/
theorem orRaise_cases {α : Type} {s t : State} {x : Except BlockFault α} {k : α → Out}
    (h : orRaise s x k = .next t) :
    (∃ a, x = .ok a ∧ k a = .next t) ∨ (∃ f, x = .error f ∧ t = s.setFault f) := by
  cases x with
  | ok a => exact .inl ⟨a, rfl, h⟩
  | error f => exact .inr ⟨f, rfl, raise_eq_next.1 h⟩

theorem readReq_some {s : State} {r : ReqContext} (h : s.req = some r) : readReq s = .ok r := by
  simp [readReq, h]

/-- The Host is presented with a result exactly in a state that is idle, has no fault, and holds that result of an
operation. -/
theorem presented_eq_some {s : State} {r : Result} :
    s.presented = some r ↔ s.phase = .idle ∧ s.fault = none ∧ s.result = r ∧ r.complete = true := by
  simp only [State.presented, State.final, Option.ite_none_right_eq_some, Bool.and_eq_true, decide_eq_true_eq,
    Option.isNone_iff_eq_none, Option.some.injEq]
  constructor
  · rintro ⟨⟨⟨hp, hf⟩, hc⟩, rfl⟩; exact ⟨hp, hf, rfl, hc⟩
  · rintro ⟨hp, hf, rfl, hc⟩; exact ⟨⟨⟨hp, hf⟩, hc⟩, rfl⟩

/-- A faulted state is never final and presents nothing (R205). -/
theorem presented_of_fault {s : State} {f : BlockFault} (h : s.fault = some f) : s.presented = none := by
  simp [State.presented, State.final, h]

/-- What raises presents nothing. -/
@[simp] theorem setFault_presented (s : State) (f : BlockFault) : (s.setFault f).presented = none :=
  presented_of_fault rfl

/-- The Clock shows a `CLOCK_BITS`-bit count. -/
theorem clockAt_lt (s : State) (n : Nat) : s.clockAt n < 2 ^ s.params.clockBits := Nat.mod_lt _ (Nat.two_pow_pos _)

/-- Every entry of a `BITS_TABLE` is at most 12. -/
theorem bitsPerChar_le {fmt : SerialFormat} {b : Nat} : ∀ {table : BitsTable}, bitsPerChar table fmt = some b → b ≤ 12
  | [], h => by cases h
  | (f, c) :: table, h => by
    unfold bitsPerChar at h
    split at h
    · cases h; omega
    · exact bitsPerChar_le h

theorem readMark_some {s : State} {m : Nat} (h : s.tMark = some m) : readMark s = .ok m := by
  simp [readMark, h]

theorem readCharTo_some {s : State} {w : Word32} (h : s.charTo = some w) : readCharTo s = .ok w := by
  simp [readCharTo, h]

theorem readFrameTo_some {s : State} {w : Word32} (h : s.frameTo = some w) : readFrameTo s = .ok w := by
  simp [readFrameTo, h]

theorem readReq_ok {s : State} {r : ReqContext} (h : readReq s = .ok r) : s.req = some r := by
  unfold readReq at h
  split at h
  · cases h; assumption
  · cases h

theorem readMark_ok {s : State} {m : Nat} (h : readMark s = .ok m) : s.tMark = some m := by
  unfold readMark at h
  split at h
  · cases h; assumption
  · cases h

theorem readCharTo_ok {s : State} {w : Word32} (h : readCharTo s = .ok w) : s.charTo = some w := by
  unfold readCharTo at h
  split at h
  · cases h; assumption
  · cases h

theorem readFrameTo_ok {s : State} {w : Word32} (h : readFrameTo s = .ok w) : s.frameTo = some w := by
  unfold readFrameTo at h
  split at h
  · cases h; assumption
  · cases h

/-- A byte of `BUF` is read below `BUF_CAP` where it is set. -/
theorem readByte_ok_iff {s : State} {i : Nat} {b : Byte} :
    readByte s i = .ok b ↔ i < s.params.bufCap ∧ Cells.read s.buf i = some b := by
  unfold readByte
  split
  · rename_i h
    split <;> simp_all
  · simp_all

/-- `readByte` looks at the parameters and `BUF` alone. -/
theorem readByte_congr {s t : State} (hp : t.params = s.params) (hb : t.buf = s.buf) (i : Nat) :
    readByte t i = readByte s i := by
  simp [readByte, hp, hb]

theorem memRead_congr {s t : State} (hp : t.params = s.params) (hb : t.buf = s.buf) (n : Nat) :
    ∀ a, memRead t a n = memRead s a n := by
  induction n with
  | zero => intro a; rfl
  | succ n ih => intro a; simp [memRead, readByte_congr hp hb, ih]

/-- A list of bytes is read where each of them is. -/
theorem memRead_ok_iff {s : State} {n : Nat} : ∀ {a : Nat} {d : List Byte},
    memRead s a n = .ok d ↔ d.length = n ∧ ∀ i, i < n → ∃ b, d[i]? = some b ∧ readByte s (a + i) = .ok b := by
  induction n with
  | zero => intro a d; cases d <;> simp [memRead]
  | succ n ih =>
    intro a d
    constructor
    · intro h
      simp only [memRead] at h
      split at h
      · cases h
      · rename_i b hb
        split at h
        · cases h
        · rename_i bs hbs
          cases h
          obtain ⟨hl, hr⟩ := ih.1 hbs
          refine ⟨by simp [hl], fun i hi => ?_⟩
          cases i with
          | zero => exact ⟨b, by simp, by simpa using hb⟩
          | succ j =>
            obtain ⟨x, hx, hx'⟩ := hr j (by omega)
            exact ⟨x, by simpa using hx, by rw [← hx']; congr 1; omega⟩
    · rintro ⟨hl, hr⟩
      cases d with
      | nil => simp at hl
      | cons b bs =>
        obtain ⟨x, hx, hx'⟩ := hr 0 (by omega)
        simp only [List.getElem?_cons_zero, Option.some.injEq] at hx
        subst hx
        have : memRead s (a + 1) n = .ok bs := by
          refine ih.2 ⟨by simpa using hl, fun i hi => ?_⟩
          obtain ⟨y, hy, hy'⟩ := hr (i + 1) (by omega)
          exact ⟨y, by simpa using hy, by rw [← hy']; congr 1; omega⟩
        simp only [Nat.add_zero] at hx'
        simp [memRead, hx', this]

/-- Reading can fail only at an unset byte or past `BUF_CAP`; where every byte is set below it, it succeeds. -/
theorem memRead_of_set {s : State} {a n : Nat} (hn : a + n ≤ s.params.bufCap)
    (h : ∀ i, a ≤ i → i < a + n → (Cells.read s.buf i).isSome) : ∃ d, memRead s a n = .ok d := by
  induction n generalizing a with
  | zero => exact ⟨[], rfl⟩
  | succ n ih =>
    obtain ⟨b, hb⟩ := Option.isSome_iff_exists.1 (h a (by omega) (by omega))
    have hb' : readByte s a = .ok b := readByte_ok_iff.2 ⟨by omega, hb⟩
    obtain ⟨d, hd⟩ := ih (a := a + 1) (by omega) (fun i h₁ h₂ => h i (by omega) (by omega))
    exact ⟨b :: d, by simp [memRead, hb', hd]⟩

/-- A read just after a write of the same bytes. -/
theorem memRead_setBuf {s : State} {a : Nat} {v : List Byte} (h : a + v.length ≤ s.params.bufCap) :
    memRead (s.setBuf a v) a v.length = .ok v := by
  refine memRead_ok_iff.2 ⟨rfl, fun i hi => ⟨v[i], by simp [hi], readByte_ok_iff.2 ⟨?_, ?_⟩⟩⟩
  · simp only [State.setBuf_params]; omega
  · simp [Cells.read_writeList, hi]

/-! ## Writing -/

/-- A write that fits lands whole. -/
theorem memWrite_of_fits {s : State} {a : Nat} {v : List Byte} {k : State → Out}
    (h : a + v.length ≤ s.params.bufCap) : memWrite s a v k = k (s.setBuf a v) := by
  rw [memWrite, if_pos (by omega)]

/-- A write goes on with the bytes stored, or raises `BufferOverrun`. -/
theorem memWrite_cases {s t : State} {a : Nat} {v : List Byte} {k : State → Out}
    (h : memWrite s a v k = .next t) :
    (v.length ≤ s.params.bufCap - a ∧ k (s.setBuf a v) = .next t) ∨
      (s.params.bufCap - a < v.length ∧
        t = (s.setBuf a (v.take (s.params.bufCap - a))).setFault (.bufferOverrun (max a s.params.bufCap))) := by
  unfold memWrite at h
  split at h
  · exact .inl ⟨‹_›, h⟩
  · exact .inr ⟨by omega, raise_eq_next.1 h⟩

/-! ## CRC_ENCODE and TRANSACT -/

/-- CRC_ENCODE where the bytes are set and the CRC fits. -/
theorem crcEncode_of_ok {s : State} {n : Nat} {d : List Byte} {k : State → Out} (hn : n + 2 ≤ s.params.bufCap)
    (hd : memRead s 0 n = .ok d) : crcEncode s n k = k (s.setBuf n [lo (crc16 d), hi (crc16 d)]) := by
  rw [crcEncode, if_neg (by omega), hd, orRaise_ok, memWrite_of_fits (by simpa using hn)]

/-- CRC_ENCODE goes on with the CRC stored, or raises. -/
theorem crcEncode_cases {s t : State} {n : Nat} {k : State → Out} (h : crcEncode s n k = .next t) :
    (∃ d, memRead s 0 n = .ok d ∧ n + 2 ≤ s.params.bufCap ∧
      k (s.setBuf n [lo (crc16 d), hi (crc16 d)]) = .next t) ∨
    (s.params.bufCap < n + 2 ∧ t = s.setFault (.bufferOverrun n)) ∨
    (∃ f, memRead s 0 n = .error f ∧ t = s.setFault f) := by
  unfold crcEncode at h
  split at h
  · exact .inr (.inl ⟨‹_›, raise_eq_next.1 h⟩)
  · rename_i hn
    rcases orRaise_cases h with ⟨d, hd, h⟩ | ⟨f, hf, h⟩
    · rw [memWrite_of_fits (by simp; omega)] at h
      exact .inl ⟨d, hd, by omega, h⟩
    · exact .inr (.inr ⟨f, hf, h⟩)

/-- TRANSACT where both timeouts are set, the words are set and the CRC fits (R120). -/
theorem transact_of_ok {op : OpName} {s : State} {c f : Word32} {d : List Byte} (hc : s.charTo = some c)
    (hf : s.frameTo = some f) (hn : s.txLen + 2 ≤ s.params.bufCap) (hd : memRead s 0 s.txLen = .ok d) :
    transact op s =
      .next (((s.setBuf s.txLen [lo (crc16 d), hi (crc16 d)]).setMark s.now).setPhase .flushStale) := by
  simp [transact, hc, hf, crcEncode_of_ok hn hd]

/-- TRANSACT with a timeout unset (R121). -/
theorem transact_of_unset {op : OpName} {s : State} (h : s.charTo = none ∨ s.frameTo = none) :
    transact op s = raise s (.timingUnset op) := by
  rcases h with h | h <;> simp [transact, h]

/-- A request whose words fit, with both timeouts set. -/
theorem startRequest_of_ok {op : OpName} {words : List Byte} {req : ReqContext} {s : State} {c f : Word32}
    (hc : s.charTo = some c) (hf : s.frameTo = some f) (hn : words.length + 2 ≤ s.params.bufCap) :
    startRequest op words req s =
      .next ((((((s.setBuf 0 words).setTxLen words.length).setReq req).setBuf words.length
        [lo (crc16 words), hi (crc16 words)]).setMark s.now).setPhase .flushStale) := by
  rw [startRequest, memWrite_of_fits (by omega)]
  refine transact_of_ok (s := (((s.setBuf 0 words).setTxLen words.length).setReq req)) hc hf hn ?_
  exact (memRead_congr (s := s.setBuf 0 words) (t := ((s.setBuf 0 words).setTxLen words.length).setReq req)
    rfl rfl _ 0).trans (memRead_setBuf (by omega))

/-- `BUF` after the words and their CRC are stored. -/
theorem read_withCrc (m : List Host.Cell) (words : List Byte) (a : Nat) :
    Cells.read (Cells.writeList (Cells.writeList m 0 words) words.length [lo (crc16 words), hi (crc16 words)]) a =
      if a < words.length + 2 then (withCrc words)[a]? else Cells.read m a := by
  rw [Cells.read_writeList, Cells.read_writeList]
  simp only [List.length_cons, List.length_nil, withCrc]
  by_cases h₁ : a < words.length
  · rw [if_neg (by omega), if_pos (by omega), if_pos (by omega), List.getElem?_append_left h₁]; simp
  · by_cases h₂ : a < words.length + 2
    · rw [if_pos (by omega), if_pos h₂, List.getElem?_append_right (by omega)]
    · rw [if_neg (by omega), if_neg (by omega), if_neg h₂]

@[simp] theorem withCrc_length (d : List Byte) : (withCrc d).length = d.length + 2 := by simp [withCrc]

/-! ## The step -/

/-- What one step is, by the draw it takes. -/
theorem step_nil {s : State} (h : s.schedule = []) : step s = .next s := by simp [step, h]

theorem step_tick {s : State} {n : Nat} {es : List Event} (h : s.schedule = .tick n :: es)
    (hf : s.fault = none) : step s = engineStep ((s.setSchedule es).setNow n) := by
  simp [step, h, clockTick, hf]

theorem step_deliver {s : State} {b : Byte} {es : List Event} (h : s.schedule = .deliver b :: es) :
    step s = .next (linkDeliver b (s.setSchedule es)) := by simp [step, h]

theorem step_issue {s : State} {n : Nat} {i : Instr} {es : List Event}
    (h : s.schedule = .issue n (.byName i) :: es) (hf : s.fault = none) (hi : i.op.atPort = true) :
    step s = exec i ((s.setSchedule es).setNow n) := by
  simp [step, h, portIssue, hf, fetch, hi]

/-- A stopped block does not accept what is issued. -/
theorem step_issue_stopped {s : State} {n : Nat} {r : PortRequest} {es : List Event} {f : BlockFault}
    (h : s.schedule = .issue n r :: es) (hf : s.fault = some f) : step s = .next ((s.setSchedule es).setNow n) := by
  simp [step, h, portIssue, hf]

/-- Every next state of a step, by the draw it took. -/
theorem step_cases {s t : State} (h : step s = .next t) :
    (s.schedule = [] ∧ t = s) ∨
    (∃ b es, s.schedule = .deliver b :: es ∧ t = linkDeliver b (s.setSchedule es)) ∨
    (∃ n es f, (s.schedule = .tick n :: es ∨ ∃ r, s.schedule = .issue n r :: es) ∧ s.fault = some f ∧ t = (s.setSchedule es).setNow n) ∨
    (∃ n es, s.schedule = .tick n :: es ∧ s.fault = none ∧
      engineStep ((s.setSchedule es).setNow n) = .next t) ∨
    (∃ n r es i, s.schedule = .issue n r :: es ∧ fetch r = .ok i ∧
      exec i ((s.setSchedule es).setNow n) = .next t) ∨
    (∃ name v es, s.schedule = .hostBits name v :: es ∧ bitBufInUse s name = false ∧
      t = (s.setSchedule es).setBits name v) ∨
    (∃ name v es, s.schedule = .hostWords name v :: es ∧ wordBufInUse s name = false ∧
      t = (s.setSchedule es).setWords name v) ∨
    (∃ es, s.schedule = .reset :: es ∧ t = resetBlock (s.setSchedule es)) := by
  unfold step at h
  split at h
  · rename_i hs; cases h; exact .inl ⟨hs, rfl⟩
  · rename_i b es hs; cases h; exact .inr (.inl ⟨b, es, hs, rfl⟩)
  · rename_i n es hs
    simp only [clockTick, State.setSchedule_fault] at h
    split at h
    · rename_i f hf; cases h; exact .inr (.inr (.inl ⟨n, es, f, .inl hs, hf, rfl⟩))
    · rename_i hf; exact .inr (.inr (.inr (.inl ⟨n, es, hs, hf, h⟩)))
  · rename_i n r es hs
    simp only [portIssue, State.setNow_fault, State.setSchedule_fault] at h
    split at h
    · rename_i f hf; cases h; exact .inr (.inr (.inl ⟨n, es, f, .inr ⟨r, hs⟩, hf, rfl⟩))
    · split at h
      · cases h
      · rename_i i hi; exact .inr (.inr (.inr (.inr (.inl ⟨n, r, es, i, hs, hi, h⟩))))
  · rename_i name v es hs
    unfold hostBits at h
    split at h
    · cases h
    · rename_i hu
      cases h
      exact .inr (.inr (.inr (.inr (.inr (.inl ⟨name, v, es, hs, Bool.eq_false_iff.2 hu, rfl⟩)))))
  · rename_i name v es hs
    unfold hostWords at h
    split at h
    · cases h
    · rename_i hu
      cases h
      exact .inr (.inr (.inr (.inr (.inr (.inr (.inl ⟨name, v, es, hs, Bool.eq_false_iff.2 hu, rfl⟩))))))
  · rename_i es hs; cases h; exact .inr (.inr (.inr (.inr (.inr (.inr (.inr ⟨es, hs, rfl⟩))))))

/-- Only the eleven operations of R40 pass the operation port. -/
theorem fetch_atPort {r : PortRequest} {i : Instr} (h : fetch r = .ok i) : i.op.atPort = true := by
  unfold fetch at h
  split at h
  · split at h
    · cases h; assumption
    · cases h
  · split at h
    · cases h
    · split at h
      · cases h; assumption
      · cases h

end Sys2Proof.Machine
end

