-- ==== Sys2Proof/Laws/Engine.lean ====
section
/-! SUPPORT. One inversion per phase of the engine and per handler: what each may answer, said once (R122 to R128,
R134, R150, R155 to R157, R170, R177, R178). -/

namespace Sys2Proof.Machine

/-- Where a list of bytes cannot be read, one of them cannot. -/
theorem memRead_error {s : State} {n : Nat} {f : BlockFault} : ∀ {a : Nat}, memRead s a n = .error f →
    ∃ i, a ≤ i ∧ i < a + n ∧ readByte s i = .error f := by
  induction n with
  | zero => intro a h; cases h
  | succ n ih =>
    intro a h
    simp only [memRead] at h
    split at h
    · rename_i g hg
      cases h
      exact ⟨a, by omega, by omega, hg⟩
    · split at h
      · rename_i g hg
        cases h
        obtain ⟨i, h₁, h₂, h₃⟩ := ih hg
        exact ⟨i, by omega, by omega, h₃⟩
      · cases h

theorem readReq_error {s : State} {f : BlockFault} (h : readReq s = .error f) :
    s.req = none ∧ f = .unsetRead .req := by
  unfold readReq at h
  split at h
  · cases h
  · cases h; exact ⟨‹_›, rfl⟩

theorem readMark_error {s : State} {f : BlockFault} (h : readMark s = .error f) :
    s.tMark = none ∧ f = .unsetRead .tMark := by
  unfold readMark at h
  split at h
  · cases h
  · cases h; exact ⟨‹_›, rfl⟩

theorem readCharTo_error {s : State} {f : BlockFault} (h : readCharTo s = .error f) :
    s.charTo = none ∧ f = .timingUnset (currentOp s) := by
  unfold readCharTo at h
  split at h
  · cases h
  · cases h; exact ⟨‹_›, rfl⟩

theorem readFrameTo_error {s : State} {f : BlockFault} (h : readFrameTo s = .error f) :
    s.frameTo = none ∧ f = .timingUnset (currentOp s) := by
  unfold readFrameTo at h
  split at h
  · cases h
  · cases h; exact ⟨‹_›, rfl⟩

/-- Bytes that `BUF` holds are read. -/
theorem Holds.read {s : State} {d : List Byte} (h : Holds s d) : memRead s 0 d.length = .ok d := by
  refine memRead_ok_iff.2 ⟨rfl, fun i hi => ⟨d[i], by simp [hi], readByte_ok_iff.2 ⟨?_, ?_⟩⟩⟩
  · have := h.fits; omega
  · rw [Nat.zero_add, h.bytes i hi]; simp [hi]

theorem Holds.readByte {s : State} {d : List Byte} (h : Holds s d) {i : Nat} {b : Byte} (hb : d[i]? = some b) :
    readByte s i = .ok b := by
  have hi : i < d.length := by
    by_contra hc; rw [List.getElem?_eq_none (by omega)] at hb; cases hb
  exact readByte_ok_iff.2 ⟨by have := h.fits; omega, by rw [h.bytes i hi, hb]⟩

theorem Holds.left {s : State} {d e : List Byte} (h : Holds s (d ++ e)) : Holds s d := by
  refine ⟨?_, fun i hi => ?_⟩
  · have := h.fits; simp at this; omega
  · rw [h.bytes i (by simp; omega), List.getElem?_append_left hi]

/-- `Holds` looks at the parameters and `BUF` alone. -/
theorem Holds.congr {s t : State} {d : List Byte} (h : Holds s d) (hp : t.params = s.params) (hb : t.buf = s.buf) :
    Holds t d := ⟨by rw [hp]; exact h.fits, fun i hi => by rw [hb]; exact h.bytes i hi⟩

/-- Reading a list of bytes stops at the first unset one. -/
theorem memRead_unset {s : State} {i n : Nat} (hn : n ≤ s.params.bufCap) (hu : FirstUnset s n i) :
    ∀ {k a}, a + k = n → a ≤ i → memRead s a k = .error (.unsetRead (.buf i)) := by
  intro k
  induction k with
  | zero => intro a h₁ h₂; have := hu.below; omega
  | succ k ih =>
    intro a h₁ h₂
    have hb := hu.below
    by_cases ha : a = i
    · subst ha
      have : Machine.readByte s a = .error (.unsetRead (.buf a)) := by
        simp [Machine.readByte, hu.unset, show a < s.params.bufCap by omega]
      simp [memRead, this]
    · obtain ⟨b, hb'⟩ := Option.isSome_iff_exists.1 (hu.first a (by omega))
      have : Machine.readByte s a = .ok b := readByte_ok_iff.2 ⟨by omega, hb'⟩
      simp [memRead, this, ih (a := a + 1) (by omega) (by omega)]

/-- CRC_VALIDATE of bytes that `BUF` holds. -/
theorem crcValidate_of_holds {s : State} {d : List Byte} {l h : Byte} (hd : Holds s (d ++ [l, h])) :
    crcValidate s (d.length + 2) = .ok (decide (l = lo (crc16 d) ∧ h = hi (crc16 d))) := by
  have h0 : memRead s 0 (d.length + 2 - 2) = .ok d := by simpa using hd.left.read
  have h1 : readByte s (d.length + 2 - 2) = .ok l := hd.readByte (by simp)
  have h2 : readByte s (d.length + 2 - 1) = .ok h := hd.readByte (by simp)
  simp only [crcValidate, h0, h1, h2, if_neg (show ¬ d.length + 2 < 2 by omega)]
  simp [Bool.decide_and]

/-- FLUSH_STALE discards a byte, ends, stays, or finds a register unset. -/
theorem phaseFlushStale_cases {s t : State} (h : phaseFlushStale s = .next t) :
    (∃ b q, s.rxq = b :: q ∧ t = (s.setRxq q).setMark s.now) ∨
    (∃ m w, s.rxq = [] ∧ s.tMark = some m ∧ s.frameTo = some w ∧
      ((expired s m w = true ∧ t = s.setPhase .transmit) ∨ (expired s m w = false ∧ t = s))) ∨
    (∃ f, (s.tMark = none ∨ s.frameTo = none) ∧ t = s.setFault f) := by
  unfold phaseFlushStale at h
  split at h
  · rename_i b q hq; cases h; exact .inl ⟨b, q, hq, rfl⟩
  · rename_i hq
    rcases orRaise_cases h with ⟨m, hm, h⟩ | ⟨f, hf, rfl⟩
    · rcases orRaise_cases h with ⟨w, hw, h⟩ | ⟨f, hf, rfl⟩
      · refine .inr (.inl ⟨m, w, hq, readMark_ok hm, readFrameTo_ok hw, ?_⟩)
        split at h
        · cases h; exact .inl ⟨‹_›, rfl⟩
        · cases h; exact .inr ⟨Bool.eq_false_iff.2 ‹_›, rfl⟩
      · exact .inr (.inr ⟨f, .inr (readFrameTo_error hf).1, rfl⟩)
    · exact .inr (.inr ⟨f, .inl (readMark_error hf).1, rfl⟩)

/-- After the frame: a broadcast succeeds, any other request waits. -/
theorem afterTransmit_cases {u t : State} (h : afterTransmit u = .next t) :
    (∃ r, u.req = some r ∧ r.expect = true ∧ t = ((u.setRxLen 0).setMark u.now).setPhase .rxWait) ∨
    (∃ r, u.req = some r ∧ r.expect = false ∧ succeed u = .next t) ∨
    (u.req = none ∧ t = u.setFault (.unsetRead .req)) := by
  unfold afterTransmit at h
  rcases orRaise_cases h with ⟨r, hr, h⟩ | ⟨g, hg, rfl⟩
  · split at h
    · cases h; exact .inl ⟨r, readReq_ok hr, ‹_›, rfl⟩
    · exact .inr (.inl ⟨r, readReq_ok hr, Bool.eq_false_iff.2 ‹_›, h⟩)
  · obtain ⟨h₁, rfl⟩ := readReq_error hg
    exact .inr (.inr ⟨h₁, rfl⟩)

/-- The state TRANSMIT reaches once the frame `f` has been sent (R123, R124). -/
def State.sent (s : State) (f : List Byte) : State :=
  ((((s.driveDE true).transportWrite f).transportFlush).driveDE false).setExc 0#8

/-- TRANSMIT sends the frame and goes on, or finds a byte unset. -/
theorem phaseTransmit_cases {s t : State} (h : phaseTransmit s = .next t) :
    (∃ f, memRead s 0 (s.txLen + 2) = .ok f ∧ afterTransmit (s.sent f) = .next t) ∨
    (∃ f, memRead s 0 (s.txLen + 2) = .error f ∧ t = (s.driveDE true).setFault f) := by
  unfold phaseTransmit at h
  have e : memRead (s.driveDE true) 0 ((s.driveDE true).txLen + 2) = memRead s 0 (s.txLen + 2) :=
    memRead_congr (s := s) (t := s.driveDE true) rfl rfl _ _
  simp only [e] at h
  rcases orRaise_cases h with ⟨f, hf, h⟩ | ⟨f, hf, rfl⟩
  · exact .inl ⟨f, hf, h⟩
  · exact .inr ⟨f, hf, rfl⟩

/-- RX_WAIT stores the first byte, fails, stays, or finds a register unset. -/
theorem phaseRxWait_cases {s t : State} (h : phaseRxWait s = .next t) :
    (∃ b q, s.rxq = b :: q ∧ 1 ≤ s.params.bufCap ∧
      t = ((((s.setRxq q).setBuf 0 [b]).setRxLen 1).setMark s.now).setPhase .rxBytes) ∨
    (∃ b q f, s.rxq = b :: q ∧ s.params.bufCap = 0 ∧ t = (s.setRxq q).setFault f) ∨
    (∃ m, s.rxq = [] ∧ s.tMark = some m ∧ ((expired s m s.respTo = true ∧ fail s .communicationTimeout = .next t) ∨
      (expired s m s.respTo = false ∧ t = s))) ∨
    (∃ f, s.tMark = none ∧ t = s.setFault f) := by
  unfold phaseRxWait at h
  split at h
  · rename_i b q hq
    rcases memWrite_cases h with ⟨hl, h⟩ | ⟨hl, rfl⟩
    · cases h; exact .inl ⟨b, q, hq, by simpa using hl, rfl⟩
    · have h0 : s.params.bufCap = 0 := by simpa using hl
      exact .inr (.inl ⟨b, q, .bufferOverrun (max 0 s.params.bufCap), hq, h0, by
        rw [State.setRxq_params, h0]; rfl⟩)
  · rename_i hq
    rcases orRaise_cases h with ⟨m, hm, h⟩ | ⟨f, hf, rfl⟩
    · refine .inr (.inr (.inl ⟨m, hq, readMark_ok hm, ?_⟩))
      split at h
      · exact .inl ⟨‹_›, h⟩
      · cases h; exact .inr ⟨Bool.eq_false_iff.2 ‹_›, rfl⟩
    · exact .inr (.inr (.inr ⟨f, (readMark_error hf).1, rfl⟩))

/-- RX_BYTES ends, stores a byte, stays, or finds a register unset or the buffer overrun. -/
theorem phaseRxBytes_cases {s t : State} (h : phaseRxBytes s = .next t) :
    (s.rxLen = s.params.bufCap ∧ t = (s.setMark s.now).setPhase .rxSilence) ∨
    (∃ b q, s.rxLen < s.params.bufCap ∧ s.rxq = b :: q ∧
      t = (((s.setRxq q).setBuf s.rxLen [b]).setRxLen (s.rxLen + 1)).setMark s.now) ∨
    (∃ b q f, s.params.bufCap < s.rxLen ∧ s.rxq = b :: q ∧ t = (s.setRxq q).setFault f) ∨
    (∃ m w, s.rxLen ≠ s.params.bufCap ∧ s.rxq = [] ∧ s.tMark = some m ∧ s.charTo = some w ∧
      ((expired s m w = true ∧ t = (s.setMark s.now).setPhase .rxSilence) ∨
        (expired s m w = false ∧ t = s))) ∨
    (∃ f, (s.tMark = none ∨ s.charTo = none) ∧ t = s.setFault f) := by
  unfold phaseRxBytes at h
  split at h
  · cases h; exact .inl ⟨‹_›, rfl⟩
  · rename_i hne
    split at h
    · rename_i b q hq
      rcases memWrite_cases h with ⟨hl, h⟩ | ⟨hl, rfl⟩
      · cases h
        refine .inr (.inl ⟨b, q, ?_, hq, rfl⟩)
        simp at hl; omega
      · have h0 : s.params.bufCap < s.rxLen := by simp at hl; omega
        exact .inr (.inr (.inl ⟨b, q, .bufferOverrun (max s.rxLen s.params.bufCap), h0, hq, by
          rw [State.setRxq_params, show s.params.bufCap - s.rxLen = 0 by omega]; rfl⟩))
    · rename_i hq
      rcases orRaise_cases h with ⟨m, hm, h⟩ | ⟨f, hf, rfl⟩
      · rcases orRaise_cases h with ⟨w, hw, h⟩ | ⟨f, hf, rfl⟩
        · refine .inr (.inr (.inr (.inl ⟨m, w, hne, hq, readMark_ok hm, readCharTo_ok hw, ?_⟩)))
          split at h
          · cases h; exact .inl ⟨‹_›, rfl⟩
          · cases h; exact .inr ⟨Bool.eq_false_iff.2 ‹_›, rfl⟩
        · exact .inr (.inr (.inr (.inr ⟨f, .inr (readCharTo_error hf).1, rfl⟩)))
      · exact .inr (.inr (.inr (.inr ⟨f, .inl (readMark_error hf).1, rfl⟩)))

/-- RX_SILENCE ends, stays, or finds a register unset. -/
theorem phaseRxSilence_cases {s t : State} (h : phaseRxSilence s = .next t) :
    (∃ m w, s.tMark = some m ∧ s.frameTo = some w ∧
      ((expired s m w = true ∧ t = s.setPhase .validate) ∨ (expired s m w = false ∧ t = s))) ∨
    (∃ f, (s.tMark = none ∨ s.frameTo = none) ∧ t = s.setFault f) := by
  unfold phaseRxSilence at h
  rcases orRaise_cases h with ⟨m, hm, h⟩ | ⟨f, hf, rfl⟩
  · rcases orRaise_cases h with ⟨w, hw, h⟩ | ⟨f, hf, rfl⟩
    · refine .inl ⟨m, w, readMark_ok hm, readFrameTo_ok hw, ?_⟩
      split at h
      · cases h; exact .inl ⟨‹_›, rfl⟩
      · cases h; exact .inr ⟨Bool.eq_false_iff.2 ‹_›, rfl⟩
    · exact .inr ⟨f, .inr (readFrameTo_error hf).1, rfl⟩
  · exact .inr ⟨f, .inl (readMark_error hf).1, rfl⟩

/-- CRC_VALIDATE can fail to answer only where a byte of the frame cannot be read. -/
theorem crcValidate_error {s : State} {m : Nat} {f : BlockFault} (h : crcValidate s m = .error f) :
    ∃ i, i < m ∧ readByte s i = .error f := by
  unfold crcValidate at h
  split at h
  · cases h
  · split at h
    · cases h
    · rename_i g hg
      cases h
      obtain ⟨i, _, hi, hf⟩ := memRead_error hg
      exact ⟨i, by omega, hf⟩
    · cases h; exact ⟨m - 2, by omega, ‹_›⟩
    · cases h; exact ⟨m - 1, by omega, ‹_›⟩

/-- VALIDATE goes on to PARSE, fails, or finds a byte of the frame unset. -/
theorem phaseValidate_cases {s t : State} (h : phaseValidate s = .next t) :
    (s.rxq = [] ∧ 3 ≤ s.rxLen ∧ crcValidate s s.rxLen = .ok true ∧ t = s.setPhase .parse) ∨
    (∃ k, k ≠ .none ∧ k ≠ .deviceException ∧ fail s k = .next t) ∨
    (∃ f i, i < s.rxLen ∧ readByte s i = .error f ∧ t = s.setFault f) := by
  unfold phaseValidate at h
  split at h
  · exact .inr (.inl ⟨_, by decide, by decide, h⟩)
  · rename_i hq
    split at h
    · exact .inr (.inl ⟨_, by decide, by decide, h⟩)
    · rename_i h3
      rcases orRaise_cases h with ⟨g, hg, h⟩ | ⟨f, hf, rfl⟩
      · split at h
        · rename_i hgood
          subst hgood
          cases h
          exact .inl ⟨by simpa using hq, by omega, hg, rfl⟩
        · exact .inr (.inl ⟨_, by decide, by decide, h⟩)
      · obtain ⟨i, hi, hf⟩ := crcValidate_error hf
        exact .inr (.inr ⟨f, i, hi, hf, rfl⟩)

/-- PARSE_READ hands the data bytes on, fails, or finds a byte unset. -/
theorem parseRead_cases {unit : DataUnit} {req : ReqContext} {s t : State} {k : List Byte → Out}
    (h : parseRead unit req s k = .next t) :
    (∃ d, d.length = byteCount unit req.qty.toNat ∧ s.rxLen = 5 + byteCount unit req.qty.toNat ∧
      memRead s 3 (byteCount unit req.qty.toNat) = .ok d ∧ k d = .next t) ∨
    (fail s .frameIntegrityError = .next t) ∨
    (∃ f i, (3 ≤ s.rxLen → i < s.rxLen) ∧ readByte s i = .error f ∧ t = s.setFault f) := by
  unfold parseRead respLen at h
  split at h
  · exact .inr (.inl h)
  · rename_i hL
    rcases orRaise_cases h with ⟨b, hb, h⟩ | ⟨f, hf, rfl⟩
    · split at h
      · exact .inr (.inl h)
      · rcases orRaise_cases h with ⟨d, hd, h⟩ | ⟨f, hf, rfl⟩
        · exact .inl ⟨d, (memRead_ok_iff.1 hd).1, by omega, hd, h⟩
        · obtain ⟨i, h₁, h₂, h₃⟩ := memRead_error hf
          exact .inr (.inr ⟨f, i, fun _ => by omega, h₃, rfl⟩)
    · exact .inr (.inr ⟨f, 2, fun _ => by omega, hf, rfl⟩)

/-- The echo checks succeed, fail, or find a byte unset. -/
theorem parseEcho_cases {req : ReqContext} {v : Word16} {s t : State} (h : parseEcho req v s = .next t) :
    (succeed s = .next t) ∨ (∃ k, k ≠ .none ∧ k ≠ .deviceException ∧ fail s k = .next t) ∨
    (∃ f i, (3 ≤ s.rxLen → i < s.rxLen) ∧ readByte s i = .error f ∧ t = s.setFault f) := by
  unfold parseEcho respLen at h
  split at h
  · exact .inr (.inl ⟨_, by decide, by decide, h⟩)
  · rename_i hL
    rcases orRaise_cases h with ⟨a1, _, h⟩ | ⟨f, hf, rfl⟩
    · rcases orRaise_cases h with ⟨a0, _, h⟩ | ⟨f, hf, rfl⟩
      · split at h
        · exact .inr (.inl ⟨_, by decide, by decide, h⟩)
        · rcases orRaise_cases h with ⟨v1, _, h⟩ | ⟨f, hf, rfl⟩
          · rcases orRaise_cases h with ⟨v0, _, h⟩ | ⟨f, hf, rfl⟩
            · split at h
              · exact .inr (.inl ⟨_, by decide, by decide, h⟩)
              · exact .inl h
            · exact .inr (.inr ⟨f, 5, fun _ => by omega, hf, rfl⟩)
          · exact .inr (.inr ⟨f, 4, fun _ => by omega, hf, rfl⟩)
      · exact .inr (.inr ⟨f, 3, fun _ => by omega, hf, rfl⟩)
    · exact .inr (.inr ⟨f, 2, fun _ => by omega, hf, rfl⟩)

/-- PARSE_HEADER goes on, fails, captures an exception byte, or finds a byte unreadable. -/
theorem parseHeader_cases {req : ReqContext} {id fc code : Except BlockFault Byte} {s t : State} {k : Out}
    (h : parseHeader req id fc code s k = .next t) :
    (fc = .ok (fcByte req.fc) ∧ k = .next t) ∨
    (∃ e, e ≠ .none ∧ e ≠ .deviceException ∧ fail s e = .next t) ∨
    (∃ c, fc = .ok (exceptionFc (fcByte req.fc)) ∧ code = .ok c ∧ respLen s = 3 ∧
      deviceException s c = .next t) ∨
    (∃ f, (id = .error f ∨ fc = .error f ∨ (respLen s = 3 ∧ code = .error f)) ∧ t = s.setFault f) := by
  unfold parseHeader at h
  rcases orRaise_cases h with ⟨b0, _, h⟩ | ⟨f, hf, rfl⟩
  · split at h
    · exact .inr (.inl ⟨_, by decide, by decide, h⟩)
    · rcases orRaise_cases h with ⟨b1, hb1, h⟩ | ⟨f, hf, rfl⟩
      · split at h
        · rename_i hex
          subst hex
          split at h
          · rename_i hL
            rcases orRaise_cases h with ⟨c, hc, h⟩ | ⟨f, hf, rfl⟩
            · exact .inr (.inr (.inl ⟨c, hb1, hc, hL, h⟩))
            · exact .inr (.inr (.inr ⟨f, .inr (.inr ⟨hL, hf⟩), rfl⟩))
          · exact .inr (.inl ⟨_, by decide, by decide, h⟩)
        · split at h
          · exact .inr (.inl ⟨_, by decide, by decide, h⟩)
          · rename_i hne
            exact .inl ⟨by rw [hb1, Decidable.not_not.1 hne], h⟩
      · exact .inr (.inr (.inr ⟨f, .inr (.inl hf), rfl⟩))
  · exact .inr (.inr (.inr ⟨f, .inl hf, rfl⟩))

/-- The answers of a function code's own checks: success, with the output buffer written for a read; a
failure; an unset byte; or a read without an output buffer. -/
def FinishAnswer (req : ReqContext) (s t : State) : Prop :=
  (∃ u, succeed u = .next t ∧
    (((req.fc = .readCoils ∨ req.fc = .readDiscreteInputs) ∧ ∃ name d, req.out = some name ∧
        u = s.setBits name
          (overlay (unpackBits d req.qty.toNat) ((Cells.read s.bitBufs name).getD []))) ∨
     ((req.fc = .readHoldingRegisters ∨ req.fc = .readInputRegisters) ∧ ∃ name d, req.out = some name ∧
        u = s.setWords name
          (overlay (unpackRegs d req.qty.toNat) ((Cells.read s.wordBufs name).getD []))) ∨
     u = s)) ∨
  (∃ k, k ≠ .none ∧ k ≠ .deviceException ∧ fail s k = .next t) ∨
  (∃ f i, (3 ≤ s.rxLen → i < s.rxLen) ∧ readByte s i = .error f ∧ t = s.setFault f) ∨
  (∃ f, req.out = none ∧ (req.fc = .readCoils ∨ req.fc = .readDiscreteInputs ∨ req.fc = .readHoldingRegisters ∨
    req.fc = .readInputRegisters) ∧ t = s.setFault f)

theorem finishReadBits_cases {req : ReqContext} {s t : State}
    (hfc : req.fc = .readCoils ∨ req.fc = .readDiscreteInputs) (h : finishReadBits req s = .next t) :
    FinishAnswer req s t := by
  rcases parseRead_cases h with ⟨d, _, _, _, h⟩ | h | h
  · cases ho : req.out with
    | none => simp only [ho] at h; exact .inr (.inr (.inr ⟨_, ho, by tauto, raise_eq_next.1 h⟩))
    | some name => simp only [ho] at h; exact .inl ⟨_, h, .inl ⟨hfc, name, d, ho, rfl⟩⟩
  · exact .inr (.inl ⟨_, by decide, by decide, h⟩)
  · exact .inr (.inr (.inl h))

theorem finishReadRegisters_cases {req : ReqContext} {s t : State}
    (hfc : req.fc = .readHoldingRegisters ∨ req.fc = .readInputRegisters)
    (h : finishReadRegisters req s = .next t) : FinishAnswer req s t := by
  rcases parseRead_cases h with ⟨d, _, _, _, h⟩ | h | h
  · cases ho : req.out with
    | none => simp only [ho] at h; exact .inr (.inr (.inr ⟨_, ho, by tauto, raise_eq_next.1 h⟩))
    | some name => simp only [ho] at h; exact .inl ⟨_, h, .inr (.inl ⟨hfc, name, d, ho, rfl⟩)⟩
  · exact .inr (.inl ⟨_, by decide, by decide, h⟩)
  · exact .inr (.inr (.inl h))

theorem finishEcho_cases {req : ReqContext} {v : Word16} {s t : State} (h : parseEcho req v s = .next t) :
    FinishAnswer req s t := by
  rcases parseEcho_cases h with h | h | h
  · exact .inl ⟨s, h, .inr (.inr rfl)⟩
  · exact .inr (.inl h)
  · exact .inr (.inr (.inl h))

theorem finishResponse_cases {req : ReqContext} {s t : State} (h : finishResponse req s = .next t) :
    FinishAnswer req s t := by
  unfold finishResponse at h
  split at h <;> rename_i hfc
  · exact finishReadBits_cases (.inl hfc) h
  · exact finishReadBits_cases (.inr hfc) h
  · exact finishReadRegisters_cases (.inl hfc) h
  · exact finishReadRegisters_cases (.inr hfc) h
  all_goals exact finishEcho_cases h

/-- What the argument checks and the request of a read may answer (R150). -/
theorem readRequest_cases {fc : FuncCode} {len : Option Nat} {id : Byte} {addr : Word16} {out : Option BufName}
    {qty : Word16} {s t : State} (h : readRequest fc len id addr out qty s = .next t) :
    (fail s .invalidArgument = .next t) ∨
    (∃ n, n < qty.toNat ∧ len = some n ∧ t = s.setFault (.bufferTooShort qty.toNat n)) ∨
    (∃ n, 1 ≤ qty.toNat ∧ qty.toNat ≤ qtyMax fc ∧ len = some n ∧ qty.toNat ≤ n ∧
      startRequest fc.op (header id fc addr qty)
        { id := id, fc := fc, addr := addr, qty := qty, val := 0#16, expect := true, out := out } s = .next t) := by
  unfold readRequest at h
  split at h
  · exact .inl h
  · split at h
    · exact .inl h
    · rename_i hq
      split at h
      · exact .inl h
      · rename_i n
        split at h
        · rename_i hlt
          exact .inr (.inl ⟨n, hlt, rfl, raise_eq_next.1 h⟩)
        · exact .inr (.inr ⟨n, by omega, by omega, rfl, by omega, h⟩)

/-- What the id check and the request of a single write may answer (R170). -/
theorem writeSingle_cases {fc : FuncCode} {id : Byte} {addr v : Word16} {s t : State}
    (h : writeSingle fc id addr v s = .next t) :
    (fail s .invalidArgument = .next t) ∨
    (startRequest fc.op (header id fc addr v) (writeReq id fc addr 1#16 v) s = .next t) := by
  unfold writeSingle at h
  split at h
  · exact .inl h
  · exact .inr h

/-- What the argument checks and the request of a multiple write may answer (R170). -/
theorem writeMultiple_cases {α : Type} {fc : FuncCode} {unit : DataUnit} {pack : List α → Nat → List Byte}
    {id : Byte} {addr : Word16} {data : Option (List α)} {qty : Word16} {s t : State}
    (h : writeMultiple fc unit pack id addr data qty s = .next t) :
    (fail s .invalidArgument = .next t) ∨
    (∃ l, data = some l ∧ l.length < qty.toNat ∧ t = s.setFault (.bufferTooShort qty.toNat l.length)) ∨
    (∃ l, 1 ≤ qty.toNat ∧ qty.toNat ≤ qtyMax fc ∧ data = some l ∧ qty.toNat ≤ l.length ∧
      startRequest fc.op (header id fc addr qty ++ BitVec.ofNat 8 (byteCount unit qty.toNat) :: pack l qty.toNat)
        (writeReq id fc addr qty 0#16) s = .next t) := by
  unfold writeMultiple at h
  split at h
  · exact .inl h
  · split at h
    · exact .inl h
    · rename_i hq
      split at h
      · exact .inl h
      · rename_i l
        split at h
        · rename_i hlt
          exact .inr (.inl ⟨l, rfl, hlt, raise_eq_next.1 h⟩)
        · exact .inr (.inr ⟨l, by omega, by omega, rfl, by omega, h⟩)

/-- A request starts, or finds a timeout unset, or does not fit the buffer (R120, R121). -/
theorem startRequest_cases {op : OpName} {words : List Byte} {req : ReqContext} {s t : State}
    (h : startRequest op words req s = .next t) :
    (∃ c f, s.charTo = some c ∧ s.frameTo = some f ∧ words.length + 2 ≤ s.params.bufCap ∧
      t = (((((s.setBuf 0 words).setTxLen words.length).setReq req).setBuf words.length
        [lo (crc16 words), hi (crc16 words)]).setMark s.now).setPhase .flushStale) ∨
    ((s.charTo = none ∨ s.frameTo = none) ∧ words.length ≤ s.params.bufCap ∧
      t = (((s.setBuf 0 words).setTxLen words.length).setReq req).setFault (.timingUnset op)) ∨
    (s.params.bufCap < words.length + 2 ∧ ∃ v f u, t = (u.setBuf 0 v).setFault f ∧
      (u = s ∨ u = (s.setTxLen words.length).setReq req)) := by
  by_cases hfit : words.length ≤ s.params.bufCap
  · by_cases hset : s.charTo.isSome ∧ s.frameTo.isSome
    · obtain ⟨c, hc⟩ := Option.isSome_iff_exists.1 hset.1
      obtain ⟨f, hf⟩ := Option.isSome_iff_exists.1 hset.2
      by_cases hcrc : words.length + 2 ≤ s.params.bufCap
      · rw [startRequest_of_ok hc hf hcrc] at h
        cases h
        exact .inl ⟨c, f, hc, hf, hcrc, rfl⟩
      · rw [startRequest, memWrite_of_fits (by omega)] at h
        refine .inr (.inr ⟨by omega, words, .bufferOverrun words.length,
          (s.setTxLen words.length).setReq req, ?_, .inr rfl⟩)
        have h' : raise (((s.setBuf 0 words).setTxLen words.length).setReq req) (.bufferOverrun words.length)
            = .next t := by
          simpa [transact, hset, crcEncode, show s.params.bufCap < words.length + 2 by omega] using h
        exact raise_eq_next.1 h'
    · have hun : s.charTo = none ∨ s.frameTo = none := by
        by_cases h₁ : s.charTo.isSome
        · exact .inr (by simpa [h₁] using hset)
        · exact .inl (by simpa using h₁)
      rw [startRequest, memWrite_of_fits (by omega), transact_of_unset (by simpa using hun)] at h
      exact .inr (.inl ⟨hun, hfit, raise_eq_next.1 h⟩)
  · rcases memWrite_cases h with ⟨hl, _⟩ | ⟨_, rfl⟩
    · omega
    · exact .inr (.inr ⟨by omega, _, _, s, rfl, .inl rfl⟩)

/-- What an operation of R40 may answer at the port. -/
def PortAnswer (i : Instr) (s t : State) : Prop :=
  s.fault = none ∧
  ((s.phase ≠ .idle ∧ t = s.setFault (.reentry i.op)) ∨
   (s.phase = .idle ∧
    ((∃ baud fmt, i = .configure baud fmt ∧ succeed (s.setTimeouts (timingCalc s.params.bitsTable baud fmt)) = .next t) ∨
     (∃ w, i = .setResponseTimeout w ∧ succeed (s.setRespTo w) = .next t) ∨
     (i = .getExceptionCode ∧ succeedWith s s.exc = .next t) ∨
     (isDeviceOp i = true ∧ fail s .invalidArgument = .next t) ∨
     (isDeviceOp i = true ∧ ∃ q n, n < q ∧ t = s.setFault (.bufferTooShort q n)) ∨
     (isDeviceOp i = true ∧ ∃ words req, words.length ≤ 253 ∧ outputFits s req ∧
       startRequest i.op words req s = .next t))))

theorem read_portAnswer {i : Instr} {s t : State} {fc : FuncCode} {len : Option Nat} {id : Byte} {addr : Word16}
    {out : Option BufName} {qty : Word16} (hop : fc.op = i.op) (hdev : isDeviceOp i = true)
    (hlen : ∀ n, len = some n → qty.toNat ≤ n →
      outputFits s { id := id, fc := fc, addr := addr, qty := qty, val := 0#16, expect := true, out := out })
    (h : hostOp i.op s (readRequest fc len id addr out qty s) = .next t) : PortAnswer i s t := by
  obtain ⟨hf, ⟨hp, h⟩ | ⟨hp, h⟩⟩ := hostOp_cases h
  · refine ⟨hf, .inr ⟨hp, ?_⟩⟩
    rcases readRequest_cases h with h | ⟨n, hlt, _, rfl⟩ | ⟨n, _, _, hn, hle, h⟩
    · exact .inr (.inr (.inr (.inl ⟨hdev, h⟩)))
    · exact .inr (.inr (.inr (.inr (.inl ⟨hdev, _, n, hlt, rfl⟩))))
    · exact .inr (.inr (.inr (.inr (.inr ⟨hdev, _, _, by simp, hlen n hn hle, hop ▸ h⟩))))
  · exact ⟨hf, .inl ⟨hp, h⟩⟩

theorem bits_outputFits {s : State} {fc : FuncCode} (hfc : fc = .readCoils ∨ fc = .readDiscreteInputs) {id : Byte}
    {addr : Word16} {out : Option BufName} {qty : Word16} (n : Nat) (hn : bitBufLen s out = some n)
    (hle : qty.toNat ≤ n) :
    outputFits s { id := id, fc := fc, addr := addr, qty := qty, val := 0#16, expect := true, out := out } := by
  cases out with
  | none => simp [bitBufLen] at hn
  | some name =>
    cases hb : Cells.read s.bitBufs name with
    | none => simp [bitBufLen, hb] at hn
    | some bits =>
      have : qty.toNat ≤ bits.length := by simp [bitBufLen, hb] at hn; omega
      rcases hfc with rfl | rfl <;> exact ⟨name, bits, rfl, hb, this⟩

theorem words_outputFits {s : State} {fc : FuncCode} (hfc : fc = .readHoldingRegisters ∨ fc = .readInputRegisters)
    {id : Byte} {addr : Word16} {out : Option BufName} {qty : Word16} (n : Nat) (hn : wordBufLen s out = some n)
    (hle : qty.toNat ≤ n) :
    outputFits s { id := id, fc := fc, addr := addr, qty := qty, val := 0#16, expect := true, out := out } := by
  cases out with
  | none => simp [wordBufLen] at hn
  | some name =>
    cases hb : Cells.read s.wordBufs name with
    | none => simp [wordBufLen, hb] at hn
    | some ws =>
      have : qty.toNat ≤ ws.length := by simp [wordBufLen, hb] at hn; omega
      rcases hfc with rfl | rfl <;> exact ⟨name, ws, rfl, hb, this⟩

theorem writeSingle_portAnswer {i : Instr} {s t : State} {fc : FuncCode} {id : Byte} {addr v : Word16}
    (hop : fc.op = i.op) (hdev : isDeviceOp i = true) (hfit : outputFits s (writeReq id fc addr 1#16 v))
    (h : hostOp i.op s (writeSingle fc id addr v s) = .next t) : PortAnswer i s t := by
  obtain ⟨hf, ⟨hp, h⟩ | ⟨hp, h⟩⟩ := hostOp_cases h
  · refine ⟨hf, .inr ⟨hp, ?_⟩⟩
    rcases writeSingle_cases h with h | h
    · exact .inr (.inr (.inr (.inl ⟨hdev, h⟩)))
    · exact .inr (.inr (.inr (.inr (.inr ⟨hdev, _, _, by simp, hfit, hop ▸ h⟩))))
  · exact ⟨hf, .inl ⟨hp, h⟩⟩

theorem writeMultiple_portAnswer {α : Type} {i : Instr} {s t : State} {fc : FuncCode} {unit : DataUnit}
    {pack : List α → Nat → List Byte} {id : Byte} {addr : Word16} {data : Option (List α)} {qty : Word16}
    (hop : fc.op = i.op) (hdev : isDeviceOp i = true) (hfit : outputFits s (writeReq id fc addr qty 0#16))
    (hlen : ∀ l, qty.toNat ≤ l.length → qty.toNat ≤ qtyMax fc → (pack l qty.toNat).length ≤ 246)
    (h : hostOp i.op s (writeMultiple fc unit pack id addr data qty s) = .next t) : PortAnswer i s t := by
  obtain ⟨hf, ⟨hp, h⟩ | ⟨hp, h⟩⟩ := hostOp_cases h
  · refine ⟨hf, .inr ⟨hp, ?_⟩⟩
    rcases writeMultiple_cases h with h | ⟨l, _, hlt, rfl⟩ | ⟨l, _, hq, _, hle, h⟩
    · exact .inr (.inr (.inr (.inl ⟨hdev, h⟩)))
    · exact .inr (.inr (.inr (.inr (.inl ⟨hdev, _, _, hlt, rfl⟩))))
    · refine .inr (.inr (.inr (.inr (.inr ⟨hdev, _, _, ?_, hfit, hop ▸ h⟩))))
      have := hlen l hle hq
      simp; omega
  · exact ⟨hf, .inl ⟨hp, h⟩⟩

/-- An operation of R40 that the port runs. -/
theorem exec_atPort_cases {i : Instr} {s t : State} (hi : i.op.atPort = true) (h : exec i s = .next t) :
    PortAnswer i s t := by
  cases i with
  | readCoils id addr out qty => exact read_portAnswer rfl rfl (fun n => bits_outputFits (.inl rfl) n) h
  | readDiscreteInputs id addr out qty => exact read_portAnswer rfl rfl (fun n => bits_outputFits (.inr rfl) n) h
  | readHoldingRegisters id addr out qty => exact read_portAnswer rfl rfl (fun n => words_outputFits (.inl rfl) n) h
  | readInputRegisters id addr out qty => exact read_portAnswer rfl rfl (fun n => words_outputFits (.inr rfl) n) h
  | writeSingleCoil id addr v =>
    exact writeSingle_portAnswer (fc := .writeSingleCoil) rfl rfl (by simp [outputFits, writeReq]) h
  | writeSingleRegister id addr v =>
    exact writeSingle_portAnswer (fc := .writeSingleRegister) rfl rfl (by simp [outputFits, writeReq]) h
  | writeMultipleCoils id addr data qty =>
    exact writeMultiple_portAnswer (fc := .writeMultipleCoils) rfl rfl (by simp [outputFits, writeReq])
      (fun l _ hq => by simp only [qtyMax, packBits_length] at hq ⊢; omega) h
  | writeMultipleRegisters id addr data qty =>
    exact writeMultiple_portAnswer (fc := .writeMultipleRegisters) rfl rfl (by simp [outputFits, writeReq])
      (fun l hl hq => by rw [packRegs_length _ _ hl]; simp only [qtyMax] at hq; omega) h
  | configure baud fmt =>
    obtain ⟨hf, ⟨hp, h⟩ | ⟨hp, h⟩⟩ := hostOp_cases h
    · exact ⟨hf, .inr ⟨hp, .inl ⟨baud, fmt, rfl, h⟩⟩⟩
    · exact ⟨hf, .inl ⟨hp, h⟩⟩
  | setResponseTimeout w =>
    obtain ⟨hf, ⟨hp, h⟩ | ⟨hp, h⟩⟩ := hostOp_cases h
    · exact ⟨hf, .inr ⟨hp, .inr (.inl ⟨w, rfl, h⟩)⟩⟩
    · exact ⟨hf, .inl ⟨hp, h⟩⟩
  | getExceptionCode =>
    obtain ⟨hf, ⟨hp, h⟩ | ⟨hp, h⟩⟩ := hostOp_cases h
    · exact ⟨hf, .inr ⟨hp, .inr (.inr (.inl ⟨rfl, h⟩))⟩⟩
    · exact ⟨hf, .inl ⟨hp, h⟩⟩
  | exceptionResponse => cases hi
  | crc16 => cases hi
  | crcUpdate => cases hi
  | crcEncode => cases hi
  | crcValidate => cases hi
  | timingCalc => cases hi
  | transact => cases hi

/-! ## What each phase does where the registers it reads are set -/

theorem phaseFlushStale_of_byte {s : State} {b : Byte} {q : List Byte} (h : s.rxq = b :: q) :
    phaseFlushStale s = .next ((s.setRxq q).setMark s.now) := by simp only [phaseFlushStale, h]

theorem phaseFlushStale_of_silence {s : State} {m : Nat} {w : Word32} (hq : s.rxq = []) (hm : s.tMark = some m)
    (hw : s.frameTo = some w) :
    phaseFlushStale s = if expired s m w then .next (s.setPhase .transmit) else .next s := by
  simp only [phaseFlushStale, hq, readMark_some hm, readFrameTo_some hw, orRaise_ok]

/-- The model's order of updates in TRANSMIT gives the state `transmitted` describes. -/
theorem sent_eq_transmitted (s : State) (f : List Byte) : s.sent f = s.transmitted f := by
  unfold State.sent State.transmitted State.driveDE State.transportWrite State.transportFlush State.setExc
  by_cases h : s.params.hasDE = true
  · simp only [h, if_true, List.append_assoc, List.cons_append, List.nil_append]
  · simp only [h, if_false, List.append_assoc, List.cons_append, List.nil_append, Bool.false_eq_true]

theorem phaseTransmit_of_holds {s : State} {f : List Byte} (hf : Holds s f) (hl : f.length = s.txLen + 2) :
    phaseTransmit s = afterTransmit (s.transmitted f) := by
  have e : memRead (s.driveDE true) 0 ((s.driveDE true).txLen + 2) = .ok f := by
    rw [memRead_congr (s := s) (t := s.driveDE true) rfl rfl]
    show memRead s 0 (s.txLen + 2) = _
    rw [← hl]; exact hf.read
  rw [← sent_eq_transmitted]
  simp only [phaseTransmit, e, orRaise_ok]
  rfl

theorem afterTransmit_of_expect {s : State} {r : ReqContext} (hr : s.req = some r) (he : r.expect = true) :
    afterTransmit s = .next (((s.setRxLen 0).setMark s.now).setPhase .rxWait) := by
  simp only [afterTransmit, readReq_some hr, orRaise_ok, he, if_true]

theorem afterTransmit_of_broadcast {s : State} {r : ReqContext} (hr : s.req = some r) (he : r.expect = false) :
    afterTransmit s = succeed s := by
  simp only [afterTransmit, readReq_some hr, orRaise_ok, he, Bool.false_eq_true, if_false]

theorem phaseRxWait_of_byte {s : State} {b : Byte} {q : List Byte} (hc : 1 ≤ s.params.bufCap) (h : s.rxq = b :: q) :
    phaseRxWait s = .next ((((s.setRxq q).setBuf 0 [b]).setRxLen 1).setMark s.now |>.setPhase .rxBytes) := by
  simp only [phaseRxWait, h]
  rw [memWrite_of_fits (by simpa using hc)]
  rfl

theorem phaseRxWait_of_silence {s : State} {m : Nat} (hq : s.rxq = []) (hm : s.tMark = some m) :
    phaseRxWait s = if expired s m s.respTo then fail s .communicationTimeout else .next s := by
  simp only [phaseRxWait, hq, readMark_some hm, orRaise_ok]

theorem phaseRxBytes_of_full {s : State} (h : s.rxLen = s.params.bufCap) :
    phaseRxBytes s = .next ((s.setMark s.now).setPhase .rxSilence) := by rw [phaseRxBytes, if_pos h]

theorem phaseRxBytes_of_byte {s : State} {b : Byte} {q : List Byte} (hl : s.rxLen < s.params.bufCap)
    (h : s.rxq = b :: q) :
    phaseRxBytes s = .next ((((s.setRxq q).setBuf s.rxLen [b]).setRxLen (s.rxLen + 1)).setMark s.now) := by
  rw [phaseRxBytes, if_neg (by omega)]
  simp only [h]
  rw [memWrite_of_fits (by simp; omega)]
  rfl

theorem phaseRxBytes_of_silence {s : State} {m : Nat} {w : Word32} (hl : s.rxLen < s.params.bufCap) (hq : s.rxq = [])
    (hm : s.tMark = some m) (hw : s.charTo = some w) :
    phaseRxBytes s = if expired s m w then .next ((s.setMark s.now).setPhase .rxSilence) else .next s := by
  rw [phaseRxBytes, if_neg (by omega)]
  simp only [hq, readMark_some hm, readCharTo_some hw, orRaise_ok]

theorem phaseRxSilence_of_set {s : State} {m : Nat} {w : Word32} (hm : s.tMark = some m) (hw : s.frameTo = some w) :
    phaseRxSilence s = if expired s m w then .next (s.setPhase .validate) else .next s := by
  simp only [phaseRxSilence, readMark_some hm, readFrameTo_some hw, orRaise_ok]

theorem phaseValidate_of_holds {s : State} {d : List Byte} {l h : Byte} (hq : s.rxq = []) (h3 : 3 ≤ s.rxLen)
    (hd : Holds s (d ++ [l, h])) (hl : s.rxLen = d.length + 2) :
    phaseValidate s = if l = lo (crc16 d) ∧ h = hi (crc16 d) then .next (s.setPhase .parse)
      else fail s .frameIntegrityError := by
  rw [phaseValidate, if_neg (by simp [hq]), if_neg (by omega), hl, crcValidate_of_holds hd]
  simp only [orRaise_ok, decide_eq_true_eq]

/-- A window that has run out, and one that has not (R117). -/
theorem expired_of_le {s : State} {m : Nat} {w : Word32} (h : w.toNat ≤ elapsed s m) : expired s m w = true :=
  decide_eq_true h

theorem expired_of_lt {s : State} {m : Nat} {w : Word32} (h : elapsed s m < w.toNat) : expired s m w = false :=
  decide_eq_false (Nat.not_le.2 h)

/-- PARSE of a response of at least three bytes. -/
theorem parse_of_holds {s : State} {r : ReqContext} {b0 b1 b2 : Byte} {rest : List Byte} (hr : s.req = some r)
    (hd : Holds s (b0 :: b1 :: b2 :: rest)) :
    parse s = parseHeader r (.ok b0) (.ok b1) (.ok b2) s (finishResponse r s) := by
  simp only [parse, readReq_some hr, orRaise_ok, hd.readByte (i := 0) rfl, hd.readByte (i := 1) rfl,
    hd.readByte (i := 2) rfl]

/-- The header of a normal response from an accepted address passes. -/
theorem parseHeader_of_normal {s : State} {r : ReqContext} {id : Byte} {code : Except BlockFault Byte} {k : Out}
    (hc : s.params.checkResponseId = true → id = r.id) :
    parseHeader r (.ok id) (.ok (fcByte r.fc)) code s k = k := by
  simp only [parseHeader, orRaise_ok]
  rw [if_neg (by tauto), if_neg (exceptionFc_ne_fcByte _ _).symm, if_neg (by simp)]

/-- PARSE_READ of a response that `BUF` holds. -/
theorem parseRead_of_holds {unit : DataUnit} {s : State} {r : ReqContext} {b0 b1 bc : Byte} {d : List Byte}
    {k : List Byte → Out} (hd : Holds s ([b0, b1, bc] ++ d)) (hl : d.length + 3 = s.rxLen) :
    parseRead unit r s k =
      if s.rxLen - 2 ≠ 3 + byteCount unit r.qty.toNat then fail s .frameIntegrityError
      else if bc.toNat ≠ byteCount unit r.qty.toNat then fail s .frameIntegrityError
      else k (d.take (byteCount unit r.qty.toNat)) := by
  unfold parseRead respLen
  split
  · rfl
  · rename_i h1
    rw [hd.readByte (i := 2) rfl]
    simp only [orRaise_ok]
    split
    · rfl
    · have : memRead s 3 (byteCount unit r.qty.toNat) = .ok (d.take (byteCount unit r.qty.toNat)) := by
        refine memRead_ok_iff.2 ⟨by simp; omega, fun i hi => ?_⟩
        have hi' : i < d.length := by omega
        refine ⟨d[i], by simp [hi, hi'], hd.readByte ?_⟩
        rw [List.getElem?_append_right (by simp)]; simp [hi']
      rw [this, orRaise_ok]

/-- A buffer after a read keeps its length and the items above the ones read. -/
theorem overlay_spec {α : Type} (new old : List α) (h : new.length ≤ old.length) :
    (overlay new old).length = old.length ∧
    (∀ i, i < new.length → (overlay new old)[i]? = new[i]?) ∧
    ∀ i, new.length ≤ i → (overlay new old)[i]? = old[i]? := by
  unfold overlay
  refine ⟨by simp; omega, fun i hi => List.getElem?_append_left hi, fun i hi => ?_⟩
  rw [List.getElem?_append_right hi, List.getElem?_drop]
  congr 1; omega

/-! ## What an engine step and the port can do, said once -/

/-- Every next state of an engine step. -/
inductive EngineMove (s : State) : State → Prop where
  | stay : EngineMove s s
  | raised (f : BlockFault) : EngineMove s (s.setFault f)
  | raisedReading (b : Byte) (q : List Byte) (f : BlockFault) (hp : s.phase = .rxWait ∨ s.phase = .rxBytes)
      (hq : s.rxq = b :: q) : EngineMove s ((s.setRxq q).setFault f)
  | raisedSending (f : BlockFault) (hp : s.phase = .transmit) (hm : memRead s 0 (s.txLen + 2) = .error f) :
      EngineMove s ((s.driveDE true).setFault f)
  | discarded (b : Byte) (q : List Byte) (hp : s.phase = .flushStale) (hq : s.rxq = b :: q) :
      EngineMove s ((s.setRxq q).setMark s.now)
  | flushed (hp : s.phase = .flushStale) : EngineMove s (s.setPhase .transmit)
  | sentRequest (f : List Byte) (hp : s.phase = .transmit) (hm : memRead s 0 (s.txLen + 2) = .ok f) :
      EngineMove s ((((s.transmitted f).setRxLen 0).setMark s.now).setPhase .rxWait)
  | sentBroadcast (f : List Byte) (hp : s.phase = .transmit) (hm : memRead s 0 (s.txLen + 2) = .ok f) :
      EngineMove s (s.transmitted f).succeeded
  | sentUnset (f : List Byte) (hp : s.phase = .transmit) (hm : memRead s 0 (s.txLen + 2) = .ok f)
      (hr : s.req = none) : EngineMove s ((s.transmitted f).setFault (.unsetRead .req))
  | firstByte (b : Byte) (q : List Byte) (hp : s.phase = .rxWait) (hq : s.rxq = b :: q) :
      EngineMove s (((((s.setRxq q).setBuf 0 [b]).setRxLen 1).setMark s.now).setPhase .rxBytes)
  | nextByte (b : Byte) (q : List Byte) (hp : s.phase = .rxBytes) (hq : s.rxq = b :: q) :
      EngineMove s ((((s.setRxq q).setBuf s.rxLen [b]).setRxLen (s.rxLen + 1)).setMark s.now)
  | received (hp : s.phase = .rxBytes) : EngineMove s ((s.setMark s.now).setPhase .rxSilence)
  | silent (hp : s.phase = .rxSilence) : EngineMove s (s.setPhase .validate)
  | validated (hp : s.phase = .validate) : EngineMove s (s.setPhase .parse)
  | failed (k : ErrKind) (hp : s.phase = .rxWait ∨ s.phase = .validate ∨ s.phase = .parse) (hk : k ≠ .none)
      (hd : k ≠ .deviceException) : EngineMove s (s.failed k)
  | captured (r : ReqContext) (c : Byte) (hp : s.phase = .parse) (hr : s.req = some r) (hl : respLen s = 3)
      (h1 : readByte s 1 = .ok (exceptionFc (fcByte r.fc))) (h2 : readByte s 2 = .ok c) :
      EngineMove s ((s.setExc c).failed .deviceException)
  | wrote (r : ReqContext) (hp : s.phase = .parse) (hr : s.req = some r) : EngineMove s s.succeeded
  | readBits (r : ReqContext) (name : BufName) (v : List Bool) (hp : s.phase = .parse) (hr : s.req = some r)
      (ho : r.out = some name) (hfc : r.fc = .readCoils ∨ r.fc = .readDiscreteInputs) :
      EngineMove s (s.setBits name v).succeeded
  | readRegisters (r : ReqContext) (name : BufName) (v : List Word16) (hp : s.phase = .parse)
      (hr : s.req = some r) (ho : r.out = some name)
      (hfc : r.fc = .readHoldingRegisters ∨ r.fc = .readInputRegisters) :
      EngineMove s (s.setWords name v).succeeded
  | presented (hp : s.phase = .done ∨ s.phase = .failed) : EngineMove s (s.setPhase .idle)

theorem fail_next {s t : State} {k : ErrKind} (h : fail s k = .next t) : t = s.failed k := fail_eq_next.1 h

theorem succeed_next {s t : State} (h : succeed s = .next t) : t = s.succeeded := succeed_eq_next.1 h

theorem phaseFlushStale_move {s t : State} (hp : s.phase = .flushStale) (h : phaseFlushStale s = .next t) :
    EngineMove s t := by
  rcases phaseFlushStale_cases h with ⟨b, q, hq, rfl⟩ | ⟨m, w, _, _, _, ⟨_, rfl⟩ | ⟨_, rfl⟩⟩ | ⟨f, _, rfl⟩
  · exact .discarded b q hp hq
  · exact .flushed hp
  · exact .stay
  · exact .raised f

theorem phaseTransmit_move {s t : State} (hp : s.phase = .transmit) (h : phaseTransmit s = .next t) :
    EngineMove s t := by
  rcases phaseTransmit_cases h with ⟨f, hf, h⟩ | ⟨f, hf, rfl⟩
  · rw [sent_eq_transmitted] at h
    rcases afterTransmit_cases h with ⟨r, _, _, rfl⟩ | ⟨r, _, _, h⟩ | ⟨hn, rfl⟩
    · exact .sentRequest f hp hf
    · rw [succeed_next h]; exact .sentBroadcast f hp hf
    · exact .sentUnset f hp hf hn
  · exact .raisedSending f hp hf

theorem phaseRxWait_move {s t : State} (hp : s.phase = .rxWait) (h : phaseRxWait s = .next t) : EngineMove s t := by
  rcases phaseRxWait_cases h with ⟨b, q, hq, _, rfl⟩ | ⟨b, q, f, hq, _, rfl⟩ | ⟨m, _, _, ⟨_, h⟩ | ⟨_, rfl⟩⟩ |
    ⟨f, _, rfl⟩
  · exact .firstByte b q hp hq
  · exact .raisedReading b q f (.inl hp) hq
  · rw [fail_next h]; exact .failed _ (.inl hp) (by decide) (by decide)
  · exact .stay
  · exact .raised f

theorem phaseRxBytes_move {s t : State} (hp : s.phase = .rxBytes) (h : phaseRxBytes s = .next t) :
    EngineMove s t := by
  rcases phaseRxBytes_cases h with ⟨_, rfl⟩ | ⟨b, q, _, hq, rfl⟩ | ⟨b, q, f, _, hq, rfl⟩ |
    ⟨m, w, _, _, _, _, ⟨_, rfl⟩ | ⟨_, rfl⟩⟩ | ⟨f, _, rfl⟩
  · exact .received hp
  · exact .nextByte b q hp hq
  · exact .raisedReading b q f (.inr hp) hq
  · exact .received hp
  · exact .stay
  · exact .raised f

theorem phaseRxSilence_move {s t : State} (hp : s.phase = .rxSilence) (h : phaseRxSilence s = .next t) :
    EngineMove s t := by
  rcases phaseRxSilence_cases h with ⟨m, w, _, _, ⟨_, rfl⟩ | ⟨_, rfl⟩⟩ | ⟨f, _, rfl⟩
  · exact .silent hp
  · exact .stay
  · exact .raised f

theorem phaseValidate_move {s t : State} (hp : s.phase = .validate) (h : phaseValidate s = .next t) :
    EngineMove s t := by
  rcases phaseValidate_cases h with ⟨_, _, _, rfl⟩ | ⟨k, h₁, h₂, h⟩ | ⟨f, i, _, _, rfl⟩
  · exact .validated hp
  · rw [fail_next h]; exact .failed _ (.inr (.inl hp)) h₁ h₂
  · exact .raised f

theorem finishResponse_move {s t : State} {r : ReqContext} (hp : s.phase = .parse) (hr : s.req = some r)
    (h : finishResponse r s = .next t) : EngineMove s t := by
  rcases finishResponse_cases h with ⟨u, h, hu⟩ | ⟨k, h₁, h₂, h⟩ | ⟨f, i, _, _, rfl⟩ | ⟨f, _, _, rfl⟩
  · rw [succeed_next h]
    rcases hu with ⟨hfc, name, d, ho, rfl⟩ | ⟨hfc, name, d, ho, rfl⟩ | rfl
    · exact .readBits r name _ hp hr ho hfc
    · exact .readRegisters r name _ hp hr ho hfc
    · exact .wrote r hp hr
  · rw [fail_next h]; exact .failed _ (.inr (.inr hp)) h₁ h₂
  · exact .raised f
  · exact .raised f

theorem parse_move {s t : State} (hp : s.phase = .parse) (h : parse s = .next t) : EngineMove s t := by
  unfold parse at h
  rcases orRaise_cases h with ⟨r, hr, h⟩ | ⟨f, _, rfl⟩
  · have hr := readReq_ok hr
    rcases parseHeader_cases h with ⟨_, h⟩ | ⟨e, h₁, h₂, h⟩ | ⟨c, h₁, h₂, h₃, h⟩ | ⟨f, _, rfl⟩
    · exact finishResponse_move hp hr h
    · rw [fail_next h]; exact .failed _ (.inr (.inr hp)) h₁ h₂
    · rw [fail_next h]; exact .captured r c hp hr h₃ h₁ h₂
    · exact .raised f
  · exact .raised f

/-- Every next state of an engine step is one of these moves. -/
theorem engineStep_move {s t : State} (h : engineStep s = .next t) : EngineMove s t := by
  unfold engineStep at h
  split at h <;> rename_i hp
  · cases h; exact .stay
  · exact phaseFlushStale_move hp h
  · exact phaseTransmit_move hp h
  · exact phaseRxWait_move hp h
  · exact phaseRxBytes_move hp h
  · exact phaseRxSilence_move hp h
  · exact phaseValidate_move hp h
  · exact parse_move hp h
  · cases h; exact .presented (.inl hp)
  · cases h; exact .presented (.inr hp)

/-- Every next state of an operation that the port runs. -/
inductive PortMove (i : Instr) (s : State) : State → Prop where
  | reentered (hp : s.phase ≠ .idle) : PortMove i s (s.setFault (.reentry i.op))
  | configured (baud : Word32) (fmt : SerialFormat) (hi : i = .configure baud fmt) (hp : s.phase = .idle) :
      PortMove i s (s.setTimeouts (timingCalc s.params.bitsTable baud fmt)).succeeded
  | respToSet (w : Word32) (hi : i = .setResponseTimeout w) (hp : s.phase = .idle) :
      PortMove i s (s.setRespTo w).succeeded
  | excRead (hi : i = .getExceptionCode) (hp : s.phase = .idle) :
      PortMove i s ((s.setResult { ok := true, err := .none, byte := some s.exc }).setPhase .idle)
  | rejected (hp : s.phase = .idle) : PortMove i s (s.failed .invalidArgument)
  | tooShort (q n : Nat) (hp : s.phase = .idle) (hn : n < q) : PortMove i s (s.setFault (.bufferTooShort q n))
  | started (words : List Byte) (req : ReqContext) (c f : Word32) (hp : s.phase = .idle)
      (hl : words.length ≤ 253) (ho : outputFits s req) (hc : s.charTo = some c) (hf : s.frameTo = some f)
      (hn : words.length + 2 ≤ s.params.bufCap) :
      PortMove i s ((((((s.setBuf 0 words).setTxLen words.length).setReq req).setBuf words.length
        [lo (crc16 words), hi (crc16 words)]).setMark s.now).setPhase .flushStale)
  | unset (words : List Byte) (req : ReqContext) (hp : s.phase = .idle) (hl : words.length ≤ 253)
      (hu : s.charTo = none ∨ s.frameTo = none) :
      PortMove i s ((((s.setBuf 0 words).setTxLen words.length).setReq req).setFault (.timingUnset i.op))
  | overrun (words v : List Byte) (req : ReqContext) (f : BlockFault) (u : State) (hp : s.phase = .idle)
      (hl : words.length ≤ 253) (hn : s.params.bufCap < words.length + 2)
      (hu : u = s ∨ u = (s.setTxLen words.length).setReq req) : PortMove i s ((u.setBuf 0 v).setFault f)

theorem exec_atPort_move {i : Instr} {s t : State} (hi : i.op.atPort = true) (h : exec i s = .next t) :
    s.fault = none ∧ PortMove i s t := by
  obtain ⟨hf, ⟨hp, rfl⟩ | ⟨hp, h⟩⟩ := exec_atPort_cases hi h
  · exact ⟨hf, .reentered hp⟩
  · refine ⟨hf, ?_⟩
    rcases h with ⟨b, f, hi, h⟩ | ⟨w, hi, h⟩ | ⟨hi, h⟩ | ⟨_, h⟩ | ⟨_, q, n, hn, rfl⟩ | ⟨_, words, req, hl, ho, h⟩
    · rw [succeed_next h]; exact .configured b f hi hp
    · rw [succeed_next h]; exact .respToSet w hi hp
    · rw [conclude_eq_next.1 h]; exact .excRead hi hp
    · rw [fail_next h]; exact .rejected hp
    · exact .tooShort q n hp hn
    · rcases startRequest_cases h with ⟨c, f, hc, hf, hn, rfl⟩ | ⟨hu, _, rfl⟩ | ⟨hn, v, f, u, rfl, hu⟩
      · exact .started words req c f hp hl ho hc hf hn
      · exact .unset words req hp hl hu
      · exact .overrun words v req f u hp hl hn hu

end Sys2Proof.Machine
end

