-- ==== Sys2Proof/Laws/PerInstr.lean ====
section
/-! SUPPORT. A statement about every operation as syntax, one lemma per constructor: the number of words it is
encoded in is the `TX_LEN` of its layout (R76 to R80; 3 for an exception response, R85; none for an operation
without an encoding, R90). -/

namespace Sys2Proof.Laws.EncodedLength

open Sys2Proof.Machine

/-- `TX_LEN`, the id and the PDU without the CRC. -/
def txLen : Instr → Option Nat
  | .readCoils _ _ _ _ | .readDiscreteInputs _ _ _ _ | .readHoldingRegisters _ _ _ _
  | .readInputRegisters _ _ _ _ | .writeSingleCoil _ _ _ | .writeSingleRegister _ _ _ => some 6
  | .writeMultipleCoils _ _ _ qty => some (7 + (qty.toNat + 7) / 8)
  | .writeMultipleRegisters _ _ _ qty => some (7 + 2 * qty.toNat)
  | .exceptionResponse _ _ _ => some 3
  | .configure _ _ | .setResponseTimeout _ | .getExceptionCode | .crc16 _ | .crcUpdate _ _ | .crcEncode _
  | .crcValidate _ | .timingCalc _ _ | .transact => none

/-- A well-formed operation is encoded in `txLen` words. -/
def Statement (i : Instr) : Prop := i.wf = true → (encode i).map List.length = txLen i

theorem readCoils (id : Byte) (addr : Word16) (out : Option BufName) (qty : Word16) :
    Statement (.readCoils id addr out qty) := fun _ => rfl
theorem readDiscreteInputs (id : Byte) (addr : Word16) (out : Option BufName) (qty : Word16) :
    Statement (.readDiscreteInputs id addr out qty) := fun _ => rfl
theorem readHoldingRegisters (id : Byte) (addr : Word16) (out : Option BufName) (qty : Word16) :
    Statement (.readHoldingRegisters id addr out qty) := fun _ => rfl
theorem readInputRegisters (id : Byte) (addr : Word16) (out : Option BufName) (qty : Word16) :
    Statement (.readInputRegisters id addr out qty) := fun _ => rfl
theorem writeSingleCoil (id : Byte) (addr : Word16) (value : Bool) :
    Statement (.writeSingleCoil id addr value) := fun _ => rfl
theorem writeSingleRegister (id : Byte) (addr : Word16) (value : Word16) :
    Statement (.writeSingleRegister id addr value) := fun _ => rfl
theorem writeMultipleCoils (id : Byte) (addr : Word16) (data : Option (List Bool)) (qty : Word16) :
    Statement (.writeMultipleCoils id addr data qty) := by
  intro _
  simp [encode, txLen]; omega
theorem writeMultipleRegisters (id : Byte) (addr : Word16) (data : Option (List Word16)) (qty : Word16) :
    Statement (.writeMultipleRegisters id addr data qty) := by
  intro h
  cases data with
  | none => simp [Instr.wf, holds] at h
  | some l =>
    have hl : qty.toNat ≤ l.length := by simp [Instr.wf, holds] at h; exact h.2
    simp [encode, txLen, packRegs_length l qty.toNat hl]; omega
theorem exceptionResponse (id : Byte) (fc : BitVec 7) (code : Byte) :
    Statement (.exceptionResponse id fc code) := fun _ => rfl
theorem configure (baud : Word32) (fmt : SerialFormat) : Statement (.configure baud fmt) := fun _ => rfl
theorem setResponseTimeout (t : Word32) : Statement (.setResponseTimeout t) := fun _ => rfl
theorem getExceptionCode : Statement .getExceptionCode := fun _ => rfl
theorem crc16 (d : List Byte) : Statement (.crc16 d) := fun _ => rfl
theorem crcUpdate (crc : Word16) (b : Byte) : Statement (.crcUpdate crc b) := fun _ => rfl
theorem crcEncode (n : Nat) : Statement (.crcEncode n) := fun _ => rfl
theorem crcValidate (m : Nat) : Statement (.crcValidate m) := fun _ => rfl
theorem timingCalc (baud : Word32) (fmt : SerialFormat) : Statement (.timingCalc baud fmt) := fun _ => rfl
theorem transact : Statement .transact := fun _ => rfl

end Sys2Proof.Laws.EncodedLength
end

