-- ==== Sys2Proof/Laws/Runs.lean ====
section
/-! SUPPORT. Runs of several steps: joining them, bytes arriving, bytes being received, and the request frame that
a started operation leaves in `BUF`. -/

namespace Sys2Proof.Machine

/-- Two runs, one after the other. -/
theorem steps_add {s t : State} {a : Nat} (h : steps a s = .next t) (b : Nat) : steps (a + b) s = steps b t := by
  induction a generalizing s with
  | zero => cases h; simp
  | succ a ih =>
    rw [Nat.add_right_comm]
    simp only [steps] at h ⊢
    split at h
    · rename_i u hu; rw [ih h]
    · cases h
    · cases h

theorem steps_one {s t : State} (h : step s = .next t) : steps 1 s = .next t := by simp [steps, h]

/-- The step at an engine draw is the rule of the phase. -/
theorem step_at {s : State} {p : Phase} {n : Nat} {es : List Event} (h : EngineAt s p n es) :
    step s = engineStep (s.drawn n es) := step_tick h.next h.noFault

/-- `elapsed` at a draw is the time from the mark to the draw. -/
theorem elapsed_drawn (s : State) (n t : Nat) (es : List Event) : elapsed (s.drawn n es) t = s.between t n := by
  simp only [elapsed, State.between, State.drawn_now, State.drawn_params, State.clockAt, Int.natCast_emod,
    Int.emod_sub_emod]

/-- A mark may be taken as the time of its draw: both are the same clock value. -/
theorem between_clockAt (s : State) (m n : Nat) : s.between (s.clockAt m) n = s.between m n := by
  simp only [State.between, State.clockAt, Int.natCast_emod, Int.sub_emod_emod]

/-- The time from a draw at `n` to one at `n + w` is `w`, where the clock can count to `w`. -/
theorem between_window {s : State} {n w : Nat} (hw : w < 2 ^ s.params.clockBits) :
    s.between (s.clockAt n) (n + w) = w := by
  rw [between_clockAt, State.between, show ((n + w : Nat) : Int) - n = w by omega,
    Int.emod_eq_of_lt (by omega) (by exact_mod_cast hw)]
  rfl

/-- Bytes that arrive one a step. -/
theorem steps_deliver (q : List Byte) (s : State) (es : List Event) (hs : s.schedule = q.map .deliver ++ es) :
    steps q.length s = .next { s with rxq := s.rxq ++ q, schedule := es } := by
  induction q generalizing s with
  | nil => simp at hs; simp [steps, ← hs]
  | cons b q ih =>
    simp only [List.map_cons, List.cons_append] at hs
    rw [List.length_cons, Nat.add_comm, steps_add (steps_one (step_deliver hs)), ih _ rfl]
    congr 1
    simp [linkDeliver, State.setRxq, State.setSchedule]

/-- One more byte in `BUF`. -/
theorem Holds.write {s u : State} {d : List Byte} {b : Byte} (h : Holds s d) (hl : d.length < s.params.bufCap)
    (hp : u.params = s.params) (hb : u.buf = Cells.write s.buf d.length b) : Holds u (d ++ [b]) := by
  refine ⟨by simp [hp]; omega, fun i hi => ?_⟩
  rw [hb]
  simp only [List.length_append, List.length_singleton] at hi
  by_cases e : i = d.length
  · subst e; simp
  · rw [Cells.read_write_other _ _ e, h.bytes i (by omega), List.getElem?_append_left (by omega)]

/-- RX_BYTES over bytes that are all available, one a step. -/
theorem steps_receive (q : List Byte) : ∀ (d : List Byte) (s : State) (t : Nat) (es : List Event),
    s.fault = none → s.phase = .rxBytes → s.rxq = q → s.tMark = some (s.clockAt t) → s.rxLen = d.length → Holds s d →
    d.length + q.length ≤ s.params.bufCap → s.schedule = q.map (fun _ => .tick t) ++ es →
    ∃ u, steps q.length s = .next u ∧ Holds u (d ++ q) ∧
      u = { s with rxq := [], rxLen := d.length + q.length, buf := u.buf, now := u.now, schedule := es } := by
  induction q with
  | nil =>
    intro d s t es h1 h2 h3 h4 h5 h6 h7 h8
    refine ⟨s, rfl, by simpa using h6, ?_⟩
    clear h4
    simp at h8
    cases s; simp_all
  | cons b q ih =>
    intro d s t es h1 h2 h3 h4 h5 h6 h7 h8
    simp only [List.map_cons, List.cons_append] at h8
    simp only [List.length_cons] at h7
    have hs : step s = .next
        { s.drawn t (q.map (fun _ => Event.tick t) ++ es) with
          rxq := q, buf := Cells.write s.buf s.rxLen b, rxLen := s.rxLen + 1, tMark := some (s.clockAt t) } := by
      have e : step s = phaseRxBytes (s.drawn t (q.map (fun _ => Event.tick t) ++ es)) := by
        rw [step_at (p := .rxBytes) ⟨h1, h2, h8⟩]
        simp only [engineStep, State.drawn_phase, h2]
      rw [e, phaseRxBytes_of_byte (s := s.drawn t (q.map (fun _ => Event.tick t) ++ es)) (b := b) (q := q)
        (by show s.rxLen < s.params.bufCap; omega) h3]
      rfl
    set s1 : State :=
      { s.drawn t (q.map (fun _ => Event.tick t) ++ es) with
        rxq := q, buf := Cells.write s.buf s.rxLen b, rxLen := s.rxLen + 1, tMark := some (s.clockAt t) }
    obtain ⟨u, hu, hh, e⟩ := ih (d ++ [b]) s1 t es h1 h2 rfl rfl (by simp [s1, h5])
      (h6.write (by omega) rfl (by simp [s1, h5])) (by simp [s1, State.drawn]; omega) rfl
    refine ⟨u, ?_, by simpa using hh, ?_⟩
    · rw [List.length_cons, Nat.add_comm, steps_add (steps_one hs), hu]
    · rw [e]; simp [s1, State.drawn, h4]; omega

/-- The frame of a started operation lies in `BUF[0..TX_LEN+1]`. -/
theorem holds_of_started {s t : State} {words : List Byte} {req : ReqContext} (h : RequestStarted s t words req)
    (hl : words.length ≤ 253) (hw : s.params.wf) : Holds t (withCrc words) := by
  obtain ⟨e, hb⟩ := h
  have hp : t.params = s.params := by rw [e]
  refine ⟨by simp [hp, Params.wf] at *; omega, fun i hi => ?_⟩
  rw [hb, if_pos (by simpa using hi)]

end Sys2Proof.Machine
end

