-- ==== Sys2Proof/Tests/Slice0.lean ====
section
/-! SUPPORT. Tests of the model on the spec's own vectors (95_test_vectors.md), the refusals of `Instr.wf`, and for
every statement that has hypotheses a witness that meets them. Expected values are copied from the spec. -/

namespace Sys2Proof.Tests

open Sys2Proof Sys2Proof.Machine

set_option Elab.async false

/-! ## States -/

/-- The parameters of 95_test_vectors.md's default configuration. -/
def params : Params :=
  { bufCap := 256, bitsTable := bitsTable, responseTimeoutReset := 100000#32, checkResponseId := true, hasDE := true,
    clockBits := 32 }

/-- Idle after CONFIGURE 9600 8N1, with a bit buffer and a 16-bit buffer under the name 7. -/
def base : State :=
  { params := params, charTo := some 1562#32, frameTo := some 3645#32, respTo := 100000#32, exc := 0x02#8, buf := []
    phase := .idle, tMark := none, txLen := 0, rxLen := 0, req := none
    result := { ok := false, err := .none, byte := none }, fault := none, de := false, rxq := [], txlog := []
    now := 20, bitBufs := [(7, List.replicate 22 false)], wordBufs := [(7, [0x1111, 0x2222, 0x3333])]
    schedule := [], portTrace := [], retval := .none }

/-- The request context of T40. -/
def readReq : ReqContext :=
  { id := 1, fc := .readHoldingRegisters, addr := 0x006B, qty := 3, val := 0, expect := true, out := some 7 }

/-- The request context of T13. -/
def writeReq : ReqContext :=
  { id := 0x11, fc := .writeSingleRegister, addr := 1, qty := 1, val := 3, expect := true, out := none }

/-- In phase `p` of an operation, with `frame` in `BUF`, before the draws `es`. -/
def during (p : Phase) (req : ReqContext) (frame : List Byte) (es : List Event) : State :=
  { base with
    phase := p, req := some req, buf := Cells.writeList [] 0 frame, tMark := some 100
    txLen := 6, rxLen := frame.length, schedule := es }

/-- The request frame of T40. -/
def request : List Byte := [0x01, 0x03, 0x00, 0x6B, 0x00, 0x03, 0x74, 0x17]

/-- The reply of T40 and T45 a. -/
def reply : List Byte := [0x01, 0x03, 0x06, 0x02, 0x2B, 0x00, 0x00, 0x00, 0x64, 0x05, 0x7A]

/-- A small buffer that six bytes and their CRC fill. -/
def small (frame : List Byte) : State :=
  { base with params := { params with bufCap := 8 }, buf := Cells.writeList [] 0 frame, txLen := 6 }

/-- Idle, before the draws of an exchange that begins at 20 and whose frame has left by 12014. -/
def exchanging (i : Instr) (answer : List Byte) : State :=
  { base with schedule := exchange i 20 12014 1562 3645 answer }

/-- What a next state holds. -/
def after {α : Type} (o : Out) (f : State → α) : Option α :=
  match o with
  | .next t => some (f t)
  | .fault _ => none
  | .refused _ => none

/-- The bytes of `BUF`, and whether the request was started. -/
def sent (o : Out) : Option (List Byte × Phase) := after o fun t => (t.buf.map Prod.snd, t.phase)

/-- The result and `EXC` after the PARSE step on a reply. -/
def parsed (req : ReqContext) (frame : List Byte) : Option (Bool × ErrKind × Byte) :=
  after (step (during .parse req frame [.tick 0])) fun t => (t.result.ok, t.result.err, t.exc)

/-! ## Decoding, bit by bit from the layouts of R76 to R80 and R85 (T10, T40, T5, T13, T14, T15, T45 e) -/

theorem test_decode_readCoils :
    decode (some 7) [0b00010001, 0b00000001, 0b00000000, 0b00010011, 0b00000000, 0b00010011] =
      .ok (.readCoils 0x11 0x13 (some 7) 19, []) := by decide +kernel

theorem test_decode_readHoldingRegisters :
    decode (some 7) [0b00000001, 0b00000011, 0b00000000, 0b01101011, 0b00000000, 0b00000011] =
      .ok (.readHoldingRegisters 1 0x6B (some 7) 3, []) := by decide +kernel

theorem test_decode_readDiscreteInputs :
    decode (some 7) [0b00010001, 0b00000010, 0b00000000, 0b11000100, 0b00000000, 0b00010110] =
      .ok (.readDiscreteInputs 0x11 0xC4 (some 7) 22, []) := by decide +kernel

theorem test_decode_readInputRegisters :
    decode (some 7) [0b00000001, 0b00000100, 0b00000000, 0b00001000, 0b00000000, 0b00000001] =
      .ok (.readInputRegisters 1 0x08 (some 7) 1, []) := by decide +kernel

theorem test_decode_writeSingleCoil :
    decode none [0b00000001, 0b00000101, 0b00000000, 0b10101100, 0b11111111, 0b00000000] =
      .ok (.writeSingleCoil 1 0xAC true, []) := by decide +kernel

theorem test_decode_writeSingleRegister :
    decode none [0b00010001, 0b00000110, 0b00000000, 0b00000001, 0b00000000, 0b00000011] =
      .ok (.writeSingleRegister 0x11 1 3, []) := by decide +kernel

theorem test_decode_writeMultipleCoils :
    decode none [0b00010001, 0b00001111, 0b00000000, 0b00010011, 0b00000000, 0b00001010, 0b00000010, 0b11001101,
      0b00000001] =
      .ok (.writeMultipleCoils 0x11 0x13
        (some [true, false, true, true, false, false, true, true, true, false]) 10, []) := by decide +kernel

theorem test_decode_writeMultipleRegisters :
    decode none [0b00010001, 0b00010000, 0b00000000, 0b00000001, 0b00000000, 0b00000010, 0b00000100, 0b00000000,
      0b00001010, 0b00000001, 0b00000010] =
      .ok (.writeMultipleRegisters 0x11 1 (some [0x000A, 0x0102]) 2, []) := by decide +kernel

theorem test_decode_exceptionResponse :
    decode none [0b00000001, 0b10000011, 0b00000010] = .ok (.exceptionResponse 1 0x03 0x02, []) := by decide +kernel

/-- What is no operation's words is refused, by name (R73, R77, R79, R175). -/
theorem test_decode_refusals :
    decode none [0x01, 0x07, 0, 0, 0, 0] = .error (.unknownFunctionCode 0x07) ∧
    decode none [0x01, 0x03, 0, 0, 0] = .error .truncated ∧
    decode none [0x01, 0x05, 0, 0xAC, 0x00, 0xFF] = .error (.badCoilValue 0x00FF) ∧
    decode none [0x01, 0x0F, 0, 0, 0, 9, 1, 0xFF, 0x01] = .error (.byteCountMismatch 1 9) ∧
    decode none [0x01, 0x0F, 0, 0, 0, 9, 2, 0xFF, 0x03] = .error .paddingNotZero ∧
    decodeFrame none [0x01, 0x06, 0, 1, 0, 3, 0, 0] = .error .badCrc := by decide +kernel

/-! ## Well-formedness: an ill-formed term for each check -/

theorem test_wf_read_id :
    (Instr.readCoils 0 0 (some 7) 1).wf = false ∧ (Instr.readCoils 248 0 (some 7) 1).wf = false ∧
    (Instr.readInputRegisters 0 0 (some 7) 1).wf = false ∧ (Instr.readInputRegisters 248 0 (some 7) 1).wf = false ∧
    (Instr.readDiscreteInputs 0 0 (some 7) 1).wf = false ∧ (Instr.readHoldingRegisters 248 0 (some 7) 1).wf = false :=
  by decide +kernel

theorem test_wf_write_id :
    (Instr.writeSingleCoil 248 0 true).wf = false ∧ (Instr.writeSingleRegister 248 0 0).wf = false ∧
    (Instr.writeMultipleCoils 248 0 (some [true]) 1).wf = false ∧
    (Instr.writeMultipleRegisters 248 0 (some [0]) 1).wf = false := by decide +kernel

theorem test_wf_quantity :
    (Instr.readCoils 1 0 (some 7) 0).wf = false ∧ (Instr.readCoils 1 0 (some 7) 2001).wf = false ∧
    (Instr.readDiscreteInputs 1 0 (some 7) 2001).wf = false ∧
    (Instr.readHoldingRegisters 1 0 (some 7) 126).wf = false ∧
    (Instr.readInputRegisters 1 0 (some 7) 126).wf = false ∧
    (Instr.writeMultipleCoils 1 0 (some [true]) 0).wf = false ∧
    (Instr.writeMultipleCoils 1 0 (some (List.replicate 1969 true)) 1969).wf = false ∧
    (Instr.writeMultipleRegisters 1 0 (some (List.replicate 124 0)) 124).wf = false := by decide +kernel

theorem test_wf_buffer :
    (Instr.readCoils 1 0 none 1).wf = false ∧ (Instr.readHoldingRegisters 1 0 none 1).wf = false ∧
    (Instr.writeMultipleCoils 1 0 none 1).wf = false ∧ (Instr.writeMultipleRegisters 1 0 none 1).wf = false ∧
    (Instr.writeMultipleCoils 1 0 (some [true]) 2).wf = false ∧
    (Instr.writeMultipleRegisters 1 0 (some [0, 0]) 3).wf = false := by decide +kernel

theorem test_wf_codec :
    (Instr.crcEncode 0).wf = false ∧ (Instr.crcEncode 255).wf = false ∧ (Instr.crcValidate 257).wf = false := by
  decide +kernel

/-! ## The codec and the calculator (T1, T2, T3, T6, T7) -/

theorem test_crc16 :
    crc16 [0x01, 0x03, 0x00, 0x6B, 0x00, 0x03] = 0x1774 ∧
    crc16 [0x31, 0x32, 0x33, 0x34, 0x35, 0x36, 0x37, 0x38, 0x39] = 0x4B37 ∧ crc16 [] = 0xFFFF := by decide +kernel

theorem test_crcUpdate : Machine.crcUpdate 0xFFFF 0x00 = 0x40BF ∧ Machine.crcUpdate 0xFFFF 0xFF = 0x00FF := by
  decide +kernel

theorem test_crcEncode :
    (sent (exec (.crcEncode 6) { base with buf := Cells.writeList [] 0 [0x01, 0x05, 0x00, 0xAC, 0xFF, 0x00] })).map
      Prod.fst = some [0x01, 0x05, 0x00, 0xAC, 0xFF, 0x00, 0x4C, 0x1B] := by decide +kernel

theorem test_crcValidate :
    after (exec (.crcValidate 7) (during .idle readReq [0x01, 0x04, 0x02, 0x00, 0x0A, 0x39, 0x37] [])) State.retval =
      some (.valid true) ∧
    after (exec (.crcValidate 7) (during .idle readReq [0x01, 0x04, 0x02, 0x00, 0x0B, 0x39, 0x37] [])) State.retval =
      some (.valid false) := by decide +kernel

theorem test_timingCalc :
    timingCalc bitsTable 9600 ⟨.eight, .none, .one⟩ = some (1562, 3645) ∧
    timingCalc bitsTable 2400 ⟨.eight, .none, .two⟩ = some (6875, 16041) ∧
    timingCalc bitsTable 19201 ⟨.eight, .none, .one⟩ = some (750, 1750) ∧
    timingCalc bitsTable 115200 ⟨.eight, .even, .two⟩ = none ∧ timingCalc bitsTable 0 ⟨.eight, .none, .one⟩ = none ∧
    timingCalc bitsTable 1 ⟨.eight, .even, .one⟩ = some (16500000, 38500000) := by decide +kernel

/-- R8: a model may widen `BITS_TABLE` (here to the 12 bits of 8E2, by R113's formula), and `CLOCK_BITS` is an argument
(R15: 20 to 10 modulo 16). -/
theorem test_parameters :
    timingCalc [(⟨.eight, .even, .two⟩, 12)] 9600 ⟨.eight, .even, .two⟩ = some (1875, 4375) ∧
    timingCalc [(⟨.eight, .even, .two⟩, 12)] 9600 ⟨.eight, .none, .one⟩ = none ∧
    elapsed { base with params := { params with clockBits := 4 }, now := 3 } 9 = 10 ∧
    elapsed { base with now := 3 } 9 = 4294967290 := by decide +kernel

/-! ## The host's operations (T9, R191, P3, and the requests of §5 and §6) -/

theorem test_configure :
    after (exec (.configure 9600 ⟨.eight, .even, .one⟩) base) (fun t => (t.charTo, t.frameTo, t.result.ok)) =
      some (some 1718, some 4010, true) ∧
    after (exec (.configure 9600 ⟨.eight, .even, .two⟩) base) (fun t => (t.charTo, t.frameTo, t.result.ok)) =
      some (none, none, true) := by decide +kernel

theorem test_setResponseTimeout :
    after (exec (.setResponseTimeout 200000) base) (fun t => (t.respTo, t.result.ok)) = some (200000, true) := by
  decide +kernel

theorem test_getExceptionCode :
    after (exec .getExceptionCode base) (fun t => (t.result.byte, t.exc)) = some (some 0x02, 0x02) := by
  decide +kernel

theorem test_readCoils_request :
    sent (exec (.readCoils 0x11 0x0013 (some 7) 19) base) =
      some ([0x11, 0x01, 0x00, 0x13, 0x00, 0x13, 0x8E, 0x92], .flushStale) := by decide +kernel

theorem test_readDiscreteInputs_request :
    sent (exec (.readDiscreteInputs 0x11 0x00C4 (some 7) 22) base) =
      some ([0x11, 0x02, 0x00, 0xC4, 0x00, 0x16, 0xBA, 0xA9], .flushStale) := by decide +kernel

theorem test_readHoldingRegisters_request :
    sent (exec (.readHoldingRegisters 1 0x006B (some 7) 3) base) =
      some ([0x01, 0x03, 0x00, 0x6B, 0x00, 0x03, 0x74, 0x17], .flushStale) := by decide +kernel

theorem test_readInputRegisters_request :
    sent (exec (.readInputRegisters 1 0x0008 (some 7) 1) base) =
      some ([0x01, 0x04, 0x00, 0x08, 0x00, 0x01, 0xB0, 0x08], .flushStale) := by decide +kernel

theorem test_writeSingleCoil_request :
    sent (exec (.writeSingleCoil 1 0x00AC true) base) =
      some ([0x01, 0x05, 0x00, 0xAC, 0xFF, 0x00, 0x4C, 0x1B], .flushStale) := by decide +kernel

theorem test_writeSingleRegister_request :
    sent (exec (.writeSingleRegister 0x11 0x0001 0x0003) base) =
      some ([0x11, 0x06, 0x00, 0x01, 0x00, 0x03, 0x9A, 0x9B], .flushStale) := by decide +kernel

theorem test_writeMultipleCoils_request :
    sent (exec (.writeMultipleCoils 0x11 0x0013
      (some [true, false, true, true, false, false, true, true, true, false]) 10) base) =
      some ([0x11, 0x0F, 0x00, 0x13, 0x00, 0x0A, 0x02, 0xCD, 0x01, 0xBF, 0x0B], .flushStale) := by decide +kernel

theorem test_writeMultipleRegisters_request :
    sent (exec (.writeMultipleRegisters 0x11 0x0001 (some [0x000A, 0x0102]) 2) base) =
      some ([0x11, 0x10, 0x00, 0x01, 0x00, 0x02, 0x04, 0x00, 0x0A, 0x01, 0x02, 0xC6, 0xF0], .flushStale) := by
  decide +kernel

theorem test_transact :
    sent (exec .transact { base with buf := Cells.writeList [] 0 [0x01, 0x05, 0x00, 0xAC, 0xFF, 0x00], txLen := 6 }) =
      some ([0x01, 0x05, 0x00, 0xAC, 0xFF, 0x00, 0x4C, 0x1B], .flushStale) := by decide +kernel

/-! ## Responses (T45 a to h, T10, T46, T13) -/

theorem test_readHoldingRegisters_reply :
    after (step (during .parse readReq reply [.tick 0])) (fun t => (t.wordBufs, t.result.ok)) =
      some ([(7, [0x022B, 0x0000, 0x0064])], true) := by decide +kernel

theorem test_readDiscreteInputs_reply :
    after (step (during .parse
      { readReq with id := 0x11, fc := .readDiscreteInputs, addr := 0x00C4, qty := 22 }
      [0x11, 0x02, 0x03, 0xAC, 0xDB, 0xF5, 0x20, 0x48] [.tick 0])) (fun t => t.bitBufs) =
      some [(7, [false, false, true, true, false, true, false, true, true, true, false, true, true, false, true, true,
        true, false, true, false, true, true])] := by decide +kernel

theorem test_exceptionResponse_reply :
    parsed readReq [0x01, 0x83, 0x02, 0xC0, 0xF1] = some (false, .deviceException, 0x02) ∧
    parsed readReq [0x01, 0x83, 0x02, 0x00, 0xF1, 0x50] = some (false, .frameIntegrityError, 0x02) := by
  decide +kernel

theorem test_parse_rejects :
    parsed readReq [0x02, 0x03, 0x06, 0x02, 0x2B, 0x00, 0x00, 0x00, 0x64, 0x11, 0x8A] =
      some (false, .protocolMismatch, 0x02) ∧
    parsed readReq [0x01, 0x84, 0x02, 0xC2, 0xC1] = some (false, .protocolMismatch, 0x02) ∧
    parsed readReq [0x01, 0x03, 0x04, 0x02, 0x2B, 0x00, 0x00, 0x8B, 0x83] =
      some (false, .frameIntegrityError, 0x02) ∧
    parsed readReq [0x01, 0x03, 0x04, 0x02, 0x2B, 0x00, 0x00, 0x00, 0x64, 0x26, 0xBA] =
      some (false, .frameIntegrityError, 0x02) := by decide +kernel

theorem test_writeSingleRegister_echo :
    parsed writeReq [0x11, 0x06, 0x00, 0x01, 0x00, 0x03, 0x9A, 0x9B] = some (true, .none, 0x02) ∧
    parsed writeReq [0x11, 0x06, 0x00, 0x02, 0x00, 0x03, 0x6A, 0x9B] = some (false, .protocolMismatch, 0x02) ∧
    parsed writeReq [0x11, 0x06, 0x00, 0x01, 0x00, 0x04, 0xDB, 0x59] = some (false, .protocolMismatch, 0x02) ∧
    parsed writeReq [0x11, 0x06, 0x00, 0x01, 0x00, 0x03, 0x00, 0x1B, 0x6B] =
      some (false, .frameIntegrityError, 0x02) := by decide +kernel

/-- T31: the boundary of the character gap. -/
theorem test_rxBytes_boundary :
    after (step { during .rxBytes readReq [0x01] [.tick 6561] with tMark := some 5000 }) (fun t => t.phase) =
      some .rxBytes ∧
    after (step { during .rxBytes readReq [0x01] [.tick 6562] with tMark := some 5000 }) (fun t => (t.phase, t.tMark)) =
      some (.rxSilence, some 6562) := by decide +kernel

/-! ## Witnesses: for each statement with hypotheses, a state and operands that meet them together -/

theorem accepts_base : Accepts base := ⟨rfl, rfl⟩

theorem configured_base : Configured base 1562 3645 := ⟨rfl, rfl⟩

theorem engine_during (p : Phase) (req : ReqContext) (frame : List Byte) (n : Nat) (es : List Event) :
    EngineAt (during p req frame (.tick n :: es)) p n es := ⟨rfl, rfl, rfl⟩

theorem holds_request : Holds (during .transmit readReq request [.tick 5]) request :=
  ⟨by decide +kernel, by decide +kernel⟩

theorem holds_reply (p : Phase) (req : ReqContext) (es : List Event) : Holds (during p req reply es) reply :=
  ⟨by show reply.length ≤ 256; decide +kernel, by show ∀ i, i < reply.length → Cells.read (Cells.writeList [] 0 reply) i = reply[i]?; decide +kernel⟩

theorem witness_DecodeInvertsEncode :
    (Instr.writeMultipleCoils 0 0 (some [true, true, true]) 1).wf = true ∧
    encode (Instr.writeMultipleCoils 0 0 (some [true, true, true]) 1) = some [0, 0x0F, 0, 0, 0, 1, 1, 1] ∧
    (Instr.readCoils 247 0 (some 7) 2000).wf = true ∧
    encode (Instr.readCoils 247 0 (some 7) 2000) = some [0xF7, 0x01, 0, 0, 0x07, 0xD0] := by decide +kernel

theorem witness_EncodeInvertsDecode :
    decode none [0x01, 0x04, 0x00, 0x08, 0x00, 0x01, 0xAA] = .ok (.readInputRegisters 1 8 none 1, [0xAA]) := by
  decide +kernel

theorem witness_FrameRoundTrip :
    (Instr.writeSingleRegister 0x11 1 3).wf = true ∧
    encodeFrame (.writeSingleRegister 0x11 1 3) = some [0x11, 0x06, 0x00, 0x01, 0x00, 0x03, 0x9A, 0x9B] ∧
    decodeFrame none [0x11, 0x06, 0x00, 0x01, 0x00, 0x03, 0x9A, 0x9B] = .ok (.writeSingleRegister 0x11 1 3) := by
  decide +kernel

/-- At the bounds: the longest request (T51) and the longest response (T48). -/
theorem witness_FramesFitTheBuffer :
    ((Instr.writeMultipleRegisters 1 0 (some (List.replicate 123 1)) 123).wf = true ∧
      (encodeFrame (.writeMultipleRegisters 1 0 (some (List.replicate 123 1)) 123)).map List.length = some 255) ∧
    after (step { during .parse { readReq with addr := 0, qty := 125 } ([0x01, 0x03, 0xFA] ++ List.replicate 252 0x12)
        [.tick 5] with wordBufs := [(7, List.replicate 125 0)] })
      (fun t => (t.fault, t.result.ok, t.rxLen)) = some (none, true, 255) ∧
    1 ≤ (125#16).toNat ∧ (125#16).toNat ≤ qtyMax .readHoldingRegisters := by decide +kernel

theorem witness_UnpackInvertsPack :
    9 ≤ (List.replicate 9 true).length ∧ 9 ≤ 9 ∧ 9 < 8 * byteCount .bit 9 ∧ 2 ≤ [0x000A#16, 0x0102#16].length := by
  decide +kernel

theorem witness_StepRunsTheOperationIssued :
    ({ base with schedule := [.issue 30 (.byName .getExceptionCode)] } : State).schedule =
      [.issue 30 (.byName .getExceptionCode)] ∧ base.fault = none ∧ Instr.getExceptionCode.op.atPort = true ∧
    decode (some 7) [0x01, 0x04, 0x00, 0x08, 0x00, 0x01, 0xAA] = .ok (.readInputRegisters 1 8 (some 7) 1, [0xAA]) ∧
    (Instr.readInputRegisters 1 8 (some 7) 1).op.atPort = true := by decide +kernel

theorem witness_StepRunsTheExceptionResponseReceived :
    EngineAt (during .parse readReq [0x01, 0x83, 0x02, 0xC0, 0xF1] [.tick 5]) .parse 5 [] ∧
    Holds (during .parse readReq [0x01, 0x83, 0x02, 0xC0, 0xF1] [.tick 5]) [0x01, 0x83, 0x02, 0xC0, 0xF1] ∧
    (0x83#8).msb = true ∧ decode none [0x01, 0x83, 0x02] = .ok (.exceptionResponse 1 0x03 0x02, []) :=
  ⟨engine_during .parse readReq _ 5 [], ⟨by decide +kernel, by decide +kernel⟩, by decide +kernel, by decide +kernel⟩

theorem witness_TableWordRunsOnTheNextStep :
    base.params.wf ∧ base.now < 2 ^ base.params.clockBits ∧ decodeTableWord 8 0x03 = some (.readHoldingRegisters 0 0 none 0) ∧
    decodeTableWord 16 0x0281 = some (.exceptionResponse 0 1 2) := by decide +kernel

theorem witness_CrcIsTheModbusCrc : base.fault = none := rfl

theorem witness_CrcEncodeAppendsTheCrc :
    Holds (small [1, 2, 3, 4, 5, 6]) [1, 2, 3, 4, 5, 6] ∧ 6 + 2 ≤ (small []).params.bufCap ∧
    (small []).params.bufCap < 7 + 2 ∧ FirstUnset (small [1, 2, 3, 4, 5]) 6 5 ∧ FirstUnset (small []) 6 0 ∧
    (small []).fault = none :=
  ⟨⟨by decide +kernel, by decide +kernel⟩, by decide +kernel, by decide +kernel,
    ⟨by decide +kernel, by decide +kernel, by decide +kernel⟩,
    ⟨by decide +kernel, by decide +kernel, by decide +kernel⟩, rfl⟩

theorem witness_CrcValidateComparesTheCrc :
    Holds (small [1, 2]) ([] ++ [1, 2]) ∧ (0 < 2 ∧ 1 < 2) ∧
    (2 ≤ 8 ∧ 8 ≤ (small []).params.bufCap ∧ FirstUnset (small [1, 2, 3, 4, 5, 6, 7]) 8 7) ∧
    (2 ≤ 9 ∧ (small []).params.bufCap < 9 ∧ Holds (small [1, 2, 3, 4, 5, 6, 7, 8]) [1, 2, 3, 4, 5, 6, 7, 8] ∧
      [1, 2, 3, 4, 5, 6, 7, 8].length = (small []).params.bufCap) :=
  ⟨⟨by decide +kernel, by decide +kernel⟩, by decide +kernel,
    ⟨by decide +kernel, by decide +kernel, ⟨by decide +kernel, by decide +kernel, by decide +kernel⟩⟩,
    by decide +kernel, by decide +kernel, ⟨by decide +kernel, by decide +kernel⟩, rfl⟩

theorem witness_CrcResidueIsZero :
    Holds (small []) [] ∧ Holds (small [1]) [1] ∧ Holds (small [0xFF, 0xFF]) [0xFF, 0xFF] ∧ (small []).fault = none :=
  ⟨⟨by decide +kernel, by decide +kernel⟩, ⟨by decide +kernel, by decide +kernel⟩,
    ⟨by decide +kernel, by decide +kernel⟩, rfl⟩

theorem witness_CrcRoundTripAndSingleBitErrors :
    Holds (small [1, 2, 3, 4, 5, 6]) [1, 2, 3, 4, 5, 6] ∧ 6 + 2 ≤ (small []).params.bufCap ∧
    after (exec (.crcEncode 6) (small [1, 2, 3, 4, 5, 6])) (fun t => (Cells.read t.buf 7).isSome) = some true ∧
    7 < 6 + 2 ∧ 7 < 8 :=
  ⟨⟨by decide +kernel, by decide +kernel⟩, by decide +kernel, by decide +kernel, by decide +kernel⟩

theorem witness_TimingCalcFollowsTheTable :
    base.fault = none ∧ bitsPerChar bitsTable ⟨.eight, .none, .one⟩ = some 10 ∧
    (0#32).toNat = 0 ∧ 19200 < (19201#32).toNat ∧ (1 ≤ (1#32).toNat ∧ (19200#32).toNat ≤ 19200) ∧
    bitsPerChar bitsTable ⟨.eight, .even, .two⟩ = none := by decide +kernel

theorem witness_ComputedTimeoutsAreNeverZero :
    bitsPerChar bitsTable ⟨.eight, .none, .one⟩ = some 10 ∧ 10 ≤ 10 ∧
    timingCalc bitsTable 19200 ⟨.eight, .none, .one⟩ = some (781, 1822) ∧
    timingCalc bitsTable 19201 ⟨.eight, .none, .one⟩ = some (750, 1750) := by decide +kernel

theorem witness_ConfigureSetsTheTimeouts : Accepts base := accepts_base
theorem witness_SetResponseTimeoutSetsRespTo : Accepts base := accepts_base
theorem witness_GetExceptionCodeReadsExc : Accepts base := accepts_base

theorem witness_OperationInProgressRaisesReentry :
    Instr.getExceptionCode.op.atPort = true ∧ (during .rxWait readReq request []).fault = none ∧
    (during .rxWait readReq request []).phase ≠ .idle := by decide +kernel

/-- Both ends of the ids and of the quantities. -/
theorem witness_ReadStartsItsRequest :
    Accepts base ∧ Configured base 1562 3645 ∧ base.params.wf ∧ 1 ≤ (1#8).toNat ∧ (247#8).toNat ≤ 247 ∧
    1 ≤ (1#16).toNat ∧
    (Cells.read { base with bitBufs := [(7, List.replicate 2000 false)] }.bitBufs 7 =
        some (List.replicate 2000 false) ∧
      (2000#16).toNat ≤ (List.replicate 2000 false).length ∧ (2000#16).toNat ≤ 2000) ∧
    (Cells.read { base with wordBufs := [(7, List.replicate 125 0#16)] }.wordBufs 7 =
        some (List.replicate 125 0#16) ∧
      (125#16).toNat ≤ (List.replicate 125 0#16).length ∧ (125#16).toNat ≤ 125) :=
  ⟨accepts_base, configured_base, by decide +kernel, by decide +kernel, by decide +kernel, by decide +kernel,
    ⟨rfl, by decide +kernel, by decide +kernel⟩, ⟨rfl, by decide +kernel, by decide +kernel⟩⟩

theorem witness_SingleWriteStartsItsRequest :
    Accepts base ∧ Configured base 1562 3645 ∧ base.params.wf ∧ (0#8).toNat ≤ 247 ∧ (247#8).toNat ≤ 247 :=
  ⟨accepts_base, configured_base, by decide +kernel, by decide +kernel, by decide +kernel⟩

theorem witness_MultipleCoilsWriteStartsItsRequest :
    Accepts base ∧ Configured base 1562 3645 ∧ base.params.wf ∧ (0#8).toNat ≤ 247 ∧ 1 ≤ (1#16).toNat ∧
    (1968#16).toNat ≤ 1968 ∧ (1968#16).toNat ≤ (List.replicate 1968 true).length :=
  ⟨accepts_base, configured_base, by decide +kernel, by decide +kernel, by decide +kernel, by decide +kernel, by decide +kernel⟩

theorem witness_MultipleRegistersWriteStartsItsRequest :
    Accepts base ∧ Configured base 1562 3645 ∧ base.params.wf ∧ (0#8).toNat ≤ 247 ∧ 1 ≤ (1#16).toNat ∧
    (123#16).toNat ≤ 123 ∧ (123#16).toNat ≤ (List.replicate 123 0#16).length :=
  ⟨accepts_base, configured_base, by decide +kernel, by decide +kernel, by decide +kernel, by decide +kernel, by decide +kernel⟩

theorem witness_BadArgumentFailsBeforeAnyIO :
    Accepts base ∧ BadArgument base (.readInputRegisters 0 0 (some 7) 1) ∧
    BadArgument base (.readInputRegisters 248 0 (some 7) 1) ∧ BadArgument base (.readDiscreteInputs 1 0 (some 7) 0) ∧
    BadArgument base (.readCoils 1 0 (some 7) 2001) ∧ BadArgument base (.readHoldingRegisters 1 0 (some 7) 126) ∧
    BadArgument base (.readCoils 1 0 none 8) ∧ BadArgument base (.writeSingleCoil 248 0 true) ∧
    BadArgument base (.writeSingleRegister 248 0 0) ∧
    BadArgument base (.writeMultipleCoils 1 0 (some (List.replicate 1969 true)) 1969) ∧
    BadArgument base (.writeMultipleRegisters 1 0 (some (List.replicate 124 0)) 124) ∧
    BadArgument base (.writeMultipleRegisters 1 0 none 2) :=
  ⟨accepts_base, .inl rfl, .inr (.inl (by decide)), .inr (.inr (.inl rfl)), .inr (.inr (.inr (.inl (by decide)))),
    .inr (.inr (.inr (.inl (by decide)))), .inr (.inr (.inr (.inr rfl))), (by decide : 247 < (248#8).toNat),
    (by decide : 247 < (248#8).toNat), .inr (.inr (.inl (by decide))), .inr (.inr (.inl (by decide))),
    .inr (.inr (.inr rfl))⟩

theorem witness_ShortBufferRaisesBufferTooShort :
    Accepts base ∧
    (¬ BadArgument base (.readHoldingRegisters 1 0 (some 7) 4) ∧
      ShortBuffer base 4 3 (.readHoldingRegisters 1 0 (some 7) 4)) ∧
    (¬ BadArgument base (.readCoils 1 0 (some 7) 23) ∧ ShortBuffer base 23 22 (.readCoils 1 0 (some 7) 23)) ∧
    (¬ BadArgument base (.writeMultipleRegisters 1 0 (some [1, 2]) 3) ∧
      ShortBuffer base 3 2 (.writeMultipleRegisters 1 0 (some [1, 2]) 3)) := by
  refine ⟨accepts_base, ⟨?_, ?_⟩, ⟨?_, ?_⟩, ⟨?_, ?_⟩⟩
  all_goals simp only [BadArgument, ShortBuffer]; decide +kernel

theorem witness_UnsetTimeoutsRaiseTimingUnset :
    Accepts { base with charTo := none } ∧ Accepts { base with frameTo := none } ∧ base.params.wf ∧
    isDeviceOp (.writeSingleRegister 0x11 1 3) = true ∧
    encode (.writeSingleRegister 0x11 1 3) = some [0x11, 0x06, 0x00, 0x01, 0x00, 0x03] ∧
    ¬ BadArgument { base with charTo := none } (.writeSingleRegister 0x11 1 3) ∧
    (∀ qty length, ¬ ShortBuffer { base with charTo := none } qty length (.writeSingleRegister 0x11 1 3)) ∧
    ({ base with charTo := none } : State).charTo = none ∧ ({ base with frameTo := none } : State).frameTo = none :=
  ⟨⟨rfl, rfl⟩, ⟨rfl, rfl⟩, by decide +kernel, rfl, by decide +kernel,
    (by decide : ¬ 247 < (0x11#8).toNat), fun _ _ h => h, rfl, rfl⟩

theorem witness_TransactEntersFlushStale :
    Configured (small [1, 2, 3, 4, 5, 6]) 1562 3645 ∧ Holds (small [1, 2, 3, 4, 5, 6]) [1, 2, 3, 4, 5, 6] ∧
    (small []).txLen = 6 ∧ 6 + 2 ≤ (small []).params.bufCap ∧ (small []).fault = none ∧
    ({ base with charTo := none } : State).charTo = none ∧
    ({ small [] with txLen := 7 } : State).params.bufCap < 7 + 2 ∧ FirstUnset (small [1, 2, 3, 4, 5]) 6 5 :=
  ⟨⟨rfl, rfl⟩, ⟨by decide +kernel, by decide +kernel⟩, rfl, by decide +kernel, rfl, rfl, by decide +kernel,
    ⟨by decide +kernel, by decide +kernel, by decide +kernel⟩⟩

theorem witness_IssuingDoesNoIO :
    Instr.getExceptionCode.op.atPort = true ∧ ∃ t, exec .getExceptionCode base = .next t := ⟨rfl, _, rfl⟩

theorem witness_FlushStaleDiscardsUntilSilence :
    EngineAt (during .flushStale readReq request [.tick 3745]) .flushStale 3745 [] ∧
    ({ during .flushStale readReq request [.tick 3745] with rxq := [1, 2] } : State).rxq = 1 :: [2] ∧
    (during .flushStale readReq request [.tick 3745]).rxq = [] ∧
    (during .flushStale readReq request [.tick 3745]).tMark = some 100 ∧
    (during .flushStale readReq request [.tick 3745]).frameTo = some 3645 ∧
    (3645#32).toNat ≤ base.between 100 3745 ∧ base.between 100 3744 < (3645#32).toNat :=
  ⟨engine_during _ _ _ _ _, rfl, rfl, rfl, rfl, by decide, by decide⟩

theorem witness_TransmitSendsTheFrame :
    EngineAt (during .transmit readReq request [.tick 5]) .transmit 5 [] ∧
    Holds (during .transmit readReq request [.tick 5]) request ∧
    request.length = (during .transmit readReq request [.tick 5]).txLen + 2 ∧
    (during .transmit readReq request [.tick 5]).req = some readReq ∧ readReq.expect = true :=
  ⟨engine_during _ _ _ _ _, holds_request, rfl, rfl, rfl⟩

theorem witness_BroadcastEndsInTransmit :
    EngineAt (during .transmit { writeReq with id := 0, expect := false } request [.tick 5]) .transmit 5 [] ∧
    Holds (during .transmit { writeReq with id := 0, expect := false } request [.tick 5]) request ∧
    request.length = (during .transmit { writeReq with id := 0, expect := false } request [.tick 5]).txLen + 2 ∧
    ({ writeReq with id := 0, expect := false } : ReqContext).expect = false :=
  ⟨engine_during _ _ _ _ _, ⟨by decide +kernel, by decide +kernel⟩, rfl, rfl⟩

theorem witness_RxWaitAwaitsTheFirstByte :
    base.params.wf ∧ EngineAt (during .rxWait readReq request [.tick 5]) .rxWait 5 [] ∧
    ({ during .rxWait readReq request [.tick 5] with rxq := [1] } : State).rxq = 1 :: [] ∧
    (during .rxWait readReq request [.tick 5]).rxq = [] ∧
    (during .rxWait readReq request [.tick 5]).tMark = some 100 ∧
    (during .rxWait readReq request []).respTo.toNat ≤ base.between 100 100100 ∧
    base.between 100 100099 < (during .rxWait readReq request []).respTo.toNat :=
  ⟨by decide +kernel, engine_during _ _ _ _ _, rfl, rfl, rfl, by decide, by decide⟩

theorem witness_RxBytesStoresUntilAGap :
    EngineAt (during .rxBytes readReq reply [.tick 5]) .rxBytes 5 [] ∧
    ({ during .rxBytes readReq reply [.tick 5] with rxLen := 256 } : State).rxLen = params.bufCap ∧
    ({ during .rxBytes readReq reply [.tick 5] with rxLen := 255 } : State).rxLen < params.bufCap ∧
    ({ during .rxBytes readReq reply [.tick 5] with rxq := [1] } : State).rxq = 1 :: [] ∧
    (during .rxBytes readReq reply [.tick 5]).charTo = some 1562 ∧
    (1562#32).toNat ≤ base.between 100 1662 ∧ base.between 100 1661 < (1562#32).toNat :=
  ⟨engine_during _ _ _ _ _, rfl, by decide, rfl, rfl, by decide, by decide⟩

theorem witness_RxSilenceWaitsFrameTo :
    EngineAt (during .rxSilence readReq reply [.tick 3745]) .rxSilence 3745 [] ∧
    (during .rxSilence readReq reply [.tick 3745]).tMark = some 100 ∧
    (during .rxSilence readReq reply [.tick 3745]).frameTo = some 3645 ∧
    (3645#32).toNat ≤ base.between 100 3745 ∧ base.between 100 3744 < (3645#32).toNat :=
  ⟨engine_during _ _ _ _ _, rfl, rfl, by decide, by decide⟩

theorem witness_ValidateJudgesTheFrame :
    EngineAt (during .validate readReq reply [.tick 5]) .validate 5 [] ∧
    ({ during .validate readReq reply [.tick 5] with rxq := [1] } : State).rxq ≠ [] ∧
    (during .validate readReq reply [.tick 5]).rxq = [] ∧
    ({ during .validate readReq reply [.tick 5] with rxLen := 2 } : State).rxLen < 3 ∧
    (3 ≤ (during .validate readReq [0x01, 0x7E, 0x80] [.tick 5]).rxLen ∧
      Holds (during .validate readReq [0x01, 0x7E, 0x80] [.tick 5]) ([0x01] ++ [0x7E, 0x80]) ∧
      (during .validate readReq [0x01, 0x7E, 0x80] [.tick 5]).rxLen = 1 + 2) :=
  ⟨engine_during _ _ _ _ _, by decide +kernel, rfl, by decide +kernel, by decide +kernel,
    ⟨by decide +kernel, by decide +kernel⟩, rfl⟩

theorem witness_ParseHeaderChecksTheResponse :
    EngineAt (during .parse readReq reply [.tick 5]) .parse 5 [] ∧
    (during .parse readReq reply [.tick 5]).req = some readReq ∧
    Holds (during .parse readReq reply [.tick 5]) (0x01 :: 0x03 :: 0x06 :: reply.drop 3) ∧
    (params.checkResponseId = true ∧ (0x02#8) ≠ readReq.id) ∧
    ¬ (params.checkResponseId = true ∧ (0x01#8) ≠ readReq.id) ∧ (0x83#8) = fcByte readReq.fc ||| 0x80#8 ∧
    (during .parse readReq [0x01, 0x83, 0x02, 0xC0, 0xF1] []).rxLen - 2 = 3 ∧
    (during .parse readReq [0x01, 0x83, 0x02, 0x00, 0xF1, 0x50] []).rxLen - 2 ≠ 3 ∧
    ((0x84#8) ≠ fcByte readReq.fc ||| 0x80#8 ∧ (0x84#8) ≠ fcByte readReq.fc) ∧ (0x03#8) = fcByte readReq.fc :=
  ⟨engine_during _ _ _ _ _, rfl, holds_reply _ _ _, by decide +kernel, by decide +kernel, by decide +kernel, rfl,
    by decide +kernel, by decide +kernel, rfl⟩

theorem witness_ExceptionResponseSetsExc :
    (during .parse readReq reply []).fault = none ∧ (during .parse readReq reply []).req = some readReq := ⟨rfl, rfl⟩

/-- The request of T11, its reply, and one with another length and one with another byte count. -/
theorem witness_ReadOfBitsUnpacksTheResponse :
    ∃ (s : State) (r : ReqContext) (d : List Byte), EngineAt s .parse 5 [] ∧ s.req = some r ∧
      r.fc = .readDiscreteInputs ∧ r.out = some 7 ∧ Cells.read s.bitBufs 7 = some (List.replicate 22 false) ∧
      r.qty.toNat ≤ (List.replicate 22 false).length ∧
      Holds s ([0x11, fcByte r.fc, 0x03] ++ d) ∧ d.length + 3 = s.rxLen ∧ (s.params.checkResponseId = true → 0x11 = r.id) ∧
      s.rxLen - 2 = 3 + (r.qty.toNat + 7) / 8 ∧ (0x03#8).toNat = (r.qty.toNat + 7) / 8 ∧
      (0x02#8).toNat ≠ (r.qty.toNat + 7) / 8 ∧ 7 - 2 ≠ 3 + (r.qty.toNat + 7) / 8 :=
  ⟨during .parse { readReq with id := 0x11, fc := .readDiscreteInputs, addr := 0x00C4, qty := 22 }
      [0x11, 0x02, 0x03, 0xAC, 0xDB, 0x35, 0x20, 0x18] [.tick 5],
    { readReq with id := 0x11, fc := .readDiscreteInputs, addr := 0x00C4, qty := 22 },
    [0xAC, 0xDB, 0x35, 0x20, 0x18], engine_during _ _ _ _ _, rfl, rfl, rfl, rfl, by decide +kernel,
    ⟨by decide +kernel, by decide +kernel⟩, rfl, fun _ => rfl, by decide +kernel, by decide +kernel,
    by decide +kernel, by decide +kernel⟩

theorem witness_ReadOfRegistersUnpacksTheResponse :
    ∃ (s : State) (r : ReqContext) (d : List Byte), EngineAt s .parse 5 [] ∧ s.req = some r ∧
      r.fc = .readHoldingRegisters ∧ r.out = some 7 ∧ Cells.read s.wordBufs 7 = some [0x1111, 0x2222, 0x3333] ∧
      r.qty.toNat ≤ 3 ∧ Holds s ([0x01, fcByte r.fc, 0x06] ++ d) ∧ d.length + 3 = s.rxLen ∧
      (s.params.checkResponseId = true → 0x01 = r.id) ∧
      s.rxLen - 2 = 3 + 2 * r.qty.toNat ∧ (0x06#8).toNat = 2 * r.qty.toNat ∧ (0x04#8).toNat ≠ 2 * r.qty.toNat ∧
      9 - 2 ≠ 3 + 2 * r.qty.toNat :=
  ⟨during .parse readReq reply [.tick 5], readReq, reply.drop 3, engine_during _ _ _ _ _, rfl, rfl, rfl, rfl,
    by decide +kernel, holds_reply _ _ _, rfl, fun _ => rfl, by decide +kernel, by decide +kernel, by decide +kernel,
    by decide +kernel⟩

/-- The request of T13 and its four replies; and T14's context for the multiple form. -/
theorem witness_WriteEchoIsChecked :
    ∃ (s : State), EngineAt s .parse 5 [] ∧ s.req = some writeReq ∧
      (writeReq.fc = .writeSingleRegister ∧ 3#16 = writeReq.val) ∧
      (({ writeReq with fc := .writeMultipleCoils, qty := 10 } : ReqContext).qty = 10) ∧
      (s.params.checkResponseId = true → 0x11 = writeReq.id) ∧
      Holds s ([0x11, fcByte writeReq.fc, 0x00, 0x01, 0x00, 0x03] ++ [0x9A, 0x9B]) ∧
      s.rxLen - 2 = 6 ∧ 9 - 2 ≠ 6 ∧ join 0x00 0x01 = writeReq.addr ∧ join 0x00 0x02 ≠ writeReq.addr ∧
      join 0x00 0x03 = 3#16 ∧ join 0x00 0x04 ≠ 3#16 :=
  ⟨during .parse writeReq [0x11, 0x06, 0x00, 0x01, 0x00, 0x03, 0x9A, 0x9B] [.tick 5], engine_during _ _ _ _ _, rfl,
    ⟨rfl, rfl⟩, rfl, fun _ => rfl, ⟨by decide +kernel, by decide +kernel⟩, rfl, by decide, by decide +kernel,
    by decide +kernel, by decide +kernel, by decide +kernel⟩

theorem witness_ResetPutsEveryRegisterAtItsResetValue :
    (during .rxWait readReq request [.reset]).schedule = .reset :: [] := rfl

/-- A block whose last operation succeeded (P1's `RESULT`) raises TimingUnset: idle, and nothing is presented (R205). -/
theorem test_fault_presents_nothing :
    after (exec (.writeSingleCoil 1 0x00AC true)
        { base with charTo := none, frameTo := none, result := { ok := true, err := .none, byte := none } })
      (fun t => (t.fault, t.phase, t.presented)) =
      some (some (.timingUnset .writeSingleCoil), .idle, none) ∧
    after (exec .getExceptionCode base) (fun t => t.presented) =
      some (some { ok := true, err := .none, byte := some 0x02 }) := by decide +kernel

/-- Each draw that has a next state. -/
theorem witness_FaultStopsTheBlockUntilReset :
    ∀ es ∈ [[], [.deliver 9], [.tick 30], [.hostBits 3 [true]], [.hostWords 3 [1]], [.reset],
        [Event.issue 30 (.byName .getExceptionCode)]],
      ∃ t, step { base with fault := some (.reentry .configure), schedule := es } = .next t := by
  intro es h
  simp only [List.mem_cons, List.not_mem_nil, or_false] at h
  rcases h with rfl | rfl | rfl | rfl | rfl | rfl | rfl <;> exact ⟨_, rfl⟩

/-- A run of a stopped block, with no reset among its draws. -/
theorem witness_FaultIsNeverFinal :
    Event.reset ∉ [Event.deliver 9, .tick 30, .reset].take 2 ∧
    ∃ t, steps 2 { base with fault := some (.reentry .configure), schedule := [.deliver 9, .tick 30, .reset] } =
      .next t := ⟨by decide +kernel, ⟨_, rfl⟩⟩

theorem witness_StoppedBlockAcceptsNoOperation :
    let s : State := { base with fault := some (.timingUnset .readCoils), schedule := [.issue 30 (.byName .getExceptionCode), .reset] }
    s.fault = some (.timingUnset .readCoils) ∧ s.schedule = .issue 30 (.byName .getExceptionCode) :: [.reset] := ⟨rfl, rfl⟩

/-- A stopped block drops the operation issued, and the reset drawn after it presents nothing (R205, R231). -/
theorem test_reset_after_an_operation_dropped :
    ∃ t, steps 2 { base with fault := some (.timingUnset .readCoils), schedule := [.issue 30 (.byName .getExceptionCode), .reset] } =
      .next t ∧ t.fault = none ∧ t.presented = none := ⟨_, rfl, by decide +kernel, by decide +kernel⟩

/-- A reset in mid-operation: no result is presented (R231). -/
theorem witness_ResetStateHasTheResetValues :
    (during .parse readReq request [.reset]).schedule = .reset :: [] ∧
    (during .parse readReq request [.reset]).phase = .parse := by decide +kernel

/-- A state in the middle of an operation meets the invariant. -/
theorem inv_during (n : Nat) : Inv (during .transmit readReq request [.tick n]) where
  params := by show 256 ≤ 256; decide
  bufWf := by show Cells.wf (Cells.writeList [] 0 request); decide +kernel
  bufBound := by show ∀ c ∈ Cells.writeList [] 0 request, c.1 < 256; decide +kernel
  bitsWf := by show Cells.wf [(7, List.replicate 22 false)]; decide +kernel
  wordsWf := by show Cells.wf [(7, [0x1111#16, 0x2222#16, 0x3333#16])]; decide +kernel
  clock := ⟨by show 20 < 2 ^ 32; decide, by intro m h; cases h; show 100 < 2 ^ 32; decide⟩
  txLen := by show 6 + 2 ≤ 256; decide
  rxLen := by show request.length ≤ 256; decide
  timeouts := rfl
  de := rfl
  notPresenting := ⟨by show Phase.transmit ≠ .done; decide, by show Phase.transmit ≠ .failed; decide⟩
  fault := by intro f h; cases h
  inOperation := fun _ => ⟨rfl, rfl, rfl, readReq, rfl, 7, [0x1111, 0x2222, 0x3333], rfl, rfl, by decide⟩
  request := fun _ => by
    show ∀ a, a < 6 + 2 → (Cells.read (Cells.writeList [] 0 request) a).isSome
    decide +kernel
  received := by
    intro h
    have h : Phase.transmit = .rxBytes ∨ Phase.transmit = .rxSilence ∨ Phase.transmit = .validate ∨
      Phase.transmit = .parse := h
    exact absurd h (by decide)
  parsed := by
    intro h
    have h : Phase.transmit = .parse := h
    cases h

theorem next_during : ∃ t, step (during .transmit readReq request [.tick 5]) = .next t := ⟨_, rfl⟩

theorem witness_EveryStepKeepsTheInvariant :
    Inv (during .transmit readReq request [.tick 5]) ∧
    ∃ t, step (during .transmit readReq request [.tick 5]) = .next t := ⟨inv_during 5, next_during⟩

theorem witness_DeIsTrueOnlyAroundTheWrite :
    Inv (during .transmit readReq request [.tick 5]) ∧
    ∃ t, step (during .transmit readReq request [.tick 5]) = .next t := ⟨inv_during 5, next_during⟩

theorem witness_PhaseMovesOnlyAsTheTableSays :
    Inv (during .transmit readReq request [.tick 5]) ∧
    ∃ t, step (during .transmit readReq request [.tick 5]) = .next t := ⟨inv_during 5, next_during⟩

/-- The step in TRANSMIT, the one that captures an exception byte, and reset. -/
theorem witness_ExcIsWrittenOnlyByAnExceptionResponse :
    (∃ t, step (during .transmit readReq request [.tick 5]) = .next t) ∧
    (∃ t, step (during .parse readReq [0x01, 0x83, 0x02, 0xC0, 0xF1] [.tick 5]) = .next t) ∧
    ∃ t, step (during .rxWait readReq request [.reset]) = .next t := ⟨next_during, ⟨_, rfl⟩, ⟨_, rfl⟩⟩

theorem witness_TxlogGrowsOnlyInTransmit : ∃ t, step (during .transmit readReq request [.tick 5]) = .next t :=
  next_during

/-- The step that takes a byte, and an arrival. -/
theorem witness_RxqIsAQueue :
    (∃ t, step { during .flushStale readReq request [.tick 5] with rxq := [1, 2] } = .next t) ∧
    ∃ t, step (during .flushStale readReq request [.deliver 9]) = .next t := ⟨⟨_, rfl⟩, ⟨_, rfl⟩⟩

/-- The step that ends a read, and the host's own write. -/
theorem witness_HostBuffersChangeOnlyOnSuccess :
    (∃ t, step (during .parse readReq reply [.tick 5]) = .next t) ∧
    ∃ t, step { base with schedule := [.hostBits 3 [true]] } = .next t := ⟨⟨_, rfl⟩, ⟨_, rfl⟩⟩

theorem witness_TimeoutsChangeOnlyByTheirOperations :
    (∃ t, step { base with schedule := [.issue 30 (.byName (.configure 0 ⟨.eight, .none, .one⟩))] } = .next t) ∧
    ∃ t, step { base with schedule := [.issue 30 (.byName (.setResponseTimeout 0))] } = .next t :=
  ⟨⟨_, rfl⟩, ⟨_, rfl⟩⟩

/-- Two bytes, each read at its step and followed by a step 3644 microseconds later, one below `FRAME_TO`. -/
def busyLine : List (Byte × Nat × Nat) := [(1, 1000, 4644), (2, 4644, 8288)]

theorem busyLine_busy : ∀ x ∈ busyLine, base.between x.2.1 x.2.2 < (3645#32).toNat := by decide +kernel

theorem witness_BusyLineNeverTransmits :
    ∃ s : State, s.fault = none ∧ s.phase = .flushStale ∧ s.rxq = [] ∧ s.tMark = some 100 ∧ s.frameTo = some 3645 ∧
      (∀ x ∈ busyLine, s.between x.2.1 x.2.2 < (3645#32).toNat) ∧
      s.schedule = busyLine.flatMap (fun x => [.deliver x.1, .tick x.2.1, .tick x.2.2]) :=
  ⟨during .flushStale readReq request (busyLine.flatMap fun x => [.deliver x.1, .tick x.2.1, .tick x.2.2]),
    rfl, rfl, rfl, rfl, rfl, busyLine_busy, rfl⟩

theorem witness_SilentDeviceTimesOut :
    ∃ s : State, s.fault = none ∧ s.phase = .flushStale ∧ s.rxq = [] ∧ s.tMark = some 100 ∧ s.frameTo = some 3645 ∧
      s.req = some readReq ∧ readReq.expect = true ∧ Holds s request ∧ request.length = s.txLen + 2 ∧
      (3645#32).toNat ≤ base.between 100 3745 ∧
      s.respTo.toNat < 2 ^ s.params.clockBits ∧
      s.schedule = [.tick 3745, .tick 12014, .tick (12014 + s.respTo.toNat)] ++ [] :=
  ⟨during .flushStale readReq request [.tick 3745, .tick 12014, .tick (12014 + 100000)], rfl, rfl, rfl, rfl, rfl, rfl, rfl,
    ⟨by decide +kernel, by decide +kernel⟩, rfl, by decide +kernel, by decide +kernel, rfl⟩

theorem witness_BroadcastWriteCompletes :
    ∃ (s : State) (i : Instr), Accepts s ∧ Configured s 1562 3645 ∧ s.params.wf ∧ s.rxq = [] ∧
      i = .writeSingleCoil 0 0x00AC true ∧ i.wf = true ∧
      encodeFrame i = some [0x00, 0x05, 0x00, 0xAC, 0xFF, 0x00, 0x4D, 0xCA] ∧
      (3645#32).toNat < 2 ^ s.params.clockBits ∧
      s.schedule = [.issue 20 (.byName i), .tick (20 + 3645), .tick 12014] ++ [] :=
  ⟨{ base with schedule := [.issue 20 (.byName (.writeSingleCoil 0 0x00AC true)), .tick (20 + 3645), .tick 12014] },
    .writeSingleCoil 0 0x00AC true, ⟨rfl, rfl⟩, ⟨rfl, rfl⟩, by decide +kernel, rfl, rfl, rfl, by decide +kernel,
    by decide +kernel, rfl⟩

theorem exchanging_meets (i : Instr) (answer : List Byte) :
    Accepts (exchanging i answer) ∧ Configured (exchanging i answer) 1562 3645 ∧
    (exchanging i answer).params.wf ∧ (exchanging i answer).rxq = [] ∧
    Cells.read (exchanging i answer).wordBufs 7 = some [0x1111, 0x2222, 0x3333] ∧
    Cells.read (exchanging i answer).bitBufs 7 = some (List.replicate 22 false) ∧
    ((1562#32).toNat < 2 ^ (exchanging i answer).params.clockBits ∧
      (3645#32).toNat < 2 ^ (exchanging i answer).params.clockBits) ∧
    (exchanging i answer).schedule = exchange i 20 12014 1562 3645 answer :=
  ⟨⟨rfl, rfl⟩, ⟨rfl, rfl⟩, (by decide : 256 ≤ 256), rfl, rfl, rfl,
    ⟨(by decide : 1562 < 2 ^ 32), (by decide : 3645 < 2 ^ 32)⟩, rfl⟩

/-- T40, with the conditions of `exchanging_meets` for its operation and its reply. -/
theorem witness_RegisterReadExchangeDeliversTheData :
    1 ≤ (1#8).toNat ∧ (1#8).toNat ≤ 247 ∧ 1 ≤ (3#16).toNat ∧ (3#16).toNat ≤ 125 ∧
    (3#16).toNat ≤ [0x1111#16, 0x2222#16, 0x3333#16].length ∧
    [0x02#8, 0x2B#8, 0x00#8, 0x00#8, 0x00#8, 0x64#8].length = 2 * (3#16).toNat ∧
    Accepts (exchanging (.readHoldingRegisters 1 0x006B (some 7) 3)
      (withCrc ([1, 0x03, BitVec.ofNat 8 (2 * (3#16).toNat)] ++ [0x02, 0x2B, 0x00, 0x00, 0x00, 0x64]))) :=
  ⟨by decide, by decide, by decide, by decide, by decide, by decide, (exchanging_meets _ _).1⟩

/-- T10, likewise. -/
theorem witness_BitReadExchangeDeliversTheData :
    1 ≤ (0x11#8).toNat ∧ (0x11#8).toNat ≤ 247 ∧ 1 ≤ (19#16).toNat ∧ (19#16).toNat ≤ 2000 ∧
    (19#16).toNat ≤ (List.replicate 22 false).length ∧ [0xCD#8, 0x6B#8, 0x05#8].length = ((19#16).toNat + 7) / 8 ∧
    Accepts (exchanging (.readCoils 0x11 0x0013 (some 7) 19)
      (withCrc ([0x11, 0x01, BitVec.ofNat 8 (((19#16).toNat + 7) / 8)] ++ [0xCD, 0x6B, 0x05]))) :=
  ⟨by decide, by decide, by decide, by decide, by decide, by decide, (exchanging_meets _ _).1⟩

/-- T13, likewise. -/
theorem witness_WriteExchangeSucceedsOnItsEcho :
    1 ≤ (0x11#8).toNat ∧ (Instr.writeSingleRegister 0x11 0x0001 0x0003).wf = true ∧
    encodeFrame (.writeSingleRegister 0x11 0x0001 0x0003) = some [0x11, 0x06, 0x00, 0x01, 0x00, 0x03, 0x9A, 0x9B] ∧
    Accepts (exchanging (.writeSingleRegister 0x11 0x0001 0x0003)
      (withCrc [0x11, 0x06, hi 0x0001, lo 0x0001, hi 0x0003, lo 0x0003])) :=
  ⟨by decide, rfl, by decide +kernel, (exchanging_meets _ _).1⟩

end Sys2Proof.Tests
end

section
/-! SUPPORT. The invariant of every reachable state under each named update of the state, each update said once, and
from these rules that every draw of the schedule keeps it (O46). -/

namespace Sys2Proof.Machine

/-! ## The invariant under each named update -/

section
variable {s : State}

theorem Inv.setSchedule (h : Inv s) (es : List Event) : Inv (s.setSchedule es) := { h with }

theorem Inv.setRxq (h : Inv s) (q : List Byte) : Inv (s.setRxq q) := { h with }

theorem Inv.setExc (h : Inv s) (c : Byte) : Inv (s.setExc c) := { h with }

theorem Inv.setResult (h : Inv s) (r : Result) : Inv (s.setResult r) := { h with }

theorem Inv.setRespTo (h : Inv s) (w : Word32) : Inv (s.setRespTo w) := { h with }

theorem Inv.setNow (h : Inv s) (n : Nat) : Inv (s.setNow n) :=
  { h with clock := ⟨clockAt_lt s n, h.clock.2⟩ }

theorem Inv.setFault (h : Inv s) {f : BlockFault} (hf : f.reachable = true) : Inv (s.setFault f) :=
  { h with fault := fun _ hg => Option.some.inj hg ▸ hf }

/-- `T_MARK <- now` keeps the mark in the clock's range. -/
theorem Inv.setMark (h : Inv s) : Inv (s.setMark s.now) :=
  { h with
    clock := ⟨h.clock.1, fun _ hm => Option.some.inj hm ▸ h.clock.1⟩
    inOperation := fun hp =>
      have ⟨hc, hf, _, hr⟩ := h.inOperation hp
      ⟨hc, hf, rfl, hr⟩ }

/-- A byte that is set stays set when bytes are written. -/
theorem isSome_read_writeList {m : List Host.Cell} {i : Nat} (a : Nat) (v : List Byte)
    (h : (Cells.read m i).isSome) : (Cells.read (Cells.writeList m a v) i).isSome := by
  rw [Cells.read_writeList]
  split
  · rw [List.getElem?_eq_getElem (by omega)]; rfl
  · exact h

/-- Bytes written below `BUF_CAP` keep `BUF` canonical, and every byte that was set stays set. -/
theorem Inv.setBuf (h : Inv s) {a : Nat} {v : List Byte} (hv : a + v.length ≤ s.params.bufCap) :
    Inv (s.setBuf a v) :=
  { h with
    bufWf := Cells.writeList_wf a h.bufWf
    bufBound := fun c hc => by
      rcases Cells.mem_writeList hc with ⟨_, hlt⟩ | hc
      · exact lt_of_lt_of_le hlt hv
      · exact h.bufBound c hc
    request := fun hp i hi => isSome_read_writeList a v (h.request hp i hi)
    received := fun hp i hi => isSome_read_writeList a v (h.received hp i hi) }

theorem Inv.setRxLen (h : Inv s) {n : Nat} (hn : n ≤ s.params.bufCap) (hp : s.phase ≠ .parse)
    (hset : ∀ a, a < n → (Cells.read s.buf a).isSome) : Inv (s.setRxLen n) :=
  { h with
    rxLen := hn
    received := fun _ => hset
    parsed := fun hp' => absurd hp' hp }

/-- The registers of a request are written in an idle block, where no phase reads them. -/
theorem Inv.setTxLen (h : Inv s) (hp : s.phase = .idle) {n : Nat} (hn : n + 2 ≤ s.params.bufCap) :
    Inv (s.setTxLen n) :=
  { h with
    txLen := hn
    request := fun hq => by simp [hp] at hq }

theorem Inv.setReq (h : Inv s) (hp : s.phase = .idle) (r : ReqContext) : Inv (s.setReq r) :=
  { h with inOperation := fun hq => absurd hp hq }

theorem Inv.setTimeouts (h : Inv s) (hp : s.phase = .idle) (r : Option (Word32 × Word32)) :
    Inv (s.setTimeouts r) :=
  { h with
    timeouts := by cases r <;> rfl
    inOperation := fun hq => absurd hp hq }

/-- A phase of an operation may be entered once what it reads is set. -/
theorem Inv.setPhase (h : Inv s) {p : Phase} (hp : p ≠ .done ∧ p ≠ .failed)
    (hop : s.charTo.isSome ∧ s.frameTo.isSome ∧ s.tMark.isSome ∧ ∃ r, s.req = some r ∧ outputFits s r)
    (hreq : p = .flushStale ∨ p = .transmit → ∀ a, a < s.txLen + 2 → (Cells.read s.buf a).isSome)
    (hrec : p = .rxBytes ∨ p = .rxSilence ∨ p = .validate ∨ p = .parse →
      ∀ a, a < s.rxLen → (Cells.read s.buf a).isSome)
    (hparse : p = .parse → 3 ≤ s.rxLen) : Inv (s.setPhase p) :=
  { h with
    notPresenting := hp
    inOperation := fun _ => hop
    request := hreq
    received := hrec
    parsed := hparse }

/-- An idle block reads nothing, so `PHASE <- IDLE` keeps the invariant whatever is set. -/
theorem Inv.setPhase_idle (h : Inv s) : Inv (s.setPhase .idle) :=
  { h with
    notPresenting := ⟨by simp, by simp⟩
    inOperation := fun hp => absurd rfl hp
    request := fun hp => by simp at hp
    received := fun hp => by simp at hp
    parsed := fun hp => by simp at hp }

theorem Inv.failed (h : Inv s) (k : ErrKind) : Inv (s.failed k) :=
  (h.setResult { ok := false, err := k, byte := none }).setPhase_idle

theorem Inv.succeeded (h : Inv s) : Inv s.succeeded :=
  (h.setResult { ok := true, err := .none, byte := none }).setPhase_idle

/-- TRANSMIT leaves `DE` false (R38). -/
theorem Inv.transmitted (h : Inv s) (f : List Byte) : Inv (s.transmitted f) :=
  { h with de := by simp [h.de] }

/-- The output buffer of an operation still fits where the buffers of its kind that it names read as before. -/
theorem outputFits_of_reads {t : State} {r : ReqContext} (h : outputFits s r)
    (hb : r.fc = .readCoils ∨ r.fc = .readDiscreteInputs → ∀ name, r.out = some name →
      Cells.read t.bitBufs name = Cells.read s.bitBufs name)
    (hw : r.fc = .readHoldingRegisters ∨ r.fc = .readInputRegisters → ∀ name, r.out = some name →
      Cells.read t.wordBufs name = Cells.read s.wordBufs name) : outputFits t r := by
  unfold outputFits at h ⊢
  split at h <;> rename_i hfc
  case h_1 | h_2 =>
    obtain ⟨name, bits, ho, hr, hl⟩ := h
    exact ⟨name, bits, ho, (hb (by simp [hfc]) name ho).trans hr, hl⟩
  case h_3 | h_4 =>
    obtain ⟨name, words, ho, hr, hl⟩ := h
    exact ⟨name, words, ho, (hw (by simp [hfc]) name ho).trans hr, hl⟩
  case h_5 | h_6 | h_7 | h_8 => trivial

/-- A bit buffer that the host may fill is not the output buffer of the read of bits in progress (R240). -/
theorem out_ne_of_bitBufInUse {name : BufName} (hu : bitBufInUse s name = false) (hp : s.phase ≠ .idle)
    {r : ReqContext} (hr : s.req = some r) (hfc : r.fc = .readCoils ∨ r.fc = .readDiscreteInputs) :
    r.out ≠ some name := fun ho => by
  simp [bitBufInUse, hp, hr, ho, hfc] at hu

theorem out_ne_of_wordBufInUse {name : BufName} (hu : wordBufInUse s name = false) (hp : s.phase ≠ .idle)
    {r : ReqContext} (hr : s.req = some r) (hfc : r.fc = .readHoldingRegisters ∨ r.fc = .readInputRegisters) :
    r.out ≠ some name := fun ho => by
  simp [wordBufInUse, hp, hr, ho, hfc] at hu

/-- A bit buffer that no operation in progress will write may be filled. -/
theorem Inv.setBits (h : Inv s) {name : BufName} (v : List Bool) (hu : bitBufInUse s name = false) :
    Inv (s.setBits name v) :=
  { h with
    bitsWf := Cells.write_wf name v h.bitsWf
    inOperation := fun hp => by
      obtain ⟨hc, hf, hm, r, hr, ho⟩ := h.inOperation hp
      refine ⟨hc, hf, hm, r, hr, outputFits_of_reads ho (fun hfc out hout => ?_) fun _ _ _ => rfl⟩
      refine Cells.read_write_other _ v ?_
      rintro rfl
      exact out_ne_of_bitBufInUse hu hp hr hfc hout }

/-- A 16-bit buffer that no operation in progress will write may be filled. -/
theorem Inv.setWords (h : Inv s) {name : BufName} (v : List Word16) (hu : wordBufInUse s name = false) :
    Inv (s.setWords name v) :=
  { h with
    wordsWf := Cells.write_wf name v h.wordsWf
    inOperation := fun hp => by
      obtain ⟨hc, hf, hm, r, hr, ho⟩ := h.inOperation hp
      refine ⟨hc, hf, hm, r, hr, outputFits_of_reads ho (fun _ _ _ => rfl) fun hfc out hout => ?_⟩
      refine Cells.read_write_other _ v ?_
      rintro rfl
      exact out_ne_of_wordBufInUse hu hp hr hfc hout }

/-- Reset meets the invariant: every register is at its reset value, and the agents' own state is kept. -/
theorem Inv.resetBlock (h : Inv s) : Inv (resetBlock s) where
  params := h.params
  bufWf := List.Pairwise.nil
  bufBound := by simp
  bitsWf := h.bitsWf
  wordsWf := h.wordsWf
  clock := ⟨h.clock.1, by simp⟩
  txLen := le_trans (by decide : 0 + 2 ≤ 256) h.params
  rxLen := Nat.zero_le _
  timeouts := rfl
  de := rfl
  notPresenting := ⟨by simp, by simp⟩
  fault := by simp
  inOperation := fun hp => absurd rfl hp
  request := fun hp => by simp at hp
  received := fun hp => by simp at hp
  parsed := fun hp => by simp at hp

end

/-! ## The registers each phase reads are set -/

section
variable {s : State}

theorem Inv.tMark_ne_none (h : Inv s) (hp : s.phase ≠ .idle) : s.tMark ≠ none :=
  have ⟨_, _, hm, _⟩ := h.inOperation hp
  Option.isSome_iff_ne_none.1 hm

theorem Inv.charTo_ne_none (h : Inv s) (hp : s.phase ≠ .idle) : s.charTo ≠ none :=
  have ⟨hc, _⟩ := h.inOperation hp
  Option.isSome_iff_ne_none.1 hc

theorem Inv.frameTo_ne_none (h : Inv s) (hp : s.phase ≠ .idle) : s.frameTo ≠ none :=
  have ⟨_, hf, _⟩ := h.inOperation hp
  Option.isSome_iff_ne_none.1 hf

theorem Inv.req_ne_none (h : Inv s) (hp : s.phase ≠ .idle) : s.req ≠ none := by
  obtain ⟨_, _, _, r, hr, _⟩ := h.inOperation hp
  simp [hr]

/-- Before and in TRANSMIT the whole request frame can be read. -/
theorem Inv.memRead_request (h : Inv s) (hp : s.phase = .transmit) :
    ∃ f, memRead s 0 (s.txLen + 2) = .ok f :=
  memRead_of_set (by simpa using h.txLen) fun i _ hi => h.request (.inr hp) i (by omega)

/-- In VALIDATE and PARSE every byte received can be read. -/
theorem Inv.readByte_ne_error (h : Inv s) (hp : s.phase = .validate ∨ s.phase = .parse) {i : Nat} {f : BlockFault}
    (hi : i < s.rxLen) : readByte s i ≠ .error f := by
  obtain ⟨b, hb⟩ := Option.isSome_iff_exists.1 (h.received (.inr (.inr hp)) i hi)
  simp [readByte_ok_iff.2 ⟨lt_of_lt_of_le hi h.rxLen, hb⟩]

/-- The output buffer of a read in progress is named. -/
theorem out_ne_none_of_outputFits {r : ReqContext} (h : outputFits s r)
    (hfc : r.fc = .readCoils ∨ r.fc = .readDiscreteInputs ∨ r.fc = .readHoldingRegisters ∨
      r.fc = .readInputRegisters) : r.out ≠ none := by
  unfold outputFits at h
  rcases hfc with hfc | hfc | hfc | hfc
  all_goals
    simp only [hfc] at h
    obtain ⟨name, _, ho, _⟩ := h
    simp [ho]

/-- No buffer is in use by an idle block. -/
theorem bitBufInUse_of_idle (hp : s.phase = .idle) (name : BufName) : bitBufInUse s name = false := by
  simp [bitBufInUse, hp]

theorem wordBufInUse_of_idle (hp : s.phase = .idle) (name : BufName) : wordBufInUse s name = false := by
  simp [wordBufInUse, hp]

end

/-! ## Every phase of the engine keeps the invariant -/

section
variable {s t : State}

theorem phaseFlushStale_keeps_inv (h : Inv s) (hp : s.phase = .flushStale) (hs : phaseFlushStale s = .next t) :
    Inv t := by
  have hop : s.phase ≠ .idle := by simp [hp]
  rcases phaseFlushStale_cases hs with ⟨b, q, _, rfl⟩ | ⟨m, w, _, _, _, ⟨_, rfl⟩ | ⟨_, rfl⟩⟩ | ⟨f, hu | hu, _⟩
  · exact (h.setRxq q).setMark
  · exact h.setPhase (by simp) (h.inOperation hop) (fun _ => h.request (.inl hp)) (by simp) (by simp)
  · exact h
  · exact absurd hu (h.tMark_ne_none hop)
  · exact absurd hu (h.frameTo_ne_none hop)

theorem phaseTransmit_keeps_inv (h : Inv s) (hp : s.phase = .transmit) (hs : phaseTransmit s = .next t) :
    Inv t := by
  have hop : s.phase ≠ .idle := by simp [hp]
  obtain ⟨g, hg⟩ := h.memRead_request hp
  rcases phaseTransmit_cases hs with ⟨f, _, hs⟩ | ⟨f, hf, _⟩
  · rw [sent_eq_transmitted] at hs
    rcases afterTransmit_cases hs with ⟨r, _, _, rfl⟩ | ⟨r, _, _, hs⟩ | ⟨hu, _⟩
    · have h' := ((h.transmitted f).setRxLen (Nat.zero_le _) (by simp [hp]) (by simp)).setMark
      exact h'.setPhase (by simp) (h'.inOperation hop) (by simp) (by simp) (by simp)
    · exact succeed_next hs ▸ (h.transmitted f).succeeded
    · exact absurd hu (h.req_ne_none hop)
  · simp [hg] at hf

theorem phaseRxWait_keeps_inv (h : Inv s) (hp : s.phase = .rxWait) (hs : phaseRxWait s = .next t) : Inv t := by
  have hop : s.phase ≠ .idle := by simp [hp]
  have hcap : 1 ≤ s.params.bufCap := le_trans (by decide) h.params
  rcases phaseRxWait_cases hs with ⟨b, q, _, _, rfl⟩ | ⟨b, q, f, _, h0, _⟩ | ⟨m, _, _, ⟨_, hs⟩ | ⟨_, rfl⟩⟩ |
    ⟨f, hu, _⟩
  · have hset : ∀ a, a < 1 → (Cells.read (Cells.writeList s.buf 0 [b]) a).isSome := fun a ha => by
      simp [Cells.writeList, Nat.lt_one_iff.1 ha]
    have h' := (((h.setRxq q).setBuf (v := [b]) hcap).setRxLen hcap (by simp [hp]) hset).setMark
    exact h'.setPhase (by simp) (h'.inOperation hop) (by simp) (fun _ => hset) (by simp)
  · omega
  · exact fail_next hs ▸ h.failed _
  · exact h
  · exact absurd hu (h.tMark_ne_none hop)

theorem phaseRxBytes_keeps_inv (h : Inv s) (hp : s.phase = .rxBytes) (hs : phaseRxBytes s = .next t) : Inv t := by
  have hop : s.phase ≠ .idle := by simp [hp]
  have hfull : Inv ((s.setMark s.now).setPhase .rxSilence) :=
    h.setMark.setPhase (by simp) (h.setMark.inOperation hop) (by simp) (fun _ => h.received (.inl hp)) (by simp)
  rcases phaseRxBytes_cases hs with ⟨_, rfl⟩ | ⟨b, q, hl, _, rfl⟩ | ⟨b, q, f, hl, _, _⟩ |
    ⟨m, w, _, _, _, _, ⟨_, rfl⟩ | ⟨_, rfl⟩⟩ | ⟨f, hu | hu, _⟩
  · exact hfull
  · have hset : ∀ a, a < s.rxLen + 1 → (Cells.read (Cells.writeList s.buf s.rxLen [b]) a).isSome := fun a ha => by
      rcases Nat.lt_succ_iff_lt_or_eq.1 ha with ha | rfl
      · exact isSome_read_writeList _ _ (h.received (.inl hp) a ha)
      · simp [Cells.writeList]
    exact (((h.setRxq q).setBuf (v := [b]) hl).setRxLen hl (by simp [hp]) hset).setMark
  · exact absurd h.rxLen (by omega)
  · exact hfull
  · exact h
  · exact absurd hu (h.tMark_ne_none hop)
  · exact absurd hu (h.charTo_ne_none hop)

theorem phaseRxSilence_keeps_inv (h : Inv s) (hp : s.phase = .rxSilence) (hs : phaseRxSilence s = .next t) :
    Inv t := by
  have hop : s.phase ≠ .idle := by simp [hp]
  rcases phaseRxSilence_cases hs with ⟨m, w, _, _, ⟨_, rfl⟩ | ⟨_, rfl⟩⟩ | ⟨f, hu | hu, _⟩
  · exact h.setPhase (by simp) (h.inOperation hop) (by simp) (fun _ => h.received (.inr (.inl hp))) (by simp)
  · exact h
  · exact absurd hu (h.tMark_ne_none hop)
  · exact absurd hu (h.frameTo_ne_none hop)

theorem phaseValidate_keeps_inv (h : Inv s) (hp : s.phase = .validate) (hs : phaseValidate s = .next t) :
    Inv t := by
  have hop : s.phase ≠ .idle := by simp [hp]
  rcases phaseValidate_cases hs with ⟨_, h3, _, rfl⟩ | ⟨k, _, _, hs⟩ | ⟨f, i, hi, hf, _⟩
  · exact h.setPhase (by simp) (h.inOperation hop) (by simp) (fun _ => h.received (.inr (.inr (.inl hp))))
      fun _ => h3
  · exact fail_next hs ▸ h.failed k
  · exact absurd hf (h.readByte_ne_error (.inl hp) hi)

/-- A function code's own checks: they end the operation, and cannot raise. -/
theorem finishResponse_keeps_inv (h : Inv s) (hp : s.phase = .parse) {r : ReqContext} (hr : s.req = some r)
    (hs : finishResponse r s = .next t) : Inv t := by
  obtain ⟨_, _, _, r', hr', ho⟩ := h.inOperation (by simp [hp])
  obtain rfl : r = r' := Option.some.inj (hr.symm.trans hr')
  rcases finishResponse_cases hs with ⟨u, hs, hu⟩ | ⟨k, _, _, hs⟩ | ⟨f, i, hi, hf, _⟩ | ⟨f, hnone, hfc, _⟩
  · rw [succeed_next hs]
    rcases hu with ⟨_, name, d, _, rfl⟩ | ⟨_, name, d, _, rfl⟩ | rfl
    · exact h.succeeded.setBits _ (bitBufInUse_of_idle rfl name)
    · exact h.succeeded.setWords _ (wordBufInUse_of_idle rfl name)
    · exact h.succeeded
  · exact fail_next hs ▸ h.failed k
  · exact absurd hf (h.readByte_ne_error (.inr hp) (hi (h.parsed hp)))
  · exact absurd hnone (out_ne_none_of_outputFits ho hfc)

theorem parse_keeps_inv (h : Inv s) (hp : s.phase = .parse) (hs : parse s = .next t) : Inv t := by
  have h3 := h.parsed hp
  have hbyte {i : Nat} {f : BlockFault} (hi : i < 3) : readByte s i ≠ .error f :=
    h.readByte_ne_error (.inr hp) (lt_of_lt_of_le hi h3)
  unfold parse at hs
  rcases orRaise_cases hs with ⟨r, hr, hs⟩ | ⟨f, hf, _⟩
  · rcases parseHeader_cases hs with ⟨_, hs⟩ | ⟨k, _, _, hs⟩ | ⟨c, _, _, _, hs⟩ | ⟨f, hf | hf | ⟨_, hf⟩, _⟩
    · exact finishResponse_keeps_inv h hp (readReq_ok hr) hs
    · exact fail_next hs ▸ h.failed k
    · exact fail_next hs ▸ (h.setExc c).failed _
    · exact absurd hf (hbyte (by decide))
    · exact absurd hf (hbyte (by decide))
    · exact absurd hf (hbyte (by decide))
  · exact absurd (readReq_error hf).1 (h.req_ne_none (by simp [hp]))

theorem engineStep_keeps_inv (h : Inv s) (hs : engineStep s = .next t) : Inv t := by
  unfold engineStep at hs
  split at hs <;> rename_i hp
  · cases hs; exact h
  · exact phaseFlushStale_keeps_inv h hp hs
  · exact phaseTransmit_keeps_inv h hp hs
  · exact phaseRxWait_keeps_inv h hp hs
  · exact phaseRxBytes_keeps_inv h hp hs
  · exact phaseRxSilence_keeps_inv h hp hs
  · exact phaseValidate_keeps_inv h hp hs
  · exact parse_keeps_inv h hp hs
  · exact absurd hp h.notPresenting.1
  · exact absurd hp h.notPresenting.2

/-! ## The operation port keeps the invariant -/

/-- A request that starts leaves its frame in `BUF[0..TX_LEN+1]` and enters FLUSH_STALE with every register set. -/
theorem Inv.started (h : Inv s) (hp : s.phase = .idle) {words : List Byte} {req : ReqContext}
    (ho : outputFits s req) (hc : s.charTo.isSome) (hf : s.frameTo.isSome)
    (hn : words.length + 2 ≤ s.params.bufCap) :
    Inv ((((((s.setBuf 0 words).setTxLen words.length).setReq req).setBuf words.length
      [lo (crc16 words), hi (crc16 words)]).setMark s.now).setPhase .flushStale) := by
  have h' := (((h.setBuf (a := 0) (v := words) (by omega)).setTxLen hp hn).setReq hp req).setBuf
    (a := words.length) (v := [lo (crc16 words), hi (crc16 words)]) hn
  refine h'.setMark.setPhase (by simp)
    ⟨by simpa using hc, by simpa using hf, by simp, req, by simp, outputFits_of_reads ho (by simp) (by simp)⟩
    (fun _ a ha => ?_) (by simp) (by simp)
  have ha : a < words.length + 2 := ha
  show (Cells.read (Cells.writeList (Cells.writeList s.buf 0 words) words.length
    [lo (crc16 words), hi (crc16 words)]) a).isSome
  rw [read_withCrc, if_pos ha, List.getElem?_eq_getElem (by simpa using ha)]
  rfl

theorem PortMove.keeps_inv {i : Instr} (hm : PortMove i s t) (h : Inv s) : Inv t := by
  cases hm with
  | reentered => exact h.setFault rfl
  | configured baud fmt _ hp => exact (h.setTimeouts hp _).succeeded
  | respToSet w => exact (h.setRespTo w).succeeded
  | excRead => exact (h.setResult _).setPhase_idle
  | rejected => exact h.failed _
  | tooShort => exact h.setFault rfl
  | started words req c f hp _ ho hc hf hn => exact h.started hp ho (by simp [hc]) (by simp [hf]) hn
  | unset words req hp hl =>
    have hcap : words.length + 2 ≤ s.params.bufCap := le_trans (by omega) h.params
    exact (((h.setBuf (by omega)).setTxLen hp hcap).setReq hp req).setFault rfl
  | overrun words v req f u _ hl hn =>
    have hcap := h.params
    omega

/-! ## Every step keeps the invariant -/

theorem step_keeps_inv (h : Inv s) (hs : step s = .next t) : Inv t := by
  rcases step_cases hs with ⟨_, rfl⟩ | ⟨b, es, _, rfl⟩ | ⟨n, es, f, _, _, rfl⟩ | ⟨n, es, _, _, hs⟩ |
    ⟨n, r, es, i, _, hi, hs⟩ | ⟨name, v, es, _, hu, rfl⟩ | ⟨name, v, es, _, hu, rfl⟩ | ⟨es, _, rfl⟩
  · exact h
  · exact (h.setSchedule es).setRxq _
  · exact (h.setSchedule es).setNow n
  · exact engineStep_keeps_inv ((h.setSchedule es).setNow n) hs
  · exact (exec_atPort_move (fetch_atPort hi) hs).2.keeps_inv ((h.setSchedule es).setNow n)
  · exact (h.setSchedule es).setBits v hu
  · exact (h.setSchedule es).setWords v hu
  · exact (h.setSchedule es).resetBlock

end

/-- Settles O46: each draw's move keeps the invariant, and no phase meets a register or byte it finds unset. -/
theorem everyStepKeepsTheInvariant : Obligations.EveryStepKeepsTheInvariant :=
  fun _ _ h hs => step_keeps_inv h hs

end Sys2Proof.Machine
end

section
/-! SUPPORT. The operation port: which operation a step runs, `Reentry`, and that issuing an operation does no I/O
(O7, O20, O29). -/

namespace Sys2Proof.Machine

/-- A step at an `issue` draw of a running block runs the operation that the port fetches. -/
theorem step_issue_of_fetch {s : State} {n : Nat} {req : PortRequest} {es : List Event} {i : Instr}
    (h : s.schedule = .issue n req :: es) (hf : s.fault = none) (hi : fetch req = .ok i) :
    step s = exec i (s.drawn n es) := by
  simp only [step, h, portIssue, State.setNow_fault, State.setSchedule_fault, hf, hi]
  rfl

theorem fetch_byName {i : Instr} (hi : i.op.atPort = true) : fetch (.byName i) = .ok i := if_pos hi

theorem fetch_byWords {out : Option BufName} {bytes rest : List Byte} {i : Instr}
    (hd : decode out bytes = .ok (i, rest)) (hi : i.op.atPort = true) : fetch (.byWords out bytes) = .ok i := by
  simp only [fetch, hd, hi, if_true]

/-- Settles O7: the port fetches the operation named, or the one that the words spell. -/
theorem stepRunsTheOperationIssued : Obligations.StepRunsTheOperationIssued :=
  ⟨fun _ _ _ _ hf hs hi => step_issue_of_fetch hs hf (fetch_byName hi),
    fun _ _ _ _ _ _ _ hf hs hd hi => step_issue_of_fetch hs hf (fetch_byWords hd hi)⟩

/-- Each of the eleven operations of R40 goes through the port's guard under its own name. -/
theorem exec_eq_hostOp {i : Instr} (hi : i.op.atPort = true) (s : State) : ∃ k, exec i s = hostOp i.op s k := by
  cases i with
  | readCoils | readDiscreteInputs | readHoldingRegisters | readInputRegisters | writeSingleCoil
  | writeSingleRegister | writeMultipleCoils | writeMultipleRegisters | configure | setResponseTimeout
  | getExceptionCode => exact ⟨_, rfl⟩
  | exceptionResponse | crc16 | crcUpdate | crcEncode | crcValidate | timingCalc | transact => cases hi

/-- The port's guard while an operation is in progress (R40). -/
theorem hostOp_of_busy {op : OpName} {s : State} {k : Out} (hp : s.phase ≠ .idle) (hf : s.fault = none) :
    hostOp op s k = raise s (.reentry op) := by
  rw [hostOp, unlessStopped_of_running hf, if_neg hp]

/-- Settles O20: all eleven operations are refused by the port's guard. -/
theorem operationInProgressRaisesReentry : Obligations.OperationInProgressRaisesReentry := by
  intro s i hi hf hp
  obtain ⟨k, hk⟩ := exec_eq_hostOp hi s
  rw [hk, hostOp_of_busy hp hf]
  rfl

/-- Settles O29: none of the moves an operation can make at the port touches the Link's, the Clock's or the Host's
state. -/
theorem issuingDoesNoIO : Obligations.IssuingDoesNoIO := by
  intro s t i hi h
  cases (exec_atPort_move hi h).2 with
  | overrun _ _ _ _ u _ _ _ hu => obtain rfl | rfl := hu <;> simp
  | reentered | configured | respToSet | excRead | rejected | tooShort | started | unset => simp

end Sys2Proof.Machine
end

section
/-! SUPPORT. What a step does to the fields that only some moves write: `FAULT`, `DE` and the trace of the port,
`RXQ`, the host's buffers, and the three windows (O44, O50, O52, O53, O54). -/

namespace Sys2Proof.Machine

/-! ## A stopped block -/

/-- Every step of a stopped block, by the draw it takes (R205). -/
theorem step_of_fault_cases {s t : State} {f : BlockFault} (hf : s.fault = some f) (h : step s = .next t) :
    (s.schedule = [] ∧ t = s) ∨
    (∃ b es, s.schedule = .deliver b :: es ∧ t = linkDeliver b (s.setSchedule es)) ∨
    (∃ n es, (s.schedule = .tick n :: es ∨ ∃ r, s.schedule = .issue n r :: es) ∧
      t = (s.setSchedule es).setNow n) ∨
    (∃ name v es, s.schedule = .hostBits name v :: es ∧ t = (s.setSchedule es).setBits name v) ∨
    (∃ name v es, s.schedule = .hostWords name v :: es ∧ t = (s.setSchedule es).setWords name v) ∨
    (∃ es, s.schedule = .reset :: es ∧ t = resetBlock (s.setSchedule es)) := by
  rcases step_cases h with h | h | ⟨n, es, _, hs, _, ht⟩ | ⟨n, es, _, hn, _⟩ | ⟨n, r, es, i, _, hi, h⟩ |
    ⟨name, v, es, hs, _, ht⟩ | ⟨name, v, es, hs, _, ht⟩ | h
  · exact .inl h
  · exact .inr (.inl h)
  · exact .inr (.inr (.inl ⟨n, es, hs, ht⟩))
  · simp [hf] at hn
  · have hn := (exec_atPort_move (fetch_atPort hi) h).1
    simp [hf] at hn
  · exact .inr (.inr (.inr (.inl ⟨name, v, es, hs, ht⟩)))
  · exact .inr (.inr (.inr (.inr (.inl ⟨name, v, es, hs, ht⟩))))
  · exact .inr (.inr (.inr (.inr (.inr h))))

/-- After reset the Host is presented with no result (R231). -/
theorem resetBlock_presented (s : State) : (resetBlock s).presented = none := by
  simp [State.presented, State.final, Result.complete]

/-- A step that does not draw reset keeps the fault and takes at most the next draw. -/
theorem step_keeps_fault {s t : State} {f : BlockFault} (hf : s.fault = some f) (hr : ∀ es, s.schedule ≠ .reset :: es)
    (h : step s = .next t) : t.fault = some f ∧ t.schedule = s.schedule.tail := by
  rcases step_of_fault_cases hf h with ⟨hs, rfl⟩ | ⟨b, es, hs, rfl⟩ | ⟨n, es, hs | ⟨r, hs⟩, rfl⟩ |
    ⟨name, v, es, hs, rfl⟩ | ⟨name, v, es, hs, rfl⟩ | ⟨es, hs, _⟩
  · simp [hf, hs]
  · simp [hf, hs]
  · simp [hf, hs]
  · simp [hf, hs]
  · simp [hf, hs]
  · simp [hf, hs]
  · exact absurd hs (hr es)

/-- However many steps follow, a fault stays as long as no reset is drawn. -/
theorem steps_keep_fault {k : Nat} {s t : State} {f : BlockFault} (hf : s.fault = some f)
    (hr : Event.reset ∉ s.schedule.take k) (h : steps k s = .next t) : t.fault = some f := by
  induction k generalizing s with
  | zero => cases h; exact hf
  | succ k ih =>
    simp only [steps] at h
    split at h
    · rename_i u hu
      have hhead : ∀ es, s.schedule ≠ .reset :: es := fun es hs => by simp [hs] at hr
      obtain ⟨hfu, hsu⟩ := step_keeps_fault hf hhead hu
      refine ih hfu (fun hmem => hr ?_) h
      rw [hsu] at hmem
      cases hs : s.schedule with
      | nil => simp [hs] at hmem
      | cons e es => simp_all
    · cases h
    · cases h

/-- Settles O44: by the draw taken for one step, and by induction on the steps for a run. -/
theorem faultStopsTheBlockUntilReset : Obligations.FaultStopsTheBlockUntilReset := by
  refine ⟨fun s t f hf h => ?_, fun k s t f hf hr h => ?_⟩
  · rcases step_of_fault_cases hf h with h | h | h | h | h | ⟨es, hs, rfl⟩
    · exact .inl h
    · exact .inr (.inl h)
    · exact .inr (.inr (.inl h))
    · exact .inr (.inr (.inr (.inl h)))
    · exact .inr (.inr (.inr (.inr (.inl h))))
    · exact .inr (.inr (.inr (.inr (.inr ⟨es, hs, rfl, resetBlock_presented _⟩))))
  · have ht := steps_keep_fault hf hr h
    exact ⟨ht, presented_of_fault ht⟩

/-! ## `DE` and the trace of the port -/

/-- An engine step that meets the invariant leaves the trace of the port alone, or is TRANSMIT's (R123, R235). -/
theorem engineStep_portTrace {s t : State} (h : Inv s) (hs : engineStep s = .next t) :
    t.portTrace = s.portTrace ∨
    (s.phase = .transmit ∧ ∃ f, t.txlog = s.txlog ++ [f] ∧
      t.portTrace = (s.transmitted f).portTrace) := by
  cases engineStep_move hs with
  | raisedSending f hp hm =>
    obtain ⟨d, hd⟩ := h.memRead_request hp
    simp [hd] at hm
  | sentRequest f hp | sentBroadcast f hp | sentUnset f hp => exact .inr ⟨hp, f, rfl, rfl⟩
  | stay | raised | raisedReading | discarded | flushed | firstByte | nextByte | received | silent | validated
  | failed | captured | wrote | readBits | readRegisters | presented => exact .inl (by simp)

/-- Settles O50: the invariant keeps `DE` false, and rules out a TRANSMIT that raises between the two `DE.set`. -/
theorem deIsTrueOnlyAroundTheWrite : Obligations.DeIsTrueOnlyAroundTheWrite := by
  intro s t h hs
  refine ⟨(step_keeps_inv h hs).de, ?_⟩
  rcases step_cases hs with ⟨_, rfl⟩ | ⟨b, es, _, rfl⟩ | ⟨n, es, f, _, _, rfl⟩ | ⟨n, es, _, _, hs⟩ |
    ⟨n, r, es, i, _, hi, hs⟩ | ⟨name, v, es, _, _, rfl⟩ | ⟨name, v, es, _, _, rfl⟩ | ⟨es, hd, rfl⟩
  · exact .inl rfl
  · exact .inl rfl
  · exact .inl rfl
  · exact (engineStep_portTrace ((h.setSchedule es).setNow n) hs).imp_right .inl
  · obtain ⟨_, _, _, _, ht, _⟩ := issuingDoesNoIO _ _ i (fetch_atPort hi) hs
    exact .inl ht
  · exact .inl rfl
  · exact .inl rfl
  · by_cases hde : s.params.hasDE = true
    · exact .inr (.inr ⟨⟨es, hd⟩, hde, by simp [hde]⟩)
    · exact .inl (by simp [hde])

/-! ## `RXQ` -/

/-- An engine step leaves `RXQ` alone or takes its head, in one of three phases (R127). -/
theorem engineStep_rxq {s t : State} (hs : engineStep s = .next t) :
    t.rxq = s.rxq ∨
    ((s.phase = .flushStale ∨ s.phase = .rxWait ∨ s.phase = .rxBytes) ∧ ∃ b, s.rxq = b :: t.rxq) := by
  cases engineStep_move hs with
  | raisedReading b q f hp hq => exact .inr ⟨.inr hp, b, hq⟩
  | discarded b q hp hq => exact .inr ⟨.inl hp, b, hq⟩
  | firstByte b q hp hq => exact .inr ⟨.inr (.inl hp), b, hq⟩
  | nextByte b q hp hq => exact .inr ⟨.inr (.inr hp), b, hq⟩
  | stay | raised | raisedSending | flushed | sentRequest | sentBroadcast | sentUnset | received | silent
  | validated | failed | captured | wrote | readBits | readRegisters | presented => exact .inl (by simp)

/-- Settles O52: arrivals append, three phases take the head, and nothing else touches the queue. -/
theorem rxqIsAQueue : Obligations.RxqIsAQueue := by
  intro s t hs
  rcases step_cases hs with ⟨_, rfl⟩ | ⟨b, es, hd, rfl⟩ | ⟨n, es, f, _, _, rfl⟩ | ⟨n, es, hd, hf, hs⟩ |
    ⟨n, r, es, i, _, hi, hs⟩ | ⟨name, v, es, _, _, rfl⟩ | ⟨name, v, es, _, _, rfl⟩ | ⟨es, _, rfl⟩
  · exact .inl rfl
  · exact .inr (.inr ⟨b, es, hd, rfl⟩)
  · exact .inl rfl
  · rcases engineStep_rxq hs with ht | ⟨hp, hb⟩
    · exact .inl ht
    · exact .inr (.inl ⟨hf, hp, ⟨n, es, hd⟩, hb⟩)
  · obtain ⟨_, ht, _⟩ := issuingDoesNoIO _ _ i (fetch_atPort hi) hs
    exact .inl ht
  · exact .inl rfl
  · exact .inl rfl
  · exact .inl rfl

/-! ## The host's buffers -/

/-- An operation that succeeds in a block that is not stopped presents its success. -/
theorem succeeded_presented {s : State} (hf : s.fault = none) :
    s.succeeded.presented = some { ok := true, err := .none, byte := none } :=
  presented_eq_some.2 ⟨rfl, hf, rfl, rfl⟩

/-- An engine step leaves the host's buffers alone, or ends a read and writes the one buffer it names (R150). -/
theorem engineStep_hostBuffers {s t : State} (hs : engineStep s = .next t) (hf : s.fault = none) :
    (t.bitBufs = s.bitBufs ∧ t.wordBufs = s.wordBufs) ∨
    (s.phase = .parse ∧ t.presented = some { ok := true, err := .none, byte := none } ∧
      ∃ r name, s.req = some r ∧ r.out = some name ∧
        ∀ other, other ≠ name → Cells.read t.bitBufs other = Cells.read s.bitBufs other ∧
          Cells.read t.wordBufs other = Cells.read s.wordBufs other) := by
  cases engineStep_move hs with
  | readBits r name v hp hr ho =>
    exact .inr ⟨hp, succeeded_presented hf, r, name, hr, ho,
      fun _ hne => ⟨Cells.read_write_other _ v hne, rfl⟩⟩
  | readRegisters r name v hp hr ho =>
    exact .inr ⟨hp, succeeded_presented hf, r, name, hr, ho,
      fun _ hne => ⟨rfl, Cells.read_write_other _ v hne⟩⟩
  | stay | raised | raisedReading | raisedSending | discarded | flushed | sentRequest | sentBroadcast | sentUnset
  | firstByte | nextByte | received | silent | validated | failed | captured | wrote | presented =>
    exact .inl (by simp)

/-- Settles O53: the block writes a buffer only where a read succeeds; the host's two draws are its own. -/
theorem hostBuffersChangeOnlyOnSuccess : Obligations.HostBuffersChangeOnlyOnSuccess := by
  intro s t hs
  rcases step_cases hs with ⟨_, rfl⟩ | ⟨b, es, _, rfl⟩ | ⟨n, es, f, _, _, rfl⟩ | ⟨n, es, _, hf, hs⟩ |
    ⟨n, r, es, i, _, hi, hs⟩ | ⟨name, v, es, hd, _, rfl⟩ | ⟨name, v, es, hd, _, rfl⟩ | ⟨es, _, rfl⟩
  · exact .inl ⟨rfl, rfl⟩
  · exact .inl ⟨rfl, rfl⟩
  · exact .inl ⟨rfl, rfl⟩
  · exact (engineStep_hostBuffers hs hf).imp_right fun ht => .inl ⟨hf, ht⟩
  · obtain ⟨_, _, _, _, _, _, hb, hw, _⟩ := issuingDoesNoIO _ _ i (fetch_atPort hi) hs
    exact .inl ⟨hb, hw⟩
  · exact .inr (.inr (.inl ⟨name, v, es, hd, rfl, rfl⟩))
  · exact .inr (.inr (.inr ⟨name, v, es, hd, rfl, rfl⟩))
  · exact .inl ⟨rfl, rfl⟩

/-! ## The three windows -/

/-- No engine step writes a window. -/
theorem engineStep_windows {s t : State} (hs : engineStep s = .next t) :
    t.charTo = s.charTo ∧ t.frameTo = s.frameTo ∧ t.respTo = s.respTo := by
  cases engineStep_move hs <;> simp

/-- At the port only CONFIGURE writes the timeouts, and only SET_RESPONSE_TIMEOUT writes `RESP_TO`. -/
theorem PortMove.windows {i : Instr} {s t : State} (h : PortMove i s t) :
    ((t.charTo = s.charTo ∧ t.frameTo = s.frameTo) ∨
      (s.phase = .idle ∧ ∃ baud fmt, i = .configure baud fmt ∧
        t.charTo = (timingCalc s.params.bitsTable baud fmt).map Prod.fst ∧
        t.frameTo = (timingCalc s.params.bitsTable baud fmt).map Prod.snd)) ∧
    (t.respTo = s.respTo ∨ (s.phase = .idle ∧ ∃ w, i = .setResponseTimeout w ∧ t.respTo = w)) := by
  cases h with
  | configured baud fmt hi hp => exact ⟨.inr ⟨hp, baud, fmt, hi, rfl, rfl⟩, .inl rfl⟩
  | respToSet w hi hp => exact ⟨.inl ⟨rfl, rfl⟩, .inr ⟨hp, w, hi, rfl⟩⟩
  | overrun _ _ _ _ u _ _ _ hu => obtain rfl | rfl := hu <;> simp
  | reentered | excRead | rejected | tooShort | started | unset => simp

/-- Settles O54: reset, and the two operations of the port that write a window. -/
theorem timeoutsChangeOnlyByTheirOperations : Obligations.TimeoutsChangeOnlyByTheirOperations := by
  intro s t hs
  rcases step_cases hs with ⟨_, rfl⟩ | ⟨b, es, _, rfl⟩ | ⟨n, es, f, _, _, rfl⟩ | ⟨n, es, _, _, hs⟩ |
    ⟨n, r, es, i, hd, hi, hs⟩ | ⟨name, v, es, _, _, rfl⟩ | ⟨name, v, es, _, _, rfl⟩ | ⟨es, hd, rfl⟩
  · exact .inr ⟨.inl ⟨rfl, rfl⟩, .inl rfl⟩
  · exact .inr ⟨.inl ⟨rfl, rfl⟩, .inl rfl⟩
  · exact .inr ⟨.inl ⟨rfl, rfl⟩, .inl rfl⟩
  · obtain ⟨hc, hfr, hr⟩ := engineStep_windows hs
    exact .inr ⟨.inl ⟨hc, hfr⟩, .inl hr⟩
  · obtain ⟨hf, hm⟩ := exec_atPort_move (fetch_atPort hi) hs
    obtain ⟨hto, hresp⟩ := hm.windows
    refine .inr ⟨hto.imp_right ?_, hresp.imp_right ?_⟩
    · rintro ⟨hp, baud, fmt, rfl, hc, hfr⟩
      exact ⟨hp, hf, n, r, es, baud, fmt, hd, hi, hc, hfr⟩
    · rintro ⟨hp, w, rfl, hw⟩
      exact ⟨hp, hf, n, r, es, w, hd, hi, hw⟩
  · exact .inr ⟨.inl ⟨rfl, rfl⟩, .inl rfl⟩
  · exact .inr ⟨.inl ⟨rfl, rfl⟩, .inl rfl⟩
  · exact .inl ⟨es, hd, rfl, rfl, rfl⟩

end Sys2Proof.Machine
end

section
/-! SUPPORT. Unpacking inverts packing, bit by bit and register by register (O6), and a present data buffer that is
shorter than the quantity raises `BufferTooShort` (O26). -/

namespace Sys2Proof.Machine

/-! ## Packed fields -/

/-- Bit `i` of a packed field, at every index: item `i` below the quantity, 0 from there on (R57, R175). -/
theorem packBits_bit (data : List Bool) (qty i : Nat) :
    ((packBits data qty).getD (i / 8) 0#8).getLsbD (i % 8) = (decide (i < qty) && data.getD i false) := by
  rw [List.getD_eq_getElem?_getD]
  by_cases hj : i / 8 < (qty + 7) / 8
  · rw [packBits_getElem? data qty _ hj, Option.getD_some, packByte_getLsbD _ (Nat.mod_lt i (by decide)),
      Nat.div_add_mod]
  · have hbeyond : (packBits data qty).length ≤ i / 8 := by rw [packBits_length]; omega
    have hpad : ¬ i < qty := by omega
    simp [List.getElem?_eq_none hbeyond, hpad]

/-- UNPACK(bit) of PACK_COILS gives the first `qty` items back (R156, R175). -/
theorem unpackBits_packBits {data : List Bool} {qty : Nat} (h : qty ≤ data.length) :
    unpackBits (packBits data qty) qty = data.take qty := by
  refine List.ext_getElem (by simp [h]) fun i hi _ => ?_
  have hq : i < qty := by simpa using hi
  have hd : i < data.length := by omega
  refine Option.some.inj ?_
  rw [← List.getElem?_eq_getElem, unpackBits_getElem? _ _ _ hq, packBits_bit]
  simp [hq, hd]

/-- UNPACK(register) of PACK_REGS gives the first `qty` registers back (R157, R176). -/
theorem unpackRegs_packRegs {data : List Word16} {qty : Nat} (h : qty ≤ data.length) :
    unpackRegs (packRegs data qty) qty = data.take qty := by
  refine List.ext_getElem (by simp [h]) fun k hk _ => ?_
  have hq : k < qty := by simpa using hk
  have hd : k < data.length := by omega
  obtain ⟨hhigh, hlow⟩ := packRegs_getElem? data qty k h hq
  refine Option.some.inj ?_
  rw [← List.getElem?_eq_getElem, unpackRegs_getElem? _ _ _ hq]
  simp [hhigh, hlow, hd]

/-- Settles O6: both inversions, and the padding bits from the value of every bit of a packed field. -/
theorem unpackInvertsPack : Obligations.UnpackInvertsPack :=
  ⟨fun _ _ h => unpackBits_packBits h,
    fun l qty i hi _ => by rw [packBits_bit, decide_eq_false (Nat.not_lt.2 hi), Bool.false_and],
    fun _ _ h => unpackRegs_packRegs h⟩

/-! ## A data buffer shorter than the quantity -/

/-- A read whose id and quantity are in range, with a present buffer shorter than the quantity (R150, R52). -/
theorem readRequest_of_short {fc : FuncCode} {len : Option Nat} {id : Byte} {qty : Word16} {n : Nat}
    (hid : ¬ (id.toNat = 0 ∨ 247 < id.toNat)) (hqty : ¬ (qty.toNat = 0 ∨ qtyMax fc < qty.toNat))
    (hlen : len = some n) (hshort : n < qty.toNat) (addr : Word16) (out : Option BufName) (s : State) :
    readRequest fc len id addr out qty s = raise s (.bufferTooShort qty.toNat n) := by
  subst hlen
  rw [readRequest, if_neg hid, if_neg hqty]
  exact if_pos hshort

/-- A multiple write whose id and quantity are in range, with present data shorter than the quantity (R170, R52). -/
theorem writeMultiple_of_short {α : Type} {fc : FuncCode} {id : Byte} {data : Option (List α)} {qty : Word16} {n : Nat}
    (hid : ¬ 247 < id.toNat) (hqty : ¬ (qty.toNat = 0 ∨ qtyMax fc < qty.toNat))
    (hlen : data.map List.length = some n) (hshort : n < qty.toNat) (unit : DataUnit)
    (pack : List α → Nat → List Byte) (addr : Word16) (s : State) :
    writeMultiple fc unit pack id addr data qty s = raise s (.bufferTooShort qty.toNat n) := by
  obtain ⟨l, rfl, rfl⟩ := Option.map_eq_some_iff.1 hlen
  rw [writeMultiple, if_neg hid, if_neg hqty]
  exact if_pos hshort

/-- Settles O26: the four reads through one lemma of their template, the two multiple writes through one of theirs. -/
theorem shortBufferRaisesBufferTooShort : Obligations.ShortBufferRaisesBufferTooShort := by
  intro s i qty length ha hgood hshort
  have hport : ∀ op k, hostOp op s k = k := fun _ _ => hostOp_of_accepts ha.idle ha.noFault
  cases i with
  | readCoils id addr out q | readDiscreteInputs id addr out q | readHoldingRegisters id addr out q
  | readInputRegisters id addr out q =>
    obtain ⟨rfl, hlen, hlt⟩ := hshort
    simp only [BadArgument, not_or] at hgood
    obtain ⟨hid0, hid, hq0, hq, -⟩ := hgood
    refine (hport _ _).trans (readRequest_of_short (not_or.2 ⟨hid0, hid⟩) ?_ hlen hlt addr out s)
    exact not_or.2 ⟨hq0, hq⟩
  | writeMultipleCoils id addr data q | writeMultipleRegisters id addr data q =>
    obtain ⟨rfl, hlen, hlt⟩ := hshort
    simp only [BadArgument, not_or] at hgood
    obtain ⟨hid, hq0, hq, -⟩ := hgood
    refine (hport _ _).trans (writeMultiple_of_short hid ?_ hlen hlt _ _ addr s)
    exact not_or.2 ⟨hq0, hq⟩
  | writeSingleCoil | writeSingleRegister | exceptionResponse | configure | setResponseTimeout | getExceptionCode
  | crc16 | crcUpdate | crcEncode | crcValidate | timingCalc | transact => exact hshort.elim

end Sys2Proof.Machine
end

section
/-! SUPPORT. The decoder and the encoder: what each does with the layouts of R76 to R80 and R85, said once, and from
these rules that they invert each other on words and on frames, and the bound on a frame's length (O1 to O5). -/

namespace Sys2Proof.Machine

/-! ## Packed data -/

/-- Only the first `qty` items are packed (R175). -/
theorem packBits_take (l : List Bool) (qty : Nat) : packBits (l.take qty) qty = packBits l qty := by
  refine List.map_congr_left fun j _ => congrArg packByte (funext fun k => ?_)
  by_cases hk : 8 * j + k < qty <;> simp [hk]

theorem unpackRegs_cons_cons (a b : Byte) (d : List Byte) (qty : Nat) :
    unpackRegs (a :: b :: d) (qty + 1) = join a b :: unpackRegs d qty := by
  simp [unpackRegs, List.range_succ_eq_map, Nat.mul_add]

/-- PACK_REGS of UNPACK(register) gives the data bytes back (R157, R176). -/
theorem packRegs_unpackRegs {d : List Byte} {qty : Nat} (hd : d.length = 2 * qty) :
    packRegs (unpackRegs d qty) qty = d := by
  induction qty generalizing d with
  | zero => rw [packRegs_zero, List.eq_nil_of_length_eq_zero hd]
  | succ n ih =>
    match d, hd with
    | [], hd | [_], hd => simp only [List.length_cons, List.length_nil] at hd; omega
    | a :: b :: d, hd =>
      have hlen : d.length = 2 * n := by simp only [List.length_cons] at hd; omega
      rw [unpackRegs_cons_cons, packRegs_cons, hi_join, lo_join, ih hlen]

/-! ## The decoder on each layout -/

/-- The six bytes that begin a request are read back as its fields (R76 to R80). -/
theorem decode_header (out : Option BufName) (id : Byte) (fc : FuncCode) (addr v : Word16) (r : List Byte) :
    decode out (header id fc addr v ++ r) = decodeFields out id fc addr v r := by
  simp [decode, header]

theorem decode_exceptionResponse (out : Option BufName) (id : Byte) (fc : BitVec 7) (code : Byte) (r : List Byte) :
    decode out (id :: exceptionFcOf fc :: code :: r) = .ok (.exceptionResponse id fc code, r) := by
  simp [decode]

/-- Bytes that decode are an exception response (R85), or a header with the fields its function code asks for. -/
theorem decode_cases {out : Option BufName} {bytes rest : List Byte} {i : Instr}
    (h : decode out bytes = .ok (i, rest)) :
    (∃ id fc code, i = .exceptionResponse id fc code ∧ bytes = id :: exceptionFcOf fc :: code :: rest) ∨
    (∃ id fc addr v r, bytes = header id fc addr v ++ r ∧ decodeFields out id fc addr v r = .ok (i, rest)) := by
  unfold decode at h
  split at h
  · rename_i id b r
    split at h
    · rename_i hb
      split at h
      · rename_i code r
        cases h
        exact .inl ⟨id, b.setWidth 7, code, rfl, by rw [exceptionFcOf_of_msb hb]⟩
      · cases h
    · split at h
      · cases h
      · rename_i fc hfc
        split at h
        · rename_i a1 a0 v1 v0 r
          refine .inr ⟨id, fc, _, _, r, ?_, h⟩
          simp [header, fcByte_of_fcOfByte hfc]
        · cases h
  · cases h

/-- The data part of a multiple write whose byte count fits a byte (R79, R80). -/
theorem decodeData_append {unit : DataUnit} {qty : Word16} {d : List Byte} (hd : d.length = byteCount unit qty.toNat)
    (hfit : byteCount unit qty.toNat < 256) (r : List Byte) :
    decodeData unit qty (BitVec.ofNat 8 (byteCount unit qty.toNat) :: (d ++ r)) = .ok (d, r) := by
  have hbc : (BitVec.ofNat 8 (byteCount unit qty.toNat)).toNat = d.length := by
    rw [BitVec.toNat_ofNat, Nat.mod_eq_of_lt hfit, hd]
  simp [decodeData, hbc, hd]

/-- The data part read is the byte count of the quantity and that many bytes. -/
theorem decodeData_ok {unit : DataUnit} {qty : Word16} {r d rest : List Byte}
    (h : decodeData unit qty r = .ok (d, rest)) :
    d.length = byteCount unit qty.toNat ∧ r = BitVec.ofNat 8 (byteCount unit qty.toNat) :: (d ++ rest) := by
  unfold decodeData at h
  split at h
  · cases h
  · rename_i bc r
    split at h
    · cases h
    · rename_i hbc
      split at h
      · cases h
      · rename_i hlen
        cases h
        rw [Decidable.not_not] at hbc
        refine ⟨by simp; omega, ?_⟩
        rw [List.take_append_drop, ← hbc, BitVec.ofNat_toNat, BitVec.setWidth_eq]

theorem decodeFields_writeSingleCoil (out : Option BufName) (id : Byte) (addr : Word16) (value : Bool)
    (r : List Byte) :
    decodeFields out id .writeSingleCoil addr (coilValue value) r = .ok (.writeSingleCoil id addr value, r) := by
  cases value <;> rfl

/-- Packed coils decode to the coils packed (R79, R175). -/
theorem decodeFields_writeMultipleCoils {qty : Word16} {l : List Bool} (hq : qty.toNat ≤ 1968)
    (hl : qty.toNat ≤ l.length) (out : Option BufName) (id : Byte) (addr : Word16) (r : List Byte) :
    decodeFields out id .writeMultipleCoils addr qty
      (BitVec.ofNat 8 (byteCount .bit qty.toNat) :: (packBits l qty.toNat ++ r)) =
      .ok (.writeMultipleCoils id addr (some (l.take qty.toNat)) qty, r) := by
  have hfit := byteCount_bit_le (le_trans hq (by decide))
  have hdata := decodeData_append (unit := .bit) (packBits_length l qty.toNat) (by omega) r
  simp only [decodeFields, hdata, unpackBits_packBits hl, packBits_take, if_true]

/-- Packed registers decode to the registers packed (R80, R176). -/
theorem decodeFields_writeMultipleRegisters {qty : Word16} {l : List Word16} (hq : qty.toNat ≤ 123)
    (hl : qty.toNat ≤ l.length) (out : Option BufName) (id : Byte) (addr : Word16) (r : List Byte) :
    decodeFields out id .writeMultipleRegisters addr qty
      (BitVec.ofNat 8 (byteCount .register qty.toNat) :: (packRegs l qty.toNat ++ r)) =
      .ok (.writeMultipleRegisters id addr (some (l.take qty.toNat)) qty, r) := by
  have hfit := byteCount_register_le (le_trans hq (by decide))
  have hdata := decodeData_append (unit := .register) (packRegs_length l qty.toNat hl) (by omega) r
  simp only [decodeFields, hdata, unpackRegs_packRegs hl]

/-! ## Decoding and encoding invert each other -/

/-- A well-formed multiple write has its quantity in range and data of at least that many elements (R52, R73). -/
theorem exists_data_of_wf {α : Type} {id : Byte} {fc : FuncCode} {qty : Word16} {data : Option (List α)}
    (h : (writeId id && qtyInRange fc qty && holds data qty) = true) :
    ∃ l, data = some l ∧ qty.toNat ≤ qtyMax fc ∧ qty.toNat ≤ l.length := by
  simp only [Bool.and_eq_true, qtyInRange, decide_eq_true_eq] at h
  obtain ⟨⟨_, _, hq⟩, hl⟩ := h
  cases data with
  | none => cases hl
  | some l => exact ⟨l, rfl, hq, of_decide_eq_true hl⟩

/-- The code-5 value field as the header has it (R77, R86). -/
theorem encode_writeSingleCoil (id : Byte) (addr : Word16) (value : Bool) :
    encode (.writeSingleCoil id addr value) = some (header id .writeSingleCoil addr (coilValue value)) := by
  cases value <;> rfl

/-- Settles O1: the decoder evaluates on each of the ten lists of bytes. -/
theorem decodesTheSpecsWords : Obligations.DecodesTheSpecsWords :=
  ⟨rfl, rfl, rfl, rfl, rfl, rfl, rfl, rfl, rfl, rfl⟩

/-- Settles O2: each layout is a header, and what its function code asks for after it. -/
theorem decodeInvertsEncode : Obligations.DecodeInvertsEncode := by
  intro i words rest hwf henc
  cases i with
  | readCoils id addr out qty => cases henc; exact decode_header out id .readCoils addr qty rest
  | readDiscreteInputs id addr out qty => cases henc; exact decode_header out id .readDiscreteInputs addr qty rest
  | readHoldingRegisters id addr out qty =>
    cases henc; exact decode_header out id .readHoldingRegisters addr qty rest
  | readInputRegisters id addr out qty => cases henc; exact decode_header out id .readInputRegisters addr qty rest
  | writeSingleCoil id addr value =>
    rw [encode_writeSingleCoil] at henc
    cases henc
    exact (decode_header ..).trans (decodeFields_writeSingleCoil ..)
  | writeSingleRegister id addr value =>
    cases henc; exact decode_header none id .writeSingleRegister addr value rest
  | writeMultipleCoils id addr data qty =>
    obtain ⟨l, rfl, hq, hl⟩ := exists_data_of_wf (fc := .writeMultipleCoils) hwf
    cases henc
    exact (decode_header none id .writeMultipleCoils addr qty _).trans
      (decodeFields_writeMultipleCoils hq hl none id addr rest)
  | writeMultipleRegisters id addr data qty =>
    obtain ⟨l, rfl, hq, hl⟩ := exists_data_of_wf (fc := .writeMultipleRegisters) hwf
    cases henc
    exact (decode_header none id .writeMultipleRegisters addr qty _).trans
      (decodeFields_writeMultipleRegisters hq hl none id addr rest)
  | exceptionResponse id fc code => cases henc; exact decode_exceptionResponse none id fc code rest
  | configure | setResponseTimeout | getExceptionCode | crc16 | crcUpdate | crcEncode | crcValidate | timingCalc
  | transact => cases henc

/-- The fields read are the operation's own: its words are the header and what the decoder took after it. -/
theorem encode_of_decodeFields {out : Option BufName} {id : Byte} {fc : FuncCode} {addr v : Word16}
    {r rest : List Byte} {i : Instr} (h : decodeFields out id fc addr v r = .ok (i, rest)) :
    ∃ data, encode i = some (header id fc addr v ++ data) ∧ r = data ++ rest := by
  cases fc with
  | readCoils | readDiscreteInputs | readHoldingRegisters | readInputRegisters | writeSingleRegister =>
    cases h; exact ⟨[], rfl, rfl⟩
  | writeSingleCoil =>
    simp only [decodeFields] at h
    split at h
    · rename_i hv; cases h; exact ⟨[], by rw [encode_writeSingleCoil, hv]; rfl, rfl⟩
    · split at h
      · rename_i hv; cases h; exact ⟨[], by rw [encode_writeSingleCoil, hv]; rfl, rfl⟩
      · cases h
  | writeMultipleCoils =>
    simp only [decodeFields] at h
    split at h
    · cases h
    · rename_i d r' hd
      split at h
      · rename_i hpad
        cases h
        obtain ⟨_, rfl⟩ := decodeData_ok hd
        refine ⟨_ :: d, ?_, rfl⟩
        simp only [encode, Option.getD_some, hpad]
        rfl
      · cases h
  | writeMultipleRegisters =>
    simp only [decodeFields] at h
    split at h
    · cases h
    · rename_i d r' hd
      cases h
      obtain ⟨hlen, rfl⟩ := decodeData_ok hd
      refine ⟨_ :: d, ?_, rfl⟩
      simp only [encode, Option.getD_some, packRegs_unpackRegs hlen]
      rfl

/-- Settles O3: by the two layouts the decoder knows. -/
theorem encodeInvertsDecode : Obligations.EncodeInvertsDecode := by
  intro out bytes i rest h
  rcases decode_cases h with ⟨id, fc, code, rfl, rfl⟩ | ⟨id, fc, addr, v, r, rfl, hf⟩
  · exact ⟨_, rfl, rfl⟩
  · obtain ⟨data, henc, rfl⟩ := encode_of_decodeFields hf
    exact ⟨_, henc, (List.append_assoc ..).symm⟩

/-! ## Frames -/

/-- A frame decodes as the bytes before its CRC do, where none is left over (R70). -/
theorem decodeFrame_withCrc {out : Option BufName} {d : List Byte} {i : Instr} (h : decode out d = .ok (i, [])) :
    decodeFrame out (withCrc d) = .ok i := by
  simp [decodeFrame, withCrc, h]

/-- A frame that decodes is the operation's bytes and their CRC. -/
theorem decodeFrame_ok {out : Option BufName} {frame : List Byte} {i : Instr} (h : decodeFrame out frame = .ok i) :
    ∃ d, frame = withCrc d ∧ decode out d = .ok (i, []) := by
  unfold decodeFrame at h
  simp only at h
  split at h
  · cases h
  · split at h
    · cases h
    · rename_i hcrc
      split at h
      · cases h
      · rename_i hd
        cases h
        exact ⟨_, by rw [withCrc, ← Decidable.not_not.1 hcrc, List.take_append_drop], hd⟩
      · cases h

/-- Settles O4: the round trips of the words, under the frame's CRC. -/
theorem frameRoundTrip : Obligations.FrameRoundTrip := by
  refine ⟨fun i frame hwf henc => ?_, fun out i frame h => ?_⟩
  · obtain ⟨words, hwords, rfl⟩ := Option.map_eq_some_iff.1 henc
    refine decodeFrame_withCrc ?_
    simpa using decodeInvertsEncode i words [] hwf hwords
  · obtain ⟨d, rfl, hd⟩ := decodeFrame_ok h
    obtain ⟨words, hwords, rfl⟩ := encodeInvertsDecode out d i [] hd
    simp [encodeFrame, hwords]

/-! ## The length of a frame -/

/-- A well-formed operation's words leave room for the CRC in 255 bytes (R81). -/
theorem length_le_of_encode {i : Instr} {words : List Byte} (hwf : i.wf = true) (henc : encode i = some words) :
    words.length ≤ 253 := by
  cases i with
  | readCoils | readDiscreteInputs | readHoldingRegisters | readInputRegisters | writeSingleCoil
  | writeSingleRegister | exceptionResponse => cases henc; simp
  | writeMultipleCoils id addr data qty =>
    obtain ⟨l, rfl, hq, hl⟩ := exists_data_of_wf (fc := .writeMultipleCoils) hwf
    have hlen := Laws.EncodedLength.writeMultipleCoils id addr (some l) qty hwf
    simp only [henc, Option.map_some, Laws.EncodedLength.txLen, Option.some.injEq] at hlen
    simp only [qtyMax] at hq
    omega
  | writeMultipleRegisters id addr data qty =>
    obtain ⟨l, rfl, hq, hl⟩ := exists_data_of_wf (fc := .writeMultipleRegisters) hwf
    have hlen := Laws.EncodedLength.writeMultipleRegisters id addr (some l) qty hwf
    simp only [henc, Option.map_some, Laws.EncodedLength.txLen, Option.some.injEq] at hlen
    simp only [qtyMax] at hq
    omega
  | configure | setResponseTimeout | getExceptionCode | crc16 | crcUpdate | crcEncode | crcValidate | timingCalc
  | transact => cases henc

/-- A failure presents no success. -/
theorem result_ok_of_fail {s t : State} {k : ErrKind} (h : fail s k = .next t) : t.result.ok = false := by
  rw [fail_next h]; rfl

/-- A response of a read that is accepted has the length its quantity gives (R155). -/
theorem respLen_of_parseRead {unit : DataUnit} {req : ReqContext} {s t : State} {k : List Byte → Out}
    (h : parseRead unit req s k = .next t) (hok : t.result.ok = true) :
    respLen s = 3 + byteCount unit req.qty.toNat := by
  by_contra hne
  rw [parseRead, if_pos hne] at h
  simp [result_ok_of_fail h] at hok

/-- A write's echo that is accepted has six bytes (R177, R178). -/
theorem respLen_of_parseEcho {req : ReqContext} {v : Word16} {s t : State} (h : parseEcho req v s = .next t)
    (hok : t.result.ok = true) : respLen s = 6 := by
  by_contra hne
  rw [parseEcho, if_pos hne] at h
  simp [result_ok_of_fail h] at hok

/-- An accepted response to a request whose quantity is in range has at most 253 bytes without its CRC (R81). -/
theorem respLen_le_of_finishResponse {req : ReqContext} {s t : State} (hq : req.qty.toNat ≤ qtyMax req.fc)
    (h : finishResponse req s = .next t) (hok : t.result.ok = true) : respLen s ≤ 253 := by
  unfold finishResponse at h
  split at h <;> rename_i hfc <;> rw [hfc] at hq
  case h_1 | h_2 =>
    have hbc := byteCount_bit_le hq
    have hlen := respLen_of_parseRead h hok
    omega
  case h_3 | h_4 =>
    have hbc := byteCount_register_le hq
    have hlen := respLen_of_parseRead h hok
    omega
  case h_5 | h_6 | h_7 | h_8 =>
    have hlen := respLen_of_parseEcho h hok
    omega

/-- PARSE ends in success only where the function code's own checks accept the response. -/
theorem finishResponse_of_parse {req : ReqContext} {s t : State} (hreq : s.req = some req) (h : parse s = .next t)
    (hf : t.fault = none) (hok : t.result.ok = true) : finishResponse req s = .next t := by
  rw [parse, readReq_some hreq, orRaise_ok] at h
  rcases parseHeader_cases h with ⟨_, h⟩ | ⟨k, _, _, h⟩ | ⟨c, _, _, _, h⟩ | ⟨f, _, rfl⟩
  · exact h
  · simp [result_ok_of_fail h] at hok
  · simp [result_ok_of_fail h] at hok
  · simp at hf

/-- Settles O5: the layouts' lengths for requests, and the length checks of PARSE for responses. -/
theorem framesFitTheBuffer : Obligations.FramesFitTheBuffer := by
  refine ⟨fun i frame hwf henc => ?_, fun s t n es r hat hr _ hq hs hf hok => ?_⟩
  · obtain ⟨words, hwords, rfl⟩ := Option.map_eq_some_iff.1 henc
    have hlen := length_le_of_encode hwf hwords
    rw [withCrc_length]
    omega
  · have hparse : parse (s.drawn n es) = .next t := by
      rw [step_at hat] at hs
      simpa only [engineStep, State.drawn_phase, hat.phase] using hs
    have hlen := respLen_le_of_finishResponse hq (finishResponse_of_parse (s := s.drawn n es) hr hparse hf hok) hok
    simp only [respLen, State.drawn_rxLen] at hlen
    omega

end Sys2Proof.Machine
end

section
/-! SUPPORT. The start of a device operation whose arguments pass: each template hands its words and its request context
on, and the request starts (O21 to O24). -/

namespace Sys2Proof.Machine

/-- A request of at most 253 bytes starts where both timeouts are set (R120, R81). -/
theorem exists_requestStarted {s : State} {c f : Word32} {words : List Byte} (hcfg : Configured s c f)
    (hcap : s.params.wf) (hl : words.length ≤ 253) (op : OpName) (req : ReqContext) :
    ∃ t, startRequest op words req s = .next t ∧ RequestStarted s t words req :=
  ⟨_, startRequest_of_ok hcfg.charTo hcfg.frameTo (le_trans (by omega) hcap), rfl, read_withCrc _ _⟩

/-! ## Reads -/

/-- A read whose arguments pass hands its header on (R150). -/
theorem readRequest_of_good {fc : FuncCode} {len : Option Nat} {id : Byte} {qty : Word16} {n : Nat}
    (hid1 : 1 ≤ id.toNat) (hid : id.toNat ≤ 247) (hq1 : 1 ≤ qty.toNat) (hq : qty.toNat ≤ qtyMax fc)
    (hlen : len = some n) (hn : qty.toNat ≤ n) (addr : Word16) (out : Option BufName) (s : State) :
    readRequest fc len id addr out qty s =
      startRequest fc.op (header id fc addr qty)
        { id := id, fc := fc, addr := addr, qty := qty, val := 0#16, expect := true, out := out } s := by
  subst hlen
  rw [readRequest, if_neg (by omega), if_neg (by omega)]
  exact if_neg (by omega)

/-- Settles O21: the four reads through one template, each with its own bound and kind of buffer. -/
theorem readStartsItsRequest : Obligations.ReadStartsItsRequest := by
  intro s c f id addr qty name ha hcfg hcap hid1 hid hq1
  have hread : ∀ (fc : FuncCode) (len : Option Nat) (n : Nat), qty.toNat ≤ qtyMax fc → len = some n →
      qty.toNat ≤ n →
      ∃ t, hostOp fc.op s (readRequest fc len id addr (some name) qty s) = .next t ∧
        RequestStarted s t (header id fc addr qty)
          { id := id, fc := fc, addr := addr, qty := qty, val := 0#16, expect := true, out := some name } := by
    intro fc len n hq hlen hn
    rw [hostOp_of_accepts ha.idle ha.noFault, readRequest_of_good hid1 hid hq1 hq hlen hn]
    exact exists_requestStarted hcfg hcap (by simp) _ _
  refine ⟨fun bits hb hn hq => ?_, fun words hw hn hq => ?_⟩
  · have hlen : bitBufLen s (some name) = some bits.length := by simp [bitBufLen, hb]
    exact ⟨hread .readCoils _ _ hq hlen hn, hread .readDiscreteInputs _ _ hq hlen hn⟩
  · have hlen : wordBufLen s (some name) = some words.length := by simp [wordBufLen, hw]
    exact ⟨hread .readHoldingRegisters _ _ hq hlen hn, hread .readInputRegisters _ _ hq hlen hn⟩

/-! ## Writes -/

/-- The request context of a write expects a response exactly from an id other than 0 (R30, R170). -/
theorem writeReq_eq (id : Byte) (fc : FuncCode) (addr qty val : Word16) :
    writeReq id fc addr qty val =
      { id := id, fc := fc, addr := addr, qty := qty, val := val, expect := decide (id ≠ 0#8), out := none } := by
  simp [writeReq, ← BitVec.toNat_inj]

/-- A single write to an id in range starts its request (R170). -/
theorem writeSingle_started {s : State} {c f : Word32} {id : Byte} (ha : Accepts s) (hcfg : Configured s c f)
    (hcap : s.params.wf) (hid : id.toNat ≤ 247) (fc : FuncCode) (addr v : Word16) :
    ∃ t, hostOp fc.op s (writeSingle fc id addr v s) = .next t ∧
      RequestStarted s t (header id fc addr v)
        { id := id, fc := fc, addr := addr, qty := 1#16, val := v, expect := decide (id ≠ 0#8), out := none } := by
  rw [hostOp_of_accepts ha.idle ha.noFault, writeSingle, if_neg (by omega), writeReq_eq]
  exact exists_requestStarted hcfg hcap (by simp) _ _

/-- Settles O22: the two single writes through one template. -/
theorem singleWriteStartsItsRequest : Obligations.SingleWriteStartsItsRequest := by
  intro s c f id addr value on ha hcfg hcap hid
  refine ⟨?_, writeSingle_started ha hcfg hcap hid .writeSingleRegister addr value⟩
  cases on
  · exact writeSingle_started ha hcfg hcap hid .writeSingleCoil addr (coilValue false)
  · exact writeSingle_started ha hcfg hcap hid .writeSingleCoil addr (coilValue true)

/-- A multiple write whose arguments pass starts its request: the header, the byte count, the packed data (R170). -/
theorem writeMultiple_started {α : Type} {s : State} {c f : Word32} {id : Byte} {qty : Word16} {fc : FuncCode}
    {pack : List α → Nat → List Byte} {l : List α} (ha : Accepts s) (hcfg : Configured s c f) (hcap : s.params.wf)
    (hid : id.toNat ≤ 247) (hq1 : 1 ≤ qty.toNat) (hq : qty.toNat ≤ qtyMax fc) (hl : qty.toNat ≤ l.length)
    (hpack : (pack l qty.toNat).length ≤ 246) (unit : DataUnit) (addr : Word16) :
    ∃ t, hostOp fc.op s (writeMultiple fc unit pack id addr (some l) qty s) = .next t ∧
      RequestStarted s t
        (header id fc addr qty ++ BitVec.ofNat 8 (byteCount unit qty.toNat) :: pack l qty.toNat)
        { id := id, fc := fc, addr := addr, qty := qty, val := 0#16, expect := decide (id ≠ 0#8), out := none } := by
  have hgood : writeMultiple fc unit pack id addr (some l) qty s =
      startRequest fc.op (header id fc addr qty ++ BitVec.ofNat 8 (byteCount unit qty.toNat) :: pack l qty.toNat)
        (writeReq id fc addr qty 0#16) s := by
    rw [writeMultiple, if_neg (by omega), if_neg (by omega)]
    exact if_neg (by omega)
  rw [hostOp_of_accepts ha.idle ha.noFault, hgood, writeReq_eq]
  exact exists_requestStarted hcfg hcap (by simp; omega) _ _

/-- Settles O23: the template, and every bit of the packed coils. -/
theorem multipleCoilsWriteStartsItsRequest : Obligations.MultipleCoilsWriteStartsItsRequest := by
  intro s c f id addr qty l ha hcfg hcap hid hq1 hq hl
  obtain ⟨t, ht, hstarted⟩ := writeMultiple_started (fc := .writeMultipleCoils) (pack := packBits) ha hcfg hcap hid
    hq1 hq hl (by rw [packBits_length]; omega) .bit addr
  refine ⟨t, packBits l qty.toNat, ht, hstarted, packBits_length _ _, fun j k hj hk => ?_⟩
  rw [packBits_length] at hj
  refine ⟨_, packBits_getElem? l qty.toNat j hj, ?_⟩
  rw [packByte_getLsbD _ hk]
  by_cases hjk : 8 * j + k < qty.toNat <;> simp [hjk]

/-- Settles O24: the template, and both bytes of every packed register. -/
theorem multipleRegistersWriteStartsItsRequest : Obligations.MultipleRegistersWriteStartsItsRequest := by
  intro s c f id addr qty l ha hcfg hcap hid hq1 hq hl
  have hlen := packRegs_length l qty.toNat hl
  obtain ⟨t, ht, hstarted⟩ := writeMultiple_started (fc := .writeMultipleRegisters) (pack := packRegs) ha hcfg hcap
    hid hq1 hq hl (by omega) .register addr
  refine ⟨t, packRegs l qty.toNat, ht, hstarted, hlen, fun k hk => ?_⟩
  obtain ⟨hhigh, hlow⟩ := packRegs_getElem? l qty.toNat k hl hk
  have hget : l[k]? = some l[k] := List.getElem?_eq_getElem (by omega)
  exact ⟨l[k], hget, by simp [hhigh, hget], by simp [hlow, hget]⟩

end Sys2Proof.Machine
end

section
/-! SUPPORT. A table word placed by `withFetchWord` is run by the next step: by the operation port, or by PARSE for a
response row (O9). -/

namespace Sys2Proof.Machine

/-! ## What the decoder reads -/

theorem funcCode_op_atPort (fc : FuncCode) : fc.op.atPort = true := by cases fc <;> rfl

/-- The operation read from a request is the one its function code selects (R73). -/
theorem op_of_decodeFields {out : Option BufName} {id : Byte} {fc : FuncCode} {addr v : Word16} {r rest : List Byte}
    {i : Instr} (h : decodeFields out id fc addr v r = .ok (i, rest)) : i.op = fc.op := by
  unfold decodeFields at h
  repeat' split at h
  all_goals cases h <;> rfl

/-- What the decoder reads is an exception response or one of the eight device operations, which the port takes. -/
theorem atPort_of_decode {out : Option BufName} {bytes rest : List Byte} {i : Instr}
    (h : decode out bytes = .ok (i, rest)) :
    i.op.atPort = true ∨ ∃ id fc code, i = .exceptionResponse id fc code := by
  rcases decode_cases h with ⟨id, fc, code, rfl, _⟩ | ⟨id, fc, addr, v, r, _, hf⟩
  · exact .inr ⟨id, fc, code, rfl⟩
  · exact .inl (by rw [op_of_decodeFields hf, funcCode_op_atPort])

theorem decode_of_decodeTableWord {nbits w : Nat} {i : Instr} (h : decodeTableWord nbits w = some i) :
    ∃ rest, decode none (tableWords nbits w) = .ok (i, rest) := by
  unfold decodeTableWord at h
  split at h
  · rename_i hd
    cases h
    exact ⟨_, hd⟩
  · cases h

/-! ## Placed at the port -/

theorem placeWords_of_atPort {words rest : List Byte} {i : Instr} (hd : decode none words = .ok (i, rest))
    (hi : i.op.atPort = true) (s : State) : placeWords words s = placeRequest words { s with fault := none } := by
  unfold placeWords
  split
  · rename_i hd'
    cases hd.symm.trans hd'
    cases hi
  · rfl

/-- A draw at the clock's own value leaves the clock as it is (R39). -/
theorem drawn_now_eq {s : State} (hclock : s.now < 2 ^ s.params.clockBits) (es : List Event) :
    s.drawn s.now es = s.setSchedule es := by
  simp only [State.drawn, Nat.mod_eq_of_lt hclock]
  rfl

theorem step_placeRequest {words rest : List Byte} {i : Instr} {s : State} (hd : decode none words = .ok (i, rest))
    (hi : i.op.atPort = true) (hf : s.fault = none) (hclock : s.now < 2 ^ s.params.clockBits) :
    step (placeRequest words s) = exec i (s.setPhase .idle) :=
  (step_issue_of_fetch (s := placeRequest words s) rfl hf (fetch_byWords hd hi)).trans
    (congrArg (exec i) (drawn_now_eq (s := placeRequest words s) hclock s.schedule))

/-! ## Placed in PARSE -/

theorem placeWords_of_exceptionResponse {words rest : List Byte} {id : Byte} {fc : BitVec 7} {code : Byte}
    (hd : decode none words = .ok (.exceptionResponse id fc code, rest)) (s : State) :
    placeWords words s = placeResponse id fc code { s with fault := none } := by
  simp only [placeWords, hd]

/-- A block in PARSE of an exception response, as `placeResponse` leaves it before its draw. -/
def State.responding (s : State) (req : ReqContext) (id : Byte) (fc : BitVec 7) (code : Byte) : State :=
  (((s.setBuf 0 [id, exceptionFcOf fc, code]).setRxLen 5).setReq req).setPhase .parse

theorem placeResponse_eq (id : Byte) (fc : BitVec 7) (code : Byte) (s : State) :
    ∃ req, (∀ r, s.req = some r → req = r) ∧
      placeResponse id fc code s = (s.responding req id fc code).setSchedule (.tick s.now :: s.schedule) :=
  ⟨_, fun r hr => by rw [hr], rfl⟩

/-- PARSE_HEADER hands no response with bit 7 of its function-code byte set on to a handler (R73, R134). -/
theorem parseHeader_exceptionFcOf (req : ReqContext) (id code : Except BlockFault Byte) (fc : BitVec 7) (s : State)
    (k : Out) : parseHeader req id (.ok (exceptionFcOf fc)) code s k =
      parseHeader req id (.ok (exceptionFcOf fc)) code s (fail s .protocolMismatch) := by
  have hne : exceptionFcOf fc ≠ fcByte req.fc := fun h => by simpa using congrArg BitVec.msb h
  simp only [parseHeader, orRaise_ok, hne, ne_eq, not_false_eq_true, if_true]

/-- PARSE of an exception response that `BUF` holds is the response row's own operation (R134, log entry 19). -/
theorem parse_eq_exec_exceptionResponse {s : State} {req : ReqContext} {id : Byte} {fc : BitVec 7} {code : Byte}
    {rest : List Byte} (hf : s.fault = none) (hr : s.req = some req)
    (hd : Holds s (id :: exceptionFcOf fc :: code :: rest)) :
    parse s = exec (.exceptionResponse id fc code) s := by
  rw [parse_of_holds hr hd, parseHeader_exceptionFcOf]
  simp only [exec, execExceptionResponse, unlessStopped_of_running hf, readReq_some hr, orRaise_ok]

/-- Bytes just written from index 0 on are held. -/
theorem holds_of_buf_eq {s : State} {m : List Host.Cell} {d : List Byte} (hb : s.buf = Cells.writeList m 0 d)
    (hfit : d.length ≤ s.params.bufCap) : Holds s d :=
  ⟨hfit, fun i h => by rw [hb, Cells.read_writeList, if_pos (by omega), Nat.sub_zero]⟩

theorem responding_holds {s : State} (hcap : s.params.wf) (req : ReqContext) (id : Byte) (fc : BitVec 7) (code : Byte) :
    Holds (s.responding req id fc code) [id, exceptionFcOf fc, code] :=
  holds_of_buf_eq rfl (le_trans (by simp) hcap)

/-- The response row's step: the tick at the clock's own value runs PARSE. -/
theorem step_placeResponse {s : State} (hcap : s.params.wf) (hf : s.fault = none)
    (hclock : s.now < 2 ^ s.params.clockBits) (id : Byte) (fc : BitVec 7) (code : Byte) :
    ∃ req, (∀ r, s.req = some r → req = r) ∧
      step (placeResponse id fc code s) = exec (.exceptionResponse id fc code) (s.responding req id fc code) := by
  obtain ⟨req, hreq, hplaced⟩ := placeResponse_eq id fc code s
  refine ⟨req, hreq, ?_⟩
  rw [hplaced]
  set placed := (s.responding req id fc code).setSchedule (.tick s.now :: s.schedule)
  calc step placed
    _ = engineStep (placed.drawn s.now s.schedule) := step_at (p := .parse) ⟨hf, rfl, rfl⟩
    _ = engineStep (s.responding req id fc code) := congrArg engineStep (drawn_now_eq (s := placed) hclock s.schedule)
    _ = parse (s.responding req id fc code) := rfl
    _ = _ := parse_eq_exec_exceptionResponse hf rfl (responding_holds hcap req id fc code)

/-- Settles O9: a request goes through the port, and a response row through PARSE. -/
theorem tableWordRunsOnTheNextStep : Obligations.TableWordRunsOnTheNextStep := by
  intro s nbits w i hcap hclock hi
  obtain ⟨rest, hd⟩ := decode_of_decodeTableWord hi
  rcases atPort_of_decode hd with hport | ⟨id, fc, code, rfl⟩
  · refine .inl ⟨hport, ?_⟩
    rw [State.withFetchWord, placeWords_of_atPort hd hport]
    exact step_placeRequest hd hport rfl hclock
  · rw [State.withFetchWord, placeWords_of_exceptionResponse hd]
    obtain ⟨req, hreq, hstep⟩ := step_placeResponse (s := { s with fault := none }) hcap rfl hclock id fc code
    exact .inr ⟨id, fc, code, req, rfl, hreq, hstep⟩

end Sys2Proof.Machine
end

section
/-! SUPPORT. The CRC as an algebra: it is the Modbus CRC (O10), its residue over a frame with its own CRC is 0, and no
two lists that differ in one byte have the same CRC. -/

namespace Sys2Proof.Machine

/-! ## The steps -/

/-- The eight steps of R100 are one step, iterated. -/
theorem crcShifts_eq_iterate (n : Nat) (c : Word16) : crcShifts n c = crcShift^[n] c := by
  induction n generalizing c with
  | zero => rfl
  | succ n ih => rw [crcShifts, ih, Function.iterate_succ_apply]

/-- Settles O10: the definitions, with the eight steps as an iteration. -/
theorem crcIsTheModbusCrc : Obligations.CrcIsTheModbusCrc := by
  refine ⟨fun c b => ?_, fun d => rfl, fun s c b hf => ?_, fun s d hf => ?_⟩
  · exact crcShifts_eq_iterate 8 (c ^^^ b.setWidth 16)
  · exact unlessStopped_of_running hf
  · exact unlessStopped_of_running hf

/-! ## The residue (R104) -/

theorem crcShifts_eq_zero_iff {n : Nat} {c : Word16} : crcShifts n c = 0#16 ↔ c = 0#16 :=
  ⟨crcShifts_eq_zero, by rintro rfl; exact crcShifts_zero n⟩

/-- Eight steps shift a value whose low byte is 0 down by that byte. -/
theorem crcShifts_join_zero (b : Byte) : crcShifts 8 (join b 0#8) = b.setWidth 16 := by
  simpa [crcUpdate] using crcUpdate_lo (join b 0#8)

theorem join_eq_xor (a b : Byte) : join a b = b.setWidth 16 ^^^ join a 0#8 := by
  apply BitVec.eq_of_getLsbD_eq
  intro i hi
  simp only [join, BitVec.getLsbD_xor, BitVec.getLsbD_append, BitVec.getLsbD_setWidth]
  by_cases h : i < 8
  · simp [h, hi]
  · simp [h, BitVec.getLsbD_of_ge b i (by omega)]

/-- Two bytes fed to CRC_UPDATE are one 16-bit value XORed in, and sixteen steps. -/
theorem crcUpdate_crcUpdate (c : Word16) (l h : Byte) :
    crcUpdate (crcUpdate c l) h = crcShifts 8 (crcShifts 8 (c ^^^ join h l)) := by
  rw [crcUpdate, crcUpdate, ← crcShifts_join_zero h, ← crcShifts_xor, BitVec.xor_assoc, ← join_eq_xor]

theorem crc16_append_pair_eq_zero_iff (d : List Byte) (l h : Byte) :
    crc16 (d ++ [l, h]) = 0#16 ↔ l = lo (crc16 d) ∧ h = hi (crc16 d) := by
  calc crc16 (d ++ [l, h]) = 0#16
    _ ↔ crcUpdate (crcUpdate (crc16 d) l) h = 0#16 := by rw [crc16_append]; rfl
    _ ↔ crc16 d ^^^ join h l = 0#16 := by
      rw [crcUpdate_crcUpdate, crcShifts_eq_zero_iff, crcShifts_eq_zero_iff]
    _ ↔ join h l = crc16 d := by rw [BitVec.xor_eq_zero_iff, eq_comm]
    _ ↔ l = lo (crc16 d) ∧ h = hi (crc16 d) := by rw [join_eq_iff, and_comm]

theorem crc16_withCrc (d : List Byte) : crc16 (withCrc d) = 0#16 :=
  (crc16_append_pair_eq_zero_iff d _ _).2 ⟨rfl, rfl⟩

/-! ## One byte changed -/

theorem crcShifts_injective (n : Nat) : Function.Injective (crcShifts n) := by
  intro a b h
  have hxor : crcShifts n (a ^^^ b) = 0#16 := by rw [crcShifts_xor, h, BitVec.xor_self]
  exact BitVec.xor_eq_zero_iff.1 (crcShifts_eq_zero hxor)

theorem crcUpdate_left_injective (b : Byte) : Function.Injective (crcUpdate · b) := fun _ _ h =>
  (BitVec.xor_left_inj _).1 (crcShifts_injective 8 h)

theorem crcUpdate_right_injective (c : Word16) : Function.Injective (crcUpdate c) := fun a b h => by
  have hw : a.setWidth 16 = b.setWidth 16 := (BitVec.xor_right_inj _).1 (crcShifts_injective 8 h)
  simpa using congrArg (BitVec.setWidth 8) hw

theorem foldl_crcUpdate_injective (d : List Byte) : Function.Injective (d.foldl crcUpdate) := by
  induction d with
  | nil => exact fun _ _ h => h
  | cons b d ih => exact fun _ _ h => crcUpdate_left_injective b (ih h)

/-- The CRC of a list determines any one byte of it, given the others. -/
theorem crc16_byte_injective (d e : List Byte) : Function.Injective fun b => crc16 (d ++ b :: e) := fun a b h => by
  have hfold : e.foldl crcUpdate (crcUpdate (crc16 d) a) = e.foldl crcUpdate (crcUpdate (crc16 d) b) := by
    simpa [crc16_append] using h
  exact crcUpdate_right_injective _ (foldl_crcUpdate_injective e hfold)

theorem xor_bit_ne (b : Byte) {bit : Nat} (hbit : bit < 8) : b ^^^ 1#8 <<< bit ≠ b := by
  intro h
  have := congrArg (fun v : Byte => v.getLsbD bit) h
  simp [hbit] at this

/-- A list of bytes with one bit inverted has another CRC. -/
theorem crc16_bit_inverted_ne {d : List Byte} {k bit : Nat} {b : Byte} (hk : d[k]? = some b) (hbit : bit < 8) :
    crc16 (d.set k (b ^^^ 1#8 <<< bit)) ≠ crc16 d := by
  obtain ⟨hlt, rfl⟩ := List.getElem?_eq_some_iff.1 hk
  obtain ⟨p, q, hd, hp, hset⟩ := List.exists_of_set hlt
  intro h
  rw [hset] at h
  exact xor_bit_ne d[k] hbit (crc16_byte_injective p q (h.trans (congrArg crc16 hd)))

end Sys2Proof.Machine
end

section
/-! SUPPORT. CRC_ENCODE and CRC_VALIDATE run by themselves (O11 to O14). -/

namespace Sys2Proof.Machine

/-! ## The first index that cannot be read -/

/-- `i` is the first index of `BUF` that cannot be read, and reading it raises `f`. -/
structure FirstUnreadable (s : State) (i : Nat) (f : BlockFault) : Prop where
  fails : readByte s i = .error f
  before : ∀ j, j < i → ∃ b, readByte s j = .ok b

theorem FirstUnset.firstUnreadable {s : State} {n i : Nat} (h : FirstUnset s n i) (hn : n ≤ s.params.bufCap) :
    FirstUnreadable s i (.unsetRead (.buf i)) := by
  have hi : i < s.params.bufCap := lt_of_lt_of_le h.below hn
  refine ⟨by simp [readByte, hi, h.unset], fun j hj => ?_⟩
  obtain ⟨b, hb⟩ := Option.isSome_iff_exists.1 (h.first j hj)
  exact ⟨b, readByte_ok_iff.2 ⟨hj.trans hi, hb⟩⟩

/-- With `BUF` set up to `BUF_CAP`, the first index that cannot be read is `BUF_CAP` (R13). -/
theorem Holds.firstUnreadable {s : State} {d : List Byte} (h : Holds s d) (hd : d.length = s.params.bufCap) :
    FirstUnreadable s s.params.bufCap (.bufferOverrun s.params.bufCap) :=
  ⟨by simp [Machine.readByte], fun j hj =>
    ⟨d[j]'(by omega), h.readByte (List.getElem?_eq_getElem (by omega))⟩⟩

theorem FirstUnreadable.memRead_error {s : State} {i n : Nat} {f : BlockFault} (h : FirstUnreadable s i f) :
    ∀ {a : Nat}, a ≤ i → i < a + n → memRead s a n = .error f := by
  induction n with
  | zero => intro a h₁ h₂; omega
  | succ n ih =>
    intro a h₁ h₂
    rcases Nat.eq_or_lt_of_le h₁ with rfl | hlt
    · simp [memRead, h.fails]
    · obtain ⟨b, hb⟩ := h.before a hlt
      simp [memRead, hb, ih hlt (by omega)]

theorem FirstUnreadable.memRead_ok {s : State} {i n : Nat} {f : BlockFault} (h : FirstUnreadable s i f) (hn : n ≤ i) :
    ∃ d, memRead s 0 n = .ok d := by
  cases hd : memRead s 0 n with
  | ok d => exact ⟨d, rfl⟩
  | error g =>
    obtain ⟨j, _, hj, hg⟩ := Machine.memRead_error hd
    obtain ⟨b, hb⟩ := h.before j (by omega)
    cases hb.symm.trans hg

/-- CRC_VALIDATE raises at the first of its `m` bytes that cannot be read: one before the last two, or one of them. -/
theorem FirstUnreadable.crcValidate_error {s : State} {i m : Nat} {f : BlockFault} (h : FirstUnreadable s i f)
    (hm : 2 ≤ m) (hi : i < m) : crcValidate s m = .error f := by
  rw [crcValidate, if_neg (by omega)]
  by_cases hdata : i < m - 2
  · rw [h.memRead_error (Nat.zero_le i) (by omega)]
  · obtain ⟨d, hd⟩ := h.memRead_ok (n := m - 2) (by omega)
    by_cases hlow : i = m - 2
    · rw [hd, ← hlow, h.fails]
    · obtain ⟨l, hl⟩ := h.before (m - 2) (by omega)
      rw [hd, hl, show m - 1 = i by omega, h.fails]

/-! ## CRC_ENCODE -/

theorem exec_crcEncode {s : State} (hf : s.fault = none) (n : Nat) : exec (.crcEncode n) s = crcEncode s n .next :=
  unlessStopped_of_running hf

theorem exec_crcEncode_of_holds {s : State} {d : List Byte} (hf : s.fault = none) (hd : Holds s d)
    (hfit : d.length + 2 ≤ s.params.bufCap) :
    exec (.crcEncode d.length) s = .next (s.setBuf d.length [lo (crc16 d), hi (crc16 d)]) := by
  rw [exec_crcEncode hf, crcEncode_of_ok hfit hd.read]

/-- Settles O11: the CRC is stored, does not fit, or cannot be computed. -/
theorem crcEncodeAppendsTheCrc : Obligations.CrcEncodeAppendsTheCrc := by
  refine ⟨fun s d hf hd hfit => ?_, fun s n hf hn => ?_, fun s n i hf hn hu => ?_⟩
  · refine ⟨_, exec_crcEncode_of_holds hf hd hfit, fun a => ?_⟩
    rw [Cells.read_writeList]
    by_cases hl : a = d.length
    · simp [hl]
    · by_cases hh : a = d.length + 1
      · simp [hh]
      · rw [if_neg (by simp; omega), if_neg hl, if_neg hh]
  · rw [exec_crcEncode hf, crcEncode, if_pos hn]
    rfl
  · rw [exec_crcEncode hf, crcEncode, if_neg (by omega), memRead_unset (by omega) hu (Nat.zero_add n) (Nat.zero_le i)]
    rfl

/-! ## CRC_VALIDATE -/

theorem exec_crcValidate {s : State} (hf : s.fault = none) (m : Nat) :
    exec (.crcValidate m) s = orRaise s (crcValidate s m) fun b => .next (s.setRetval (.valid b)) :=
  unlessStopped_of_running hf

theorem exec_crcValidate_of_ok {s : State} {m : Nat} {b : Bool} (hf : s.fault = none) (h : crcValidate s m = .ok b) :
    exec (.crcValidate m) s = .next { s with retval := .valid b } := by
  rw [exec_crcValidate hf, h]
  rfl

theorem exec_crcValidate_of_error {s : State} {m : Nat} {f : BlockFault} (hf : s.fault = none)
    (h : crcValidate s m = .error f) : exec (.crcValidate m) s = .next { s with fault := some f } := by
  rw [exec_crcValidate hf, h]
  rfl

theorem crcValidate_of_lt_two {s : State} {m : Nat} (hm : m < 2) : crcValidate s m = .ok false := by
  rw [crcValidate, if_pos hm]

/-- Settles O12: too short, read whole, or raised at the first byte that cannot be read. -/
theorem crcValidateComparesTheCrc : Obligations.CrcValidateComparesTheCrc := by
  refine ⟨fun s m hf hm => ?_, fun s d l h hf hd => ?_, fun s m i hf hm hcap hu => ?_,
    fun s d m hf hm hcap hd hlen => ?_⟩
  · exact exec_crcValidate_of_ok hf (crcValidate_of_lt_two hm)
  · exact exec_crcValidate_of_ok hf (crcValidate_of_holds hd)
  · exact exec_crcValidate_of_error hf ((hu.firstUnreadable hcap).crcValidate_error hm hu.below)
  · exact exec_crcValidate_of_error hf ((hd.firstUnreadable hlen).crcValidate_error hm hcap)

/-- A list of at least two bytes ends in two. -/
theorem exists_eq_append_pair {d : List Byte} (h : 2 ≤ d.length) : ∃ e l u, d = e ++ [l, u] := by
  have hlast : (d.drop (d.length - 2)).length = 2 := by simp; omega
  obtain ⟨l, u, hlu⟩ := List.length_eq_two.1 hlast
  exact ⟨d.take (d.length - 2), l, u, by rw [← hlu, List.take_append_drop]⟩

/-- CRC_VALIDATE tests the residue (R104). -/
theorem crcValidate_eq_residue {s : State} {d : List Byte} (hd : Holds s d) :
    crcValidate s d.length = .ok (decide (2 ≤ d.length ∧ crc16 d = 0#16)) := by
  by_cases hlen : 2 ≤ d.length
  · obtain ⟨e, l, u, rfl⟩ := exists_eq_append_pair hlen
    rw [List.length_append, show [l, u].length = 2 from rfl, crcValidate_of_holds hd]
    simp [crc16_append_pair_eq_zero_iff]
  · rw [crcValidate_of_lt_two (by omega)]
    simp [hlen]

theorem Holds.exec_crcValidate {s : State} {d : List Byte} (hd : Holds s d) (hf : s.fault = none) :
    exec (.crcValidate d.length) s =
      .next { s with retval := .valid (decide (2 ≤ d.length ∧ crc16 d = 0#16)) } :=
  exec_crcValidate_of_ok hf (crcValidate_eq_residue hd)

/-- Settles O13: the residue over a frame, and CRC_VALIDATE as its test. -/
theorem crcResidueIsZero : Obligations.CrcResidueIsZero :=
  ⟨crc16_append_pair_eq_zero_iff, fun _ _ hf hd => hd.exec_crcValidate hf⟩

/-! ## CRC_VALIDATE after CRC_ENCODE (R105) -/

/-- CRC_ENCODE leaves the bytes and their CRC in `BUF`. -/
theorem Holds.setBuf_crc {s : State} {d : List Byte} (h : Holds s d) (hfit : d.length + 2 ≤ s.params.bufCap) :
    Holds (s.setBuf d.length [lo (crc16 d), hi (crc16 d)]) (withCrc d) := by
  have hlow : Holds (s.setBuf d.length [lo (crc16 d)]) (d ++ [lo (crc16 d)]) := h.write (by omega) rfl rfl
  have hhigh : Holds (s.setBuf d.length [lo (crc16 d), hi (crc16 d)]) (d ++ [lo (crc16 d)] ++ [hi (crc16 d)]) :=
    hlow.write (by simp; omega) rfl (by simp [Cells.writeList])
  simpa [withCrc] using hhigh

/-- One byte of those held written over. -/
theorem Holds.set {s : State} {d : List Byte} (h : Holds s d) (k : Nat) (b : Byte) :
    Holds { s with buf := Cells.write s.buf k b } (d.set k b) := by
  refine ⟨by simpa using h.fits, fun i hi => ?_⟩
  rw [List.length_set] at hi
  rw [Cells.read_write]
  by_cases hik : i = k
  · subst hik; simp [hi]
  · rw [if_neg hik, h.bytes i hi, List.getElem?_set_ne (Ne.symm hik)]

/-- Settles O14: the residue of the frame is 0, and that of the frame with one byte changed is not. -/
theorem crcRoundTripAndSingleBitErrors : Obligations.CrcRoundTripAndSingleBitErrors := by
  intro s d hf hd hfit
  have hframe := hd.setBuf_crc hfit
  refine ⟨_, exec_crcEncode_of_holds hf hd hfit, ?_, fun k bit b hk hbit hb => ?_⟩
  · simpa [crc16_withCrc] using hframe.exec_crcValidate hf
  · have hbyte : (withCrc d)[k]? = some b := by
      rw [← hframe.bytes k (by simpa using hk), hb]
    have hne : crc16 ((withCrc d).set k (b ^^^ 1#8 <<< bit)) ≠ 0#16 :=
      crc16_withCrc d ▸ crc16_bit_inverted_ne hbyte hbit
    simpa [hne] using (hframe.set k (b ^^^ 1#8 <<< bit)).exec_crcValidate hf

end Sys2Proof.Machine
end

section
/-! SUPPORT. The Timing Calculator: its value in each case of R110 to R114 (O15). -/

namespace Sys2Proof.Machine

/-- R111's table, format by format. -/
theorem bitsPerChar_bitsTable (fmt : SerialFormat) : bitsPerChar bitsTable fmt =
    if fmt = ⟨.eight, .none, .one⟩ then some 10
    else if fmt = ⟨.eight, .even, .one⟩ ∨ fmt = ⟨.eight, .odd, .one⟩ ∨ fmt = ⟨.eight, .none, .two⟩ then some 11
    else none := by
  simp only [bitsTable, bitsPerChar, ite_or, eq_comm (b := fmt)]
  rfl

section
variable {table : BitsTable} {baud : Word32} {fmt : SerialFormat} {B : Nat}

theorem timingCalc_of_no_entry (h : bitsPerChar table fmt = none) : timingCalc table baud fmt = none := by
  rw [timingCalc, h]

theorem timingCalc_of_baud_zero (h : bitsPerChar table fmt = some B) (hb : baud.toNat = 0) :
    timingCalc table baud fmt = none := by
  simp only [timingCalc, h, if_pos hb]

theorem timingCalc_of_fast (h : bitsPerChar table fmt = some B) (hb : 19200 < baud.toNat) :
    timingCalc table baud fmt = some (750#32, 1750#32) := by
  simp only [timingCalc, h, if_neg (show baud.toNat ≠ 0 by omega), if_pos hb]

theorem timingCalc_of_slow (h : bitsPerChar table fmt = some B) (hlo : 1 ≤ baud.toNat) (hhi : baud.toNat ≤ 19200) :
    timingCalc table baud fmt = some (BitVec.ofNat 32 (15 * B * 100000 / baud.toNat),
      BitVec.ofNat 32 (35 * B * 100000 / baud.toNat)) := by
  simp only [timingCalc, h, if_neg (show baud.toNat ≠ 0 by omega), if_neg (show ¬ 19200 < baud.toNat by omega)]

/-- A window of at most 3.5 characters fits in 32 bits at every baud rate, because a character has at most 12 bits
(R113). -/
theorem toNat_ofNat_window (h : bitsPerChar table fmt = some B) {tenths : Nat} (ht : tenths ≤ 35) (n : Nat) :
    (BitVec.ofNat 32 (tenths * B * 100000 / n)).toNat = tenths * B * 100000 / n := by
  have hprod : tenths * B ≤ 35 * 12 := Nat.mul_le_mul ht (bitsPerChar_le h)
  have hquot : tenths * B * 100000 / n ≤ tenths * B * 100000 := Nat.div_le_self _ n
  rw [BitVec.toNat_ofNat, Nat.mod_eq_of_lt (by omega)]

end

/-- Settles O15: the calculator's value case by case, and both quotients below `2 ^ 32`. -/
theorem timingCalcFollowsTheTable : Obligations.TimingCalcFollowsTheTable := by
  refine ⟨fun s baud fmt hf => ?_, fun table baud fmt B h => ⟨?_, ?_, fun hlo hhi => ?_⟩, fun table baud fmt h => ?_,
    bitsPerChar_bitsTable⟩
  · exact unlessStopped_of_running hf
  · exact timingCalc_of_baud_zero h
  · exact timingCalc_of_fast h
  · exact ⟨_, _, timingCalc_of_slow h hlo hhi, toNat_ofNat_window h (by decide) _, toNat_ofNat_window h le_rfl _⟩
  · exact timingCalc_of_no_entry h

end Sys2Proof.Machine
end

section
/-! SUPPORT. The windows the Timing Calculator gives are never 0 for the spec's formats (O16). -/

namespace Sys2Proof.Machine

/-- Two floors differ where the dividends are at least one divisor apart. -/
theorem div_lt_div_of_add_le {x y n : Nat} (hn : 0 < n) (h : x + n ≤ y) : x / n < y / n :=
  calc x / n
    _ < (x + n) / n := by rw [Nat.add_div_right x hn]; exact Nat.lt_succ_self _
    _ ≤ y / n := Nat.div_le_div_right h

/-- At 1 to 19200 baud, 1.5 characters of at least 10 bits take at least 750 microseconds, 3.5 of them at least 1750, and
the two windows differ (R112, R113). -/
theorem slow_windows {B n : Nat} (hB : 10 ≤ B) (hlo : 1 ≤ n) (hhi : n ≤ 19200) :
    750 ≤ 15 * B * 100000 / n ∧ 1750 ≤ 35 * B * 100000 / n ∧ 15 * B * 100000 / n < 35 * B * 100000 / n :=
  ⟨(Nat.le_div_iff_mul_le hlo).2 (by omega), (Nat.le_div_iff_mul_le hlo).2 (by omega),
    div_lt_div_of_add_le hlo (by omega)⟩

/-- Settles O16: no timeouts at baud 0, fixed ones above 19200, and the two quotients up to it. -/
theorem computedTimeoutsAreNeverZero : Obligations.ComputedTimeoutsAreNeverZero := by
  refine ⟨fun table baud fmt B c f h hB hcalc => ?_, fun fmt B h => ?_⟩
  · rcases Nat.eq_zero_or_pos baud.toNat with hzero | hlo
    · rw [timingCalc_of_baud_zero h hzero] at hcalc
      cases hcalc
    · rcases Nat.lt_or_ge 19200 baud.toNat with hfast | hhi
      · rw [timingCalc_of_fast h hfast] at hcalc
        cases hcalc
        decide
      · rw [timingCalc_of_slow h hlo hhi] at hcalc
        cases hcalc
        rw [toNat_ofNat_window h (by decide), toNat_ofNat_window h le_rfl]
        exact slow_windows hB hlo hhi
  · have hentry := (bitsPerChar_bitsTable fmt).symm.trans h
    split at hentry
    · cases hentry; decide
    · split at hentry <;> cases hentry
      decide

end Sys2Proof.Machine
end

section
/-! SUPPORT. TRANSACT in each of its cases, and a device operation whose checks pass while a timeout is unset (O27,
O28). -/

namespace Sys2Proof.Machine

/-! ## TRANSACT run by itself -/

theorem exec_transact {s : State} (hf : s.fault = none) : exec .transact s = transact .transact s :=
  unlessStopped_of_running hf

/-- With both timeouts set, TRANSACT is CRC_ENCODE of the request and the move to FLUSH_STALE (R120). -/
theorem transact_of_configured {s : State} {c f : Word32} (h : Configured s c f) (op : OpName) :
    transact op s = crcEncode s s.txLen fun s => .next ((s.setMark s.now).setPhase .flushStale) := by
  simp [transact, h.charTo, h.frameTo]

/-- CRC_ENCODE of more bytes than `BUF` has room for with their CRC (R102). -/
theorem crcEncode_of_overrun {s : State} {n : Nat} (h : s.params.bufCap < n + 2) (k : State → Out) :
    crcEncode s n k = raise s (.bufferOverrun n) := if_pos h

/-- CRC_ENCODE of bytes of which one is unset (R102). -/
theorem crcEncode_of_unset {s : State} {n i : Nat} (hfit : n + 2 ≤ s.params.bufCap) (hu : FirstUnset s n i)
    (k : State → Out) : crcEncode s n k = raise s (.unsetRead (.buf i)) := by
  rw [crcEncode, if_neg (by omega), memRead_unset (by omega) hu (Nat.zero_add n) (Nat.zero_le i), orRaise_error]

/-- Bytes held in `BUF`, with their CRC stored after them. -/
theorem Holds.read_crc {s : State} {d : List Byte} (h : Holds s d) (a : Nat) :
    Cells.read (Cells.writeList s.buf d.length [lo (crc16 d), hi (crc16 d)]) a =
      if a < d.length + 2 then (withCrc d)[a]? else Cells.read s.buf a := by
  rw [Cells.read_writeList, withCrc, List.length_cons, List.length_singleton]
  by_cases hdata : a < d.length
  · rw [if_neg (by omega), if_pos (by omega), h.bytes a hdata, List.getElem?_append_left hdata]
  · by_cases hcrc : a < d.length + 2
    · rw [if_pos (by omega), if_pos hcrc, List.getElem?_append_right (by omega)]
    · rw [if_neg (by omega), if_neg hcrc]

/-- Settles O28: the timeouts first, then CRC_ENCODE's three answers. -/
theorem transactEntersFlushStale : Obligations.TransactEntersFlushStale := by
  refine ⟨fun s c f d hf hcfg hd hl hfit => ?_, fun s hf hunset => ?_, fun s c f hf hcfg hover => ?_,
    fun s c f i hf hcfg hfit hu => ?_⟩
  · refine ⟨Cells.writeList s.buf s.txLen [lo (crc16 d), hi (crc16 d)], ?_, fun a => ?_⟩
    · have hread : memRead s 0 s.txLen = .ok d := by rw [hl]; exact hd.read
      rw [exec_transact hf, transact_of_ok hcfg.charTo hcfg.frameTo (by omega) hread]
      rfl
    · rw [hl]
      exact hd.read_crc a
  · exact ⟨.transact, by rw [exec_transact hf, transact_of_unset hunset]; rfl⟩
  · rw [exec_transact hf, transact_of_configured hcfg, crcEncode_of_overrun hover]
    rfl
  · rw [exec_transact hf, transact_of_configured hcfg, crcEncode_of_unset hfit hu]
    rfl

/-! ## A device operation while a timeout is unset -/

/-- A multiple write whose arguments pass hands its words on (R170). -/
theorem writeMultiple_of_good {α : Type} {fc : FuncCode} {id : Byte} {qty : Word16} {l : List α}
    (hid : ¬ 247 < id.toNat) (hqty : ¬ (qty.toNat = 0 ∨ qtyMax fc < qty.toNat)) (hl : qty.toNat ≤ l.length)
    (unit : DataUnit) (pack : List α → Nat → List Byte) (addr : Word16) (s : State) :
    writeMultiple fc unit pack id addr (some l) qty s =
      startRequest fc.op (header id fc addr qty ++ BitVec.ofNat 8 (byteCount unit qty.toNat) :: pack l qty.toNat)
        (writeReq id fc addr qty 0#16) s := by
  rw [writeMultiple, if_neg hid, if_neg hqty]
  exact if_neg (by omega)

/-- A device operation that passes its checks starts a request of its own words, which leave room for the CRC (R150,
R170, R81). -/
theorem exec_eq_startRequest {s : State} {i : Instr} {words : List Byte} (ha : Accepts s) (hdev : isDeviceOp i = true)
    (henc : encode i = some words) (hgood : ¬ BadArgument s i) (hlong : ∀ qty length, ¬ ShortBuffer s qty length i) :
    words.length ≤ 253 ∧ ∃ req, exec i s = startRequest i.op words req s := by
  have hport : ∀ op k, hostOp op s k = k := fun _ _ => hostOp_of_accepts ha.idle ha.noFault
  cases i with
  | readCoils id addr out q | readDiscreteInputs id addr out q | readHoldingRegisters id addr out q
  | readInputRegisters id addr out q =>
    simp only [BadArgument, not_or, not_lt] at hgood
    obtain ⟨hid0, hid, hq0, hq, hbuf⟩ := hgood
    obtain ⟨n, hlen⟩ := Option.ne_none_iff_exists'.1 hbuf
    have hn : q.toNat ≤ n := not_lt.1 fun hlt => hlong _ n ⟨rfl, hlen, hlt⟩
    cases henc
    refine ⟨by simp, _, (hport _ _).trans
      (readRequest_of_good (Nat.pos_of_ne_zero hid0) hid (Nat.pos_of_ne_zero hq0) ?_ hlen hn addr out s)⟩
    exact hq
  | writeSingleCoil id addr v =>
    rw [encode_writeSingleCoil] at henc
    cases henc
    exact ⟨by simp, _, (hport _ _).trans (if_neg hgood)⟩
  | writeSingleRegister id addr v =>
    cases henc
    exact ⟨by simp, _, (hport _ _).trans (if_neg hgood)⟩
  | writeMultipleCoils id addr data q =>
    simp only [BadArgument, not_or] at hgood
    obtain ⟨hid, hq0, hq, hdata⟩ := hgood
    obtain ⟨l, rfl⟩ := Option.ne_none_iff_exists'.1 hdata
    have hl : q.toNat ≤ l.length := not_lt.1 fun hlt => hlong _ _ ⟨rfl, rfl, hlt⟩
    cases henc
    exact ⟨by simp; omega, _, (hport _ _).trans
      (writeMultiple_of_good (fc := .writeMultipleCoils) hid (not_or.2 ⟨hq0, hq⟩) hl .bit packBits addr s)⟩
  | writeMultipleRegisters id addr data q =>
    simp only [BadArgument, not_or] at hgood
    obtain ⟨hid, hq0, hq, hdata⟩ := hgood
    obtain ⟨l, rfl⟩ := Option.ne_none_iff_exists'.1 hdata
    have hl : q.toNat ≤ l.length := not_lt.1 fun hlt => hlong _ _ ⟨rfl, rfl, hlt⟩
    cases henc
    exact ⟨by simp [packRegs_length l _ hl]; omega, _, (hport _ _).trans
      (writeMultiple_of_good (fc := .writeMultipleRegisters) hid (not_or.2 ⟨hq0, hq⟩) hl .register packRegs addr s)⟩
  | exceptionResponse | configure | setResponseTimeout | getExceptionCode | crc16 | crcUpdate | crcEncode
  | crcValidate | timingCalc | transact => cases hdev

/-- A request whose words fit, with a timeout unset: the words are stored, and `TimingUnset` is raised (R121). -/
theorem startRequest_of_unset {s : State} {words : List Byte} (hunset : s.charTo = none ∨ s.frameTo = none)
    (hfit : words.length ≤ s.params.bufCap) (op : OpName) (req : ReqContext) :
    startRequest op words req s =
      raise (((s.setBuf 0 words).setTxLen words.length).setReq req) (.timingUnset op) := by
  rw [startRequest, memWrite_of_fits (by omega)]
  exact transact_of_unset hunset

/-- Settles O27: the request is built by whichever template, and TRANSACT raises before it touches the CRC. -/
theorem unsetTimeoutsRaiseTimingUnset : Obligations.UnsetTimeoutsRaiseTimingUnset := by
  intro s i words ha hcap hdev henc hgood hlong hunset
  obtain ⟨hlen, req, hexec⟩ := exec_eq_startRequest ha hdev henc hgood hlong
  refine ⟨Cells.writeList s.buf 0 words, req, ?_, fun a => ?_⟩
  · rw [hexec, startRequest_of_unset hunset (le_trans (by omega) hcap)]
    rfl
  · simp [Cells.read_writeList]

end Sys2Proof.Machine
end

section
/-! SUPPORT. The engine's phases before PARSE: the step at an engine draw is the rule of its phase, and each window
measured at a draw has run out or has not (O30 to O36). -/

namespace Sys2Proof.Machine

section
variable {s : State} {n : Nat} {es : List Event}

/-- The step at an engine draw is whatever rule the engine has for the phase (R131). -/
theorem step_phase {p : Phase} {rule : State → Out} (h : EngineAt s p n es)
    (hrule : ∀ u : State, u.phase = p → engineStep u = rule u) : step s = rule (s.drawn n es) :=
  (step_at h).trans (hrule _ h.phase)

theorem step_flushStale (h : EngineAt s .flushStale n es) : step s = phaseFlushStale (s.drawn n es) :=
  step_phase h fun u hu => by simp only [engineStep, hu]

theorem step_transmit (h : EngineAt s .transmit n es) : step s = phaseTransmit (s.drawn n es) :=
  step_phase h fun u hu => by simp only [engineStep, hu]

theorem step_rxWait (h : EngineAt s .rxWait n es) : step s = phaseRxWait (s.drawn n es) :=
  step_phase h fun u hu => by simp only [engineStep, hu]

theorem step_rxBytes (h : EngineAt s .rxBytes n es) : step s = phaseRxBytes (s.drawn n es) :=
  step_phase h fun u hu => by simp only [engineStep, hu]

theorem step_rxSilence (h : EngineAt s .rxSilence n es) : step s = phaseRxSilence (s.drawn n es) :=
  step_phase h fun u hu => by simp only [engineStep, hu]

theorem step_validate (h : EngineAt s .validate n es) : step s = phaseValidate (s.drawn n es) :=
  step_phase h fun u hu => by simp only [engineStep, hu]

theorem step_parse (h : EngineAt s .parse n es) : step s = parse (s.drawn n es) :=
  step_phase h fun u hu => by simp only [engineStep, hu]

/-- What an answer that waits for a window is on either side of its end (R117). -/
theorem window_cases {m : Nat} {w : Word32} {o late early : Out}
    (ho : o = if expired (s.drawn n es) m w then late else early) :
    (w.toNat ≤ s.between m n → o = late) ∧ (s.between m n < w.toNat → o = early) := by
  subst ho
  refine ⟨fun h => ?_, fun h => ?_⟩
  · rw [expired_of_le (by rwa [elapsed_drawn]), if_pos rfl]
  · rw [expired_of_lt (by rwa [elapsed_drawn])]
    rfl

/-- Drawing leaves what `BUF` holds. -/
theorem Holds.drawn {d : List Byte} (h : Holds s d) (n : Nat) (es : List Event) : Holds (s.drawn n es) d :=
  h.congr rfl rfl

end

/-- Settles O30: a byte discarded, or the window `FRAME_TO`. -/
theorem flushStaleDiscardsUntilSilence : Obligations.FlushStaleDiscardsUntilSilence := by
  intro s n es h
  rw [step_flushStale h]
  exact ⟨fun b q hq => phaseFlushStale_of_byte (s := s.drawn n es) hq,
    fun m w hq hm hw => window_cases (phaseFlushStale_of_silence (s := s.drawn n es) hq hm hw)⟩

/-- Settles O31: the frame sent, then the wait for a response. -/
theorem transmitSendsTheFrame : Obligations.TransmitSendsTheFrame := by
  intro s n es f r h hd hl hr he
  rw [step_transmit h, phaseTransmit_of_holds (hd.drawn n es) hl]
  exact afterTransmit_of_expect (s := (s.drawn n es).transmitted f) hr he

/-- Settles O32: the frame sent, then the end. -/
theorem broadcastEndsInTransmit : Obligations.BroadcastEndsInTransmit := by
  intro s n es f r h hd hl hr he
  rw [step_transmit h, phaseTransmit_of_holds (hd.drawn n es) hl]
  exact afterTransmit_of_broadcast (s := (s.drawn n es).transmitted f) hr he

/-- Settles O33: a byte stored, or the window `RESP_TO`. -/
theorem rxWaitAwaitsTheFirstByte : Obligations.RxWaitAwaitsTheFirstByte := by
  intro s n es hcap h
  rw [step_rxWait h]
  exact ⟨fun b q hq => phaseRxWait_of_byte (s := s.drawn n es) (le_trans (by decide) hcap) hq,
    fun m hq hm => window_cases (phaseRxWait_of_silence (s := s.drawn n es) hq hm)⟩

/-- Settles O34: a full buffer, a byte stored, or the window `CHAR_TO`. -/
theorem rxBytesStoresUntilAGap : Obligations.RxBytesStoresUntilAGap := by
  intro s n es h
  rw [step_rxBytes h]
  exact ⟨fun hfull => phaseRxBytes_of_full (s := s.drawn n es) hfull,
    fun b q hl hq => phaseRxBytes_of_byte (s := s.drawn n es) hl hq,
    fun m w hl hq hm hw => window_cases (phaseRxBytes_of_silence (s := s.drawn n es) hl hq hm hw)⟩

/-- Settles O35: the window `FRAME_TO`, whatever `RXQ` holds. -/
theorem rxSilenceWaitsFrameTo : Obligations.RxSilenceWaitsFrameTo := by
  intro s n m w es h hm hw
  rw [step_rxSilence h]
  exact window_cases (phaseRxSilence_of_set (s := s.drawn n es) hm hw)

/-- VALIDATE of a frame that is still arriving (R128). -/
theorem phaseValidate_of_arriving {s : State} (hq : s.rxq ≠ []) : phaseValidate s = fail s .communicationTimeout :=
  if_pos hq

/-- VALIDATE of a frame too short to have a result (R128). -/
theorem phaseValidate_of_short {s : State} (hq : s.rxq = []) (hl : s.rxLen < 3) :
    phaseValidate s = fail s .frameIntegrityError := by
  rw [phaseValidate, if_neg (not_not.2 hq), if_pos hl]

/-- Settles O36: bytes available, then the length, then the CRC. -/
theorem validateJudgesTheFrame : Obligations.ValidateJudgesTheFrame := by
  intro s n es h
  rw [step_validate h]
  refine ⟨fun hq => phaseValidate_of_arriving (s := s.drawn n es) hq,
    fun hq hl => phaseValidate_of_short (s := s.drawn n es) hq hl, fun d l u hq h3 hd hl => ?_⟩
  rw [phaseValidate_of_holds (s := s.drawn n es) hq h3 (hd.drawn n es) hl, apply_ite Host.Outcome.next]
  rfl

end Sys2Proof.Machine
end

section
/-! SUPPORT. PARSE_HEADER, and the exception response as a row of its own (O8, O37, O38). -/

namespace Sys2Proof.Machine

/-- PARSE_HEADER of three bytes that could be read, check by check (R134). -/
theorem parseHeader_of_bytes (req : ReqContext) (id fc code : Byte) (s : State) (k : Out) :
    parseHeader req (.ok id) (.ok fc) (.ok code) s k =
      if s.params.checkResponseId = true ∧ id ≠ req.id then .next (s.failed .protocolMismatch)
      else if fc = exceptionFc (fcByte req.fc) then
        if respLen s = 3 then .next ((s.setExc code).failed .deviceException)
        else .next (s.failed .frameIntegrityError)
      else if fc ≠ fcByte req.fc then .next (s.failed .protocolMismatch)
      else k := rfl

/-- Settles O8: the three bytes decode to one operation, and PARSE of them is that operation. -/
theorem stepRunsTheExceptionResponseReceived : Obligations.StepRunsTheExceptionResponseReceived := by
  intro s n es r b0 b1 b2 rest i h hr hd hmsb hdec
  obtain ⟨fc, rfl⟩ : ∃ fc, b1 = exceptionFcOf fc := ⟨_, (exceptionFcOf_of_msb hmsb).symm⟩
  rw [decode_exceptionResponse] at hdec
  cases hdec
  rw [step_parse h]
  exact parse_eq_exec_exceptionResponse (s := s.drawn n es) h.noFault hr (hd.drawn n es)

/-- Settles O37: the checks in their order. -/
theorem parseHeaderChecksTheResponse : Obligations.ParseHeaderChecksTheResponse := by
  intro s n es r b0 b1 b2 rest h hr hd
  rw [step_parse h, parse_of_holds (s := s.drawn n es) hr (hd.drawn n es), parseHeader_of_bytes]
  refine ⟨fun hid => if_pos hid, fun hid => ?_⟩
  rw [if_neg (show ¬ ((s.drawn n es).params.checkResponseId = true ∧ b0 ≠ r.id) from hid)]
  refine ⟨fun hexc hlen => ?_, fun hexc hlen => ?_, fun hexc hfc => ?_, fun hfc => ?_⟩
  · exact (if_pos hexc).trans (if_pos hlen)
  · exact (if_pos hexc).trans (if_neg hlen)
  · exact (if_neg hexc).trans (if_pos hfc)
  · have hexc : b1 ≠ exceptionFc (fcByte r.fc) := fun he => exceptionFc_ne_fcByte _ _ (he.symm.trans hfc)
    exact (if_neg hexc).trans (if_neg (not_not.2 hfc))

/-- Settles O38: PARSE_HEADER's checks on the three bytes of an exception response. -/
theorem exceptionResponseSetsExc : Obligations.ExceptionResponseSetsExc := by
  intro s r id code fc hf hr
  have hexec : exec (.exceptionResponse id fc code) s =
      parseHeader r (.ok id) (.ok (exceptionFcOf fc)) (.ok code) s (.next (s.failed .protocolMismatch)) := by
    simp only [exec, execExceptionResponse, unlessStopped_of_running hf, readReq_some hr, orRaise_ok]
    rfl
  rw [hexec, parseHeader_of_bytes]
  simp only [exceptionFcOf_eq_exceptionFc_iff, ite_self, apply_ite Host.Outcome.next]
  rfl

end Sys2Proof.Machine
end

section
/-! SUPPORT. What a step does to `TXLOG` and to `PHASE` (O49, O51). -/

namespace Sys2Proof.Machine

/-! ## `TXLOG` -/

/-- An engine step leaves `TXLOG` alone, or is TRANSMIT's and appends the frame that lies in `BUF` (R123). -/
theorem engineStep_txlog {s t : State} (hs : engineStep s = .next t) :
    t.txlog = s.txlog ∨
    (s.phase = .transmit ∧ ∃ f, memRead s 0 (s.txLen + 2) = .ok f ∧ t.txlog = s.txlog ++ [f]) := by
  cases engineStep_move hs with
  | sentRequest f hp hm | sentBroadcast f hp hm | sentUnset f hp hm => exact .inr ⟨hp, f, hm, rfl⟩
  | stay | raised | raisedReading | raisedSending | discarded | flushed | firstByte | nextByte | received | silent
  | validated | failed | captured | wrote | readBits | readRegisters | presented => exact .inl (by simp)

/-- Bytes read from index 0 on are those of `BUF`. -/
theorem read_of_memRead {s : State} {n : Nat} {d : List Byte} (h : memRead s 0 n = .ok d) :
    d.length = n ∧ ∀ i, i < d.length → Cells.read s.buf i = d[i]? := by
  obtain ⟨hl, hread⟩ := memRead_ok_iff.1 h
  refine ⟨hl, fun i hi => ?_⟩
  obtain ⟨b, hb, hbuf⟩ := hread i (by omega)
  rw [Nat.zero_add] at hbuf
  exact (readByte_ok_iff.1 hbuf).2.trans hb.symm

/-- Settles O49: TRANSMIT is the one writer of `TXLOG`. -/
theorem txlogGrowsOnlyInTransmit : Obligations.TxlogGrowsOnlyInTransmit := by
  intro s t hs
  rcases step_cases hs with ⟨_, rfl⟩ | ⟨b, es, _, rfl⟩ | ⟨n, es, f, _, _, rfl⟩ | ⟨n, es, _, hf, hs⟩ |
    ⟨n, r, es, i, _, hi, hs⟩ | ⟨name, v, es, _, _, rfl⟩ | ⟨name, v, es, _, _, rfl⟩ | ⟨es, _, rfl⟩
  · exact .inl rfl
  · exact .inl rfl
  · exact .inl rfl
  · refine (engineStep_txlog hs).imp_right ?_
    rintro ⟨hp, f, hm, ht⟩
    obtain ⟨hl, hread⟩ := read_of_memRead hm
    exact ⟨hf, hp, f, hl, hread, ht⟩
  · obtain ⟨_, _, ht, _⟩ := issuingDoesNoIO _ _ i (fetch_atPort hi) hs
    exact .inl ht
  · exact .inl rfl
  · exact .inl rfl
  · exact .inl rfl

/-! ## `PHASE` -/

/-- An engine step that meets the invariant stays in its phase or moves along a row of R132's table. -/
theorem engineStep_phase {s t : State} (h : Inv s) (hs : engineStep s = .next t) :
    t.phase = s.phase ∨
    (s.phase, t.phase) ∈
      [(Phase.flushStale, Phase.transmit), (.transmit, .idle), (.transmit, .rxWait), (.rxWait, .rxBytes),
       (.rxWait, .idle), (.rxBytes, .rxSilence), (.rxSilence, .validate), (.validate, .idle), (.validate, .parse),
       (.parse, .idle)] := by
  cases engineStep_move hs with
  | presented hp => exact (hp.elim h.notPresenting.1 h.notPresenting.2).elim
  | failed k hp => rcases hp with hp | hp | hp <;> simp [hp]
  | flushed hp | sentRequest f hp | sentBroadcast f hp | firstByte b q hp | received hp | silent hp | validated hp
  | captured r c hp | wrote r hp | readBits r name v hp | readRegisters r name v hp => simp [hp]
  | stay | raised | raisedReading | raisedSending | discarded | sentUnset | nextByte => exact .inl (by simp)

/-- An operation at the port leaves the phase, or starts a request from IDLE (R40, R120). -/
theorem PortMove.phase {i : Instr} {s t : State} (h : PortMove i s t) :
    t.phase = s.phase ∨ (s.phase = .idle ∧ t.phase = .flushStale) := by
  cases h with
  | started words req c f hp => exact .inr ⟨hp, rfl⟩
  | overrun _ _ _ _ u _ _ _ hu => obtain rfl | rfl := hu <;> exact .inl rfl
  | configured _ _ _ hp | respToSet _ _ hp | excRead _ hp | rejected hp => exact .inl (by simp [hp])
  | reentered | tooShort | unset => exact .inl rfl

/-- Settles O51: the engine's moves, the start of a request, and reset. -/
theorem phaseMovesOnlyAsTheTableSays : Obligations.PhaseMovesOnlyAsTheTableSays := by
  intro s t h hs
  rcases step_cases hs with ⟨_, rfl⟩ | ⟨b, es, _, rfl⟩ | ⟨n, es, f, _, _, rfl⟩ | ⟨n, es, _, _, hs⟩ |
    ⟨n, r, es, i, _, hi, hs⟩ | ⟨name, v, es, _, _, rfl⟩ | ⟨name, v, es, _, _, rfl⟩ | ⟨es, hd, rfl⟩
  · exact .inl rfl
  · exact .inl rfl
  · exact .inl rfl
  · refine (engineStep_phase ((h.setSchedule es).setNow n) hs).imp_right fun hrow => .inl ?_
    exact List.mem_cons_of_mem _ hrow
  · refine (exec_atPort_move (fetch_atPort hi) hs).2.phase.imp_right ?_
    rintro ⟨hp, ht⟩
    exact .inl (by rw [show s.phase = .idle from hp, ht]; exact List.mem_cons_self)
  · exact .inl rfl
  · exact .inl rfl
  · exact .inr (.inr ⟨es, hd, rfl⟩)

end Sys2Proof.Machine
end

section
/-! SUPPORT. A request from its issue to TRANSMIT on a silent line, and a broadcast to its end (O57). -/

namespace Sys2Proof.Machine

/-- A well-formed write starts the request it is encoded in, and expects a response exactly from an id other than 0
(R170). -/
theorem write_started {s : State} {c f : Word32} {i : Instr} {id : Byte} {words : List Byte} (ha : Accepts s)
    (hcfg : Configured s c f) (hcap : s.params.wf)
    (hi : (∃ addr value, i = .writeSingleCoil id addr value) ∨
      (∃ addr value, i = .writeSingleRegister id addr value) ∨
      (∃ addr data qty, i = .writeMultipleCoils id addr data qty) ∨
      (∃ addr data qty, i = .writeMultipleRegisters id addr data qty))
    (hwf : i.wf = true) (henc : encode i = some words) :
    i.op.atPort = true ∧ ∃ t req, exec i s = .next t ∧ RequestStarted s t words req ∧
      req.expect = decide (id ≠ 0#8) := by
  rcases hi with ⟨addr, value, rfl⟩ | ⟨addr, value, rfl⟩ | ⟨addr, data, qty, rfl⟩ | ⟨addr, data, qty, rfl⟩
  · rw [encode_writeSingleCoil] at henc
    cases henc
    obtain ⟨t, ht, hs⟩ := writeSingle_started ha hcfg hcap (of_decide_eq_true hwf) .writeSingleCoil addr
      (coilValue value)
    exact ⟨rfl, t, _, ht, hs, rfl⟩
  · cases henc
    obtain ⟨t, ht, hs⟩ := writeSingle_started ha hcfg hcap (of_decide_eq_true hwf) .writeSingleRegister addr value
    exact ⟨rfl, t, _, ht, hs, rfl⟩
  · obtain ⟨l, rfl, hq, hl⟩ := exists_data_of_wf (fc := .writeMultipleCoils) hwf
    simp only [Instr.wf, writeId, qtyInRange, Bool.and_eq_true, decide_eq_true_eq] at hwf
    obtain ⟨⟨hid, hq1, _⟩, _⟩ := hwf
    cases henc
    obtain ⟨t, ht, hs⟩ := writeMultiple_started (fc := .writeMultipleCoils) (pack := packBits) ha hcfg hcap hid hq1
      hq hl (by rw [packBits_length]; simp only [qtyMax] at hq; omega) .bit addr
    exact ⟨rfl, t, _, ht, hs, rfl⟩
  · obtain ⟨l, rfl, hq, hl⟩ := exists_data_of_wf (fc := .writeMultipleRegisters) hwf
    simp only [Instr.wf, writeId, qtyInRange, Bool.and_eq_true, decide_eq_true_eq] at hwf
    obtain ⟨⟨hid, hq1, _⟩, _⟩ := hwf
    cases henc
    obtain ⟨t, ht, hs⟩ := writeMultiple_started (fc := .writeMultipleRegisters) (pack := packRegs) ha hcfg hcap hid
      hq1 hq hl (by rw [packRegs_length l _ hl]; simp only [qtyMax] at hq; omega) .register addr
    exact ⟨rfl, t, _, ht, hs, rfl⟩

/-- `FRAME_TO` after a request was started on a silent line, the block goes on to TRANSMIT (R122). -/
theorem step_flushStale_of_started {s t : State} {words : List Byte} {req : ReqContext} {f : Word32} {now : Nat}
    {es : List Event} (h : RequestStarted (s.drawn now (.tick (now + f.toNat) :: es)) t words req)
    (hf : s.fault = none) (hq : s.rxq = []) (hfr : s.frameTo = some f) (hclock : f.toNat < 2 ^ s.params.clockBits) :
    step t = .next ((t.drawn (now + f.toNat) es).setPhase .transmit) := by
  obtain ⟨ht, -⟩ := h
  have hat : EngineAt t .flushStale (now + f.toNat) es := by rw [ht]; exact ⟨hf, rfl, rfl⟩
  have hparams : t.params = s.params := by rw [ht]; rfl
  have hmark : t.tMark = some (t.clockAt now) := by rw [ht]; rfl
  have hwindow : t.between (t.clockAt now) (now + f.toNat) = f.toNat := between_window (by rwa [hparams])
  obtain ⟨-, hsilence⟩ := flushStaleDiscardsUntilSilence t _ es hat
  exact (hsilence _ f (by rw [ht]; exact hq) hmark (by rw [ht]; exact hfr)).1 hwindow.ge

/-- TRANSMIT of a broadcast that was started, `FRAME_TO` after its start: the frame goes out, and the operation succeeds
(R124). -/
theorem step_transmit_of_started {s t : State} {words : List Byte} {req : ReqContext} {m n : Nat} {es : List Event}
    (h : RequestStarted s t words req) (hf : s.fault = none) (hcap : s.params.wf) (hl : words.length ≤ 253)
    (hexpect : req.expect = false) :
    step ((t.drawn m (.tick n :: es)).setPhase .transmit) =
      .next ((((t.drawn m (.tick n :: es)).setPhase .transmit).drawn n es).transmitted (withCrc words)).succeeded := by
  have hholds := holds_of_started h hl hcap
  obtain ⟨ht, -⟩ := h
  refine broadcastEndsInTransmit _ n es _ req ⟨?_, rfl, rfl⟩ (hholds.congr rfl rfl) ?_ ?_ hexpect
  · rw [ht]; exact hf
  · rw [ht]; simp
  · rw [ht]; simp

/-- Settles O57: the request starts, FLUSH_STALE ends, TRANSMIT sends the frame and ends the operation. -/
theorem broadcastWriteCompletes : Obligations.BroadcastWriteCompletes := by
  intro s c f now t i frame es ha hcfg hcap hq hi hwf henc hclock hs
  obtain ⟨words, hwords, rfl⟩ := Option.map_eq_some_iff.1 henc
  obtain ⟨hport, u, req, hexec, hstarted, hexpect⟩ := write_started
    (s := s.drawn now (.tick (now + f.toNat) :: .tick t :: es)) ⟨ha.idle, ha.noFault⟩
    ⟨hcfg.charTo, hcfg.frameTo⟩ hcap hi hwf hwords
  have hissue : step s = .next u := (step_issue_of_fetch hs ha.noFault (fetch_byName hport)).trans hexec
  have hflush := step_flushStale_of_started hstarted ha.noFault hq hcfg.frameTo hclock
  have hsend := step_transmit_of_started (m := now + f.toNat) (n := t) (es := es) hstarted ha.noFault hcap
    (length_le_of_encode hwf hwords) hexpect
  have hrun := (steps_add (steps_one hissue) _).trans ((steps_add (steps_one hflush) _).trans (steps_one hsend))
  obtain ⟨hu, -⟩ := hstarted
  refine ⟨_, hrun, succeeded_presented ?_, rfl, ?_, ?_, rfl⟩
  · rw [hu]; exact ha.noFault
  · rw [hu]; rfl
  · rw [hu]; rfl

end Sys2Proof.Machine
end

section
/-! SUPPORT. The end of a read: R155's checks on a normal response, and the items of the output buffer (O39, O40). -/

namespace Sys2Proof.Machine

/-! ## The items read, in the output buffer -/

theorem getD_take_of_lt {α : Type} (d : List α) {i n : Nat} (h : i < n) (x : α) : (d.take n).getD i x = d.getD i x := by
  rw [List.getD_eq_getElem?_getD, List.getElem?_take_of_lt h, ← List.getD_eq_getElem?_getD]

/-- UNPACK(bit) looks at `byteCount` bytes alone (R156). -/
theorem unpackBits_take_getElem? (d : List Byte) {qty i : Nat} (h : i < qty) :
    (unpackBits (d.take (byteCount .bit qty)) qty)[i]? = some ((d.getD (i >>> 3) 0#8).getLsbD (i &&& 7)) := by
  have hbyte : i / 8 < byteCount .bit qty := by simp only [byteCount]; omega
  rw [unpackBits_getElem? _ _ _ h, getD_take_of_lt d hbyte, shiftRight_three, and_seven]

/-- UNPACK(register) looks at `byteCount` bytes alone (R157). -/
theorem unpackRegs_take_getElem? (d : List Byte) {qty k : Nat} (h : k < qty) :
    (unpackRegs (d.take (byteCount .register qty)) qty)[k]? =
      some (join (d.getD (2 * k) 0#8) (d.getD (2 * k + 1) 0#8)) := by
  have hlow : 2 * k + 1 < byteCount .register qty := by simp only [byteCount]; omega
  rw [unpackRegs_getElem? _ _ _ h, getD_take_of_lt d hlow, getD_take_of_lt d (Nat.lt_of_succ_lt hlow)]

/-- The host's buffers after `qty` items of one have been written: item `i` below `qty` is `item i`, and nothing else has
changed (R156, R157). -/
theorem exists_overlaid {α : Type} {item : Nat → α} {new old : List α} {qty : Nat} (hnew : new.length = qty)
    (hold : qty ≤ old.length) (hitem : ∀ i, i < qty → new[i]? = some (item i)) (m : List (BufName × List α))
    (name : BufName) :
    ∃ v, Cells.read (Cells.write m name (overlay new old)) name = some v ∧ v.length = old.length ∧
      (∀ i, i < qty → v[i]? = some (item i)) ∧ (∀ i, qty ≤ i → v[i]? = old[i]?) ∧
      ∀ other, other ≠ name → Cells.read (Cells.write m name (overlay new old)) other = Cells.read m other := by
  subst hnew
  obtain ⟨hlen, hbelow, habove⟩ := overlay_spec new old hold
  exact ⟨_, Cells.read_write_same _ _ _, hlen, fun i hi => (hbelow i hi).trans (hitem i hi), habove,
    fun _ hne => Cells.read_write_other _ _ hne⟩

/-! ## The checks -/

theorem finishResponse_of_bits {r : ReqContext} (hfc : r.fc = .readCoils ∨ r.fc = .readDiscreteInputs) (s : State) :
    finishResponse r s = finishReadBits r s := by
  rcases hfc with hfc | hfc <;> rw [finishResponse, hfc] <;> rfl

theorem finishResponse_of_registers {r : ReqContext}
    (hfc : r.fc = .readHoldingRegisters ∨ r.fc = .readInputRegisters) (s : State) :
    finishResponse r s = finishReadRegisters r s := by
  rcases hfc with hfc | hfc <;> rw [finishResponse, hfc] <;> rfl

/-- A normal response from an accepted address is handed to its function code's own checks (R134). -/
theorem step_of_normal_response {s : State} {n : Nat} {es : List Event} {r : ReqContext} {id bc : Byte} {d : List Byte}
    (h : EngineAt s .parse n es) (hr : s.req = some r) (hid : s.params.checkResponseId = true → id = r.id)
    (hd : Holds s ([id, fcByte r.fc, bc] ++ d)) : step s = finishResponse r (s.drawn n es) := by
  rw [step_parse h, parse_of_holds (s := s.drawn n es) hr (hd.drawn n es)]
  exact parseHeader_of_normal (s := s.drawn n es) hid

/-- PARSE_READ of a response that `BUF` holds, in R155's order: the length, the byte count, the data bytes. -/
theorem parseRead_checks {unit : DataUnit} {s : State} {r : ReqContext} {b0 b1 bc : Byte} {d : List Byte}
    {k : List Byte → Out} (hd : Holds s ([b0, b1, bc] ++ d)) (hl : d.length + 3 = s.rxLen) :
    (s.rxLen - 2 ≠ 3 + byteCount unit r.qty.toNat →
      parseRead unit r s k = .next (s.failed .frameIntegrityError)) ∧
    (s.rxLen - 2 = 3 + byteCount unit r.qty.toNat → bc.toNat ≠ byteCount unit r.qty.toNat →
      parseRead unit r s k = .next (s.failed .frameIntegrityError)) ∧
    (s.rxLen - 2 = 3 + byteCount unit r.qty.toNat → bc.toNat = byteCount unit r.qty.toNat →
      parseRead unit r s k = k (d.take (byteCount unit r.qty.toNat))) := by
  rw [parseRead_of_holds hd hl]
  refine ⟨fun hlen => if_pos hlen, fun hlen hbc => ?_, fun hlen hbc => ?_⟩
  · exact (if_neg (not_not.2 hlen)).trans (if_pos hbc)
  · exact (if_neg (not_not.2 hlen)).trans (if_neg (not_not.2 hbc))

/-- Settles O39: R155's checks, then UNPACK(bit) over the buffer. -/
theorem readOfBitsUnpacksTheResponse : Obligations.ReadOfBitsUnpacksTheResponse := by
  intro s n es r id bc d name old h hr hfc hid hout hbuf hold hd hl
  rw [step_of_normal_response h hr hid hd, finishResponse_of_bits hfc]
  obtain ⟨hlength, hcount, hgood⟩ := parseRead_checks (unit := .bit) (r := r) (hd.drawn n es) hl
  refine ⟨hlength, hcount, fun hlen hbc => ?_⟩
  obtain ⟨new, hspec⟩ := exists_overlaid (unpackBits_length (d.take (byteCount .bit r.qty.toNat)) r.qty.toNat) hold
    (fun i hi => unpackBits_take_getElem? d hi) s.bitBufs name
  refine ⟨_, new, (hgood hlen hbc).trans ?_, hspec⟩
  simp only [hout, State.drawn_bitBufs, hbuf, Option.getD_some]
  rfl

/-- Settles O40: R155's checks, then UNPACK(register) over the buffer. -/
theorem readOfRegistersUnpacksTheResponse : Obligations.ReadOfRegistersUnpacksTheResponse := by
  intro s n es r id bc d name old h hr hfc hid hout hbuf hold hd hl
  rw [step_of_normal_response h hr hid hd, finishResponse_of_registers hfc]
  obtain ⟨hlength, hcount, hgood⟩ := parseRead_checks (unit := .register) (r := r) (hd.drawn n es) hl
  refine ⟨hlength, hcount, fun hlen hbc => ?_⟩
  obtain ⟨new, hspec⟩ := exists_overlaid (unpackRegs_length (d.take (byteCount .register r.qty.toNat)) r.qty.toNat) hold
    (fun k hk => unpackRegs_take_getElem? d hk) s.wordBufs name
  refine ⟨_, new, (hgood hlen hbc).trans ?_, hspec⟩
  simp only [hout, State.drawn_wordBufs, hbuf, Option.getD_some]
  rfl

end Sys2Proof.Machine
end

section
/-! SUPPORT. A whole exchange, from the issue of an operation that expects a response up to the PARSE of that response,
and its end for the four reads (O58, O59). -/

namespace Sys2Proof.Machine

/-! ## The response, from RX_WAIT to PARSE -/

/-- `u` is `s` after the bytes `d` have been received, in phase `p`, with `T_MARK` at `m` and before the draws `es`. -/
structure Received (s u : State) (p : Phase) (d : List Byte) (m : Nat) (es : List Event) : Prop where
  holds : Holds u d
  eq : u = { s with
    phase := p, rxq := [], rxLen := d.length, buf := u.buf, now := u.now, tMark := some m, schedule := es }

section
variable {s u : State} {d : List Byte} {m n t : Nat} {es : List Event}

theorem Received.engineAt {p : Phase} (h : Received s u p d m (.tick n :: es)) (hf : s.fault = none) :
    EngineAt u p n es := by
  rw [h.eq]
  exact ⟨hf, rfl, rfl⟩

/-- A step that moves the phase, the mark, the clock and the draws alone. -/
theorem Received.move {p p' : Phase} {m' : Nat} {es' : List Event} {v : State} (h : Received s u p d m es)
    (hv : v = { u with phase := p', tMark := some m', now := v.now, schedule := es' }) :
    Received s v p' d m' es' := by
  refine ⟨h.holds.congr (by rw [hv]) (by rw [hv]), ?_⟩
  rw [hv, h.eq]

/-- Bytes that arrive in RX_WAIT, and are then read one a step (R125, R126). -/
theorem steps_receive_from_rxWait (hcap : s.params.wf) (hf : s.fault = none) (hp : s.phase = .rxWait)
    (hq : s.rxq = []) (hd : d ≠ []) (hfit : d.length ≤ s.params.bufCap)
    (hs : s.schedule = d.map .deliver ++ d.map (fun _ => .tick t) ++ es) :
    ∃ u, steps (d.length + d.length) s = .next u ∧ Received s u .rxBytes d (s.clockAt t) es := by
  rw [List.append_assoc] at hs
  rw [steps_add (steps_deliver d s _ hs), hq, List.nil_append]
  obtain ⟨b, q, rfl⟩ := List.exists_cons_of_ne_nil hd
  set later := q.map (fun _ => Event.tick t) ++ es
  set delivered : State := { s with rxq := b :: q, schedule := .tick t :: later }
  set first : State := { delivered.drawn t later with
    rxq := q, buf := Cells.write s.buf 0 b, rxLen := 1, tMark := some (s.clockAt t), phase := .rxBytes }
  have hstep : step delivered = .next first := by
    obtain ⟨hbyte, -⟩ := rxWaitAwaitsTheFirstByte delivered t later hcap ⟨hf, hp, rfl⟩
    exact hbyte b q rfl
  have hholds : Holds first [b] := holds_of_buf_eq (m := s.buf) rfl (le_trans (by simp) hcap)
  obtain ⟨u, hu, hall, heq⟩ := steps_receive q [b] first t es hf rfl rfl rfl rfl hholds
    ((Nat.add_comm 1 q.length).trans_le hfit) rfl
  refine ⟨u, ?_, hall, ?_⟩
  · rw [List.length_cons, Nat.add_comm]
    exact (steps_add (steps_one hstep) q.length).trans hu
  · rw [heq]
    simp [State.drawn, first, delivered, Nat.add_comm]

/-- The line silent for `CHAR_TO` after the last byte (R126). -/
theorem Received.step_gap {c : Word32} (h : Received s u .rxBytes d (s.clockAt t) (.tick (t + c.toNat) :: es))
    (hf : s.fault = none) (hc : s.charTo = some c) (hclock : c.toNat < 2 ^ s.params.clockBits)
    (hfit : d.length < s.params.bufCap) :
    ∃ v, step u = .next v ∧ Received s v .rxSilence d (s.clockAt (t + c.toNat)) es := by
  have hwindow : s.between (s.clockAt t) (t + c.toNat) = c.toNat := between_window hclock
  obtain ⟨-, -, hgap⟩ := rxBytesStoresUntilAGap u _ es (h.engineAt hf)
  refine ⟨_, (hgap (s.clockAt t) c ?_ ?_ ?_ ?_).1 ?_, ?_⟩
  · rw [h.eq]; exact hfit
  · rw [h.eq]
  · rw [h.eq]
  · rw [h.eq]; exact hc
  · rw [h.eq]; exact hwindow.ge
  · refine h.move ?_
    rw [h.eq]
    rfl

/-- The line silent for `FRAME_TO` after that (R127). -/
theorem Received.step_silence {f : Word32} (h : Received s u .rxSilence d (s.clockAt t) (.tick (t + f.toNat) :: es))
    (hf : s.fault = none) (hfr : s.frameTo = some f) (hclock : f.toNat < 2 ^ s.params.clockBits) :
    ∃ v, step u = .next v ∧ Received s v .validate d (s.clockAt t) es := by
  have hwindow : s.between (s.clockAt t) (t + f.toNat) = f.toNat := between_window hclock
  refine ⟨_, (rxSilenceWaitsFrameTo u _ (s.clockAt t) f es (h.engineAt hf) ?_ ?_).1 ?_, ?_⟩
  · rw [h.eq]
  · rw [h.eq]; exact hfr
  · rw [h.eq]; exact hwindow.ge
  · refine h.move ?_
    rw [h.eq]
    rfl

/-- A frame that ends in its own CRC is accepted (R128). -/
theorem Received.step_validate (h : Received s u .validate (withCrc d) m (.tick n :: es)) (hf : s.fault = none)
    (hd : d ≠ []) : ∃ v, step u = .next v ∧ Received s v .parse (withCrc d) m es := by
  have hlen : u.rxLen = d.length + 2 := by rw [h.eq]; exact withCrc_length d
  have hpos : 0 < d.length := List.length_pos_iff.2 hd
  obtain ⟨-, -, hgood⟩ := validateJudgesTheFrame u n es (h.engineAt hf)
  refine ⟨_, hgood d _ _ ?_ (by omega) h.holds hlen, ?_⟩
  · rw [h.eq]
  · rw [if_pos ⟨rfl, rfl⟩]
    refine h.move ?_
    rw [h.eq]
    rfl

/-- A response received in RX_WAIT, timed and validated (R125 to R128). -/
theorem steps_rxWait_to_parse {c f : Word32} (hcap : s.params.wf) (hf : s.fault = none) (hp : s.phase = .rxWait)
    (hq : s.rxq = []) (hcfg : Configured s c f) (hclockc : c.toNat < 2 ^ s.params.clockBits)
    (hclockf : f.toNat < 2 ^ s.params.clockBits) (hd : d ≠ []) (hl : d.length ≤ 253)
    (hs : s.schedule = (withCrc d).map .deliver ++ (withCrc d).map (fun _ => .tick t) ++
      .tick (t + c.toNat) :: .tick (t + c.toNat + f.toNat) :: .tick n :: es) :
    ∃ u m, steps ((withCrc d).length + (withCrc d).length + 3) s = .next u ∧
      Received s u .parse (withCrc d) m es := by
  have hfit : (withCrc d).length < s.params.bufCap := lt_of_lt_of_le (by rw [withCrc_length]; omega) hcap
  obtain ⟨u1, hread, h1⟩ := steps_receive_from_rxWait hcap hf hp hq (by simp [withCrc]) hfit.le hs
  obtain ⟨u2, hgap, h2⟩ := h1.step_gap hf hcfg.charTo hclockc hfit
  obtain ⟨u3, hsilence, h3⟩ := h2.step_silence hf hcfg.frameTo hclockf
  obtain ⟨u4, hvalid, h4⟩ := h3.step_validate hf hd
  have hend : steps 3 u1 = .next u4 :=
    (steps_add (steps_one hgap) 2).trans ((steps_add (steps_one hsilence) 1).trans (steps_one hvalid))
  exact ⟨u4, _, (steps_add hread 3).trans hend, h4⟩

end

/-! ## The request, from its issue to RX_WAIT -/

/-- In `u` an operation issued in `s` has sent its request `words` and has not ended: what the exchange keeps from the end
of TRANSMIT to PARSE. -/
structure RequestSent (s u : State) (words : List Byte) (req : ReqContext) : Prop where
  params : u.params = s.params
  charTo : u.charTo = s.charTo
  frameTo : u.frameTo = s.frameTo
  noFault : u.fault = none
  req : u.req = some req
  exc : u.exc = 0#8
  txlog : u.txlog = s.txlog ++ [withCrc words]
  bitBufs : u.bitBufs = s.bitBufs
  wordBufs : u.wordBufs = s.wordBufs

/-- Receiving a response keeps all that. -/
theorem RequestSent.received {s w u : State} {words : List Byte} {req : ReqContext} (h : RequestSent s w words req)
    {p : Phase} {d : List Byte} {m : Nat} {es : List Event} (hu : Received w u p d m es) :
    RequestSent s u words req := by
  rw [hu.eq]
  exact { h with }

/-- Issued in `s` at any time, `i` starts the request `words`, which expects a response (R150, R170). -/
structure StartsExchange (s : State) (i : Instr) (words : List Byte) (req : ReqContext) : Prop where
  atPort : i.op.atPort = true
  length_le : words.length ≤ 253
  expect : req.expect = true
  started : ∀ now es, ∃ u, exec i (s.drawn now es) = .next u ∧ RequestStarted (s.drawn now es) u words req

section
variable {s : State} {c f : Word32} {i : Instr} {words : List Byte} {req : ReqContext} {now t : Nat}

/-- TRANSMIT of a request that was started, `FRAME_TO` after its start: the frame goes out, and RX_WAIT begins (R123). -/
theorem step_transmit_to_rxWait {u : State} {m n : Nat} {es : List Event} (h : RequestStarted s u words req)
    (hf : s.fault = none) (hq : s.rxq = []) (hcap : s.params.wf) (hl : words.length ≤ 253)
    (hexpect : req.expect = true) :
    ∃ w, step ((u.drawn m (.tick n :: es)).setPhase .transmit) = .next w ∧ RequestSent s w words req ∧
      w.phase = .rxWait ∧ w.rxq = [] ∧ w.schedule = es := by
  have hholds := holds_of_started h hl hcap
  obtain ⟨hu, -⟩ := h
  refine ⟨_, transmitSendsTheFrame _ n es _ req ⟨?_, rfl, rfl⟩ (hholds.congr rfl rfl) ?_ ?_ hexpect, ?_, rfl, ?_, rfl⟩
  · rw [hu]; exact hf
  · rw [hu]; simp
  · rw [hu]; simp
  · rw [hu]; exact ⟨rfl, rfl, rfl, hf, rfl, rfl, rfl, rfl, rfl⟩
  · rw [hu]; exact hq

/-- An operation issued on a silent line has sent its request two draws later (R120, R122, R123). -/
theorem steps_issue_to_rxWait {es : List Event} (ha : Accepts s) (hcfg : Configured s c f) (hcap : s.params.wf)
    (hq : s.rxq = []) (hi : StartsExchange s i words req) (hclock : f.toNat < 2 ^ s.params.clockBits)
    (hs : s.schedule = .issue now (.byName i) :: .tick (now + f.toNat) :: .tick t :: es) :
    ∃ w, steps 3 s = .next w ∧ RequestSent s w words req ∧ w.phase = .rxWait ∧ w.rxq = [] ∧ w.schedule = es := by
  obtain ⟨u, hexec, hstarted⟩ := hi.started now (.tick (now + f.toNat) :: .tick t :: es)
  have hissue : step s = .next u := (step_issue_of_fetch hs ha.noFault (fetch_byName hi.atPort)).trans hexec
  have hflush := step_flushStale_of_started hstarted ha.noFault hq hcfg.frameTo hclock
  obtain ⟨w, hsend, hsent, hw⟩ := step_transmit_to_rxWait (m := now + f.toNat) (n := t) (es := es) hstarted
    ha.noFault hq hcap hi.length_le hi.expect
  have hrun : steps 3 s = .next w :=
    (steps_add (steps_one hissue) 2).trans ((steps_add (steps_one hflush) 1).trans (steps_one hsend))
  exact ⟨w, hrun, { hsent with }, hw⟩

/-! ## From the issue to PARSE -/

/-- The draws of an exchange, split where its phases end. -/
theorem exchange_eq (i : Instr) (now t : Nat) (c f : Word32) (reply : List Byte) :
    exchange i now t c f reply =
      .issue now (.byName i) :: .tick (now + f.toNat) :: .tick t ::
        (reply.map .deliver ++ reply.map (fun _ => .tick t) ++
          [.tick (t + c.toNat), .tick (t + c.toNat + f.toNat), .tick (t + c.toNat + f.toNat),
            .tick (t + c.toNat + f.toNat)]) := by
  simp [exchange]

theorem steps_one_eq_step (s : State) : steps 1 s = step s := by
  rw [steps]
  cases step s <;> rfl

/-- An exchange whose response is a frame with its own CRC comes to the PARSE of that response, with one draw left. -/
theorem exchange_to_parse {d : List Byte} (ha : Accepts s) (hcfg : Configured s c f) (hcap : s.params.wf)
    (hq : s.rxq = []) (hi : StartsExchange s i words req) (hd : d ≠ []) (hl : d.length ≤ 253)
    (hclockc : c.toNat < 2 ^ s.params.clockBits) (hclockf : f.toNat < 2 ^ s.params.clockBits)
    (hs : s.schedule = exchange i now t c f (withCrc d)) :
    ∃ u n, steps s.schedule.length s = step u ∧ RequestSent s u words req ∧ EngineAt u .parse n [] ∧
      Holds u (withCrc d) ∧ u.rxLen = d.length + 2 := by
  obtain ⟨w, hsend, hsent, hp, hqw, hsw⟩ := steps_issue_to_rxWait ha hcfg hcap hq hi hclockf
    (hs.trans (exchange_eq ..))
  obtain ⟨u, m, hreceive, hu⟩ := steps_rxWait_to_parse (hsent.params ▸ hcap) hsent.noFault hp hqw
    ⟨hsent.charTo.trans hcfg.charTo, hsent.frameTo.trans hcfg.frameTo⟩ (hsent.params ▸ hclockc)
    (hsent.params ▸ hclockf) hd hl hsw
  refine ⟨u, _, ?_, hsent.received hu, hu.engineAt hsent.noFault, hu.holds, ?_⟩
  · have hlen : s.schedule.length = 3 + ((withCrc d).length + (withCrc d).length + 3 + 1) := by
      rw [hs]
      simp [exchange]
      omega
    rw [hlen, steps_add hsend, steps_add hreceive, steps_one_eq_step]
  · rw [hu.eq]
    exact withCrc_length d

end

/-! ## The two kinds of reads -/

section
variable {s : State} {c f : Word32} {i : Instr} {fc id : Byte} {addr qty : Word16} {name : BufName}

/-- The request context of a read into the buffer `name` (R150). -/
def readReqContext (code : FuncCode) (id : Byte) (addr qty : Word16) (name : BufName) : ReqContext :=
  { id := id, fc := code, addr := addr, qty := qty, val := 0#16, expect := true, out := some name }

section
variable (ha : Accepts s) (hcfg : Configured s c f) (hcap : s.params.wf) (hid1 : 1 ≤ id.toNat) (hid : id.toNat ≤ 247)
  (hq1 : 1 ≤ qty.toNat)

include ha hcfg hcap hid1 hid hq1

/-- A read of registers whose arguments pass starts its exchange (R150, R153, R154). -/
theorem readRegisters_startsExchange {old : List Word16} (hbuf : Cells.read s.wordBufs name = some old)
    (hold : qty.toNat ≤ old.length) (hq : qty.toNat ≤ 125)
    (hinstr : (i = .readHoldingRegisters id addr (some name) qty ∧ fc = 0x03#8) ∨
      (i = .readInputRegisters id addr (some name) qty ∧ fc = 0x04#8)) :
    ∃ code, (code = .readHoldingRegisters ∨ code = .readInputRegisters) ∧ fc = fcByte code ∧
      StartsExchange s i (header id code addr qty) (readReqContext code id addr qty name) := by
  have hstart now es := (readStartsItsRequest (s.drawn now es) c f id addr qty name ⟨ha.idle, ha.noFault⟩
    ⟨hcfg.charTo, hcfg.frameTo⟩ hcap hid1 hid hq1).2 old hbuf hold hq
  rcases hinstr with ⟨rfl, rfl⟩ | ⟨rfl, rfl⟩
  · exact ⟨_, .inl rfl, rfl, rfl, by simp, rfl, fun now es => (hstart now es).1⟩
  · exact ⟨_, .inr rfl, rfl, rfl, by simp, rfl, fun now es => (hstart now es).2⟩

/-- A read of bits whose arguments pass starts its exchange (R150, R151, R152). -/
theorem readBits_startsExchange {old : List Bool} (hbuf : Cells.read s.bitBufs name = some old)
    (hold : qty.toNat ≤ old.length) (hq : qty.toNat ≤ 2000)
    (hinstr : (i = .readCoils id addr (some name) qty ∧ fc = 0x01#8) ∨
      (i = .readDiscreteInputs id addr (some name) qty ∧ fc = 0x02#8)) :
    ∃ code, (code = .readCoils ∨ code = .readDiscreteInputs) ∧ fc = fcByte code ∧
      StartsExchange s i (header id code addr qty) (readReqContext code id addr qty name) := by
  have hstart now es := (readStartsItsRequest (s.drawn now es) c f id addr qty name ⟨ha.idle, ha.noFault⟩
    ⟨hcfg.charTo, hcfg.frameTo⟩ hcap hid1 hid hq1).1 old hbuf hold hq
  rcases hinstr with ⟨rfl, rfl⟩ | ⟨rfl, rfl⟩
  · exact ⟨_, .inl rfl, rfl, rfl, by simp, rfl, fun now es => (hstart now es).1⟩
  · exact ⟨_, .inr rfl, rfl, rfl, by simp, rfl, fun now es => (hstart now es).2⟩

end

/-- A read answered with the data its quantity asks for comes to PARSE with a response whose length and byte count are
R155's. After the data in `BUF` comes `crc`, the two bytes of the frame's CRC. -/
theorem read_exchange_to_parse {unit : DataUnit} {code : FuncCode} {words data : List Byte} {req : ReqContext}
    {now t : Nat} (ha : Accepts s) (hcfg : Configured s c f) (hcap : s.params.wf) (hq : s.rxq = [])
    (hi : StartsExchange s i words req) (hclockc : c.toNat < 2 ^ s.params.clockBits)
    (hclockf : f.toNat < 2 ^ s.params.clockBits) (hcount : byteCount unit qty.toNat ≤ 250)
    (hdata : data.length = byteCount unit qty.toNat)
    (hs : s.schedule = exchange i now t c f
      (withCrc ([id, fcByte code, BitVec.ofNat 8 (byteCount unit qty.toNat)] ++ data))) :
    ∃ u n crc, steps s.schedule.length s = step u ∧ RequestSent s u words req ∧ EngineAt u .parse n [] ∧
      Holds u ([id, fcByte code, BitVec.ofNat 8 (byteCount unit qty.toNat)] ++ (data ++ crc)) ∧
      (data ++ crc).length + 3 = u.rxLen ∧ u.rxLen - 2 = 3 + byteCount unit qty.toNat ∧
      (BitVec.ofNat 8 (byteCount unit qty.toNat)).toNat = byteCount unit qty.toNat := by
  obtain ⟨u, n, hrun, hsent, hat, hholds, hlen⟩ := exchange_to_parse ha hcfg hcap hq hi (by simp) (by simp; omega)
    hclockc hclockf hs
  rw [withCrc, List.append_assoc] at hholds
  simp only [List.length_append, List.length_cons, List.length_nil] at hlen
  refine ⟨u, n, _, hrun, hsent, hat, hholds, ?_, by omega, ?_⟩
  · simp only [List.length_append, List.length_cons, List.length_nil]
    omega
  · rw [BitVec.toNat_ofNat, Nat.mod_eq_of_lt (by omega)]

end

/-- Settles O58: the exchange up to PARSE, and what the PARSE of a read of registers does (O40). -/
theorem registerReadExchangeDeliversTheData : Obligations.RegisterReadExchangeDeliversTheData := by
  intro s c f now t i fc id addr qty name old data ha hcfg hcap hrxq hid1 hid hq1 hq hbuf hold hi hdata hclockc
    hclockf hs
  obtain ⟨code, hcode, rfl, hstart⟩ := readRegisters_startsExchange ha hcfg hcap hid1 hid hq1 hbuf hold hq hi
  obtain ⟨u, n, crc, hrun, hsent, hat, hholds, hlen, hlength, hcount⟩ := read_exchange_to_parse (unit := .register) ha
    hcfg hcap hrxq hstart hclockc hclockf (byteCount_register_le hq) hdata hs
  obtain ⟨-, -, hgood⟩ := readOfRegistersUnpacksTheResponse u n [] _ id _ _ name old hat hsent.req hcode (fun _ => rfl)
    rfl (hsent.wordBufs ▸ hbuf) hold hholds hlen
  obtain ⟨bufs, new, hstep, hread, hnew, hbelow, habove, -⟩ := hgood hlength hcount
  refine ⟨_, new, hrun.trans hstep, succeeded_presented hsent.noFault, hsent.exc, hsent.txlog, hread, hnew,
    fun k hk => ?_, habove⟩
  rw [hbelow k hk, List.getD_append _ _ _ _ (by omega), List.getD_append _ _ _ _ (by omega)]

/-- Settles O59: the exchange up to PARSE, and what the PARSE of a read of bits does (O39). -/
theorem bitReadExchangeDeliversTheData : Obligations.BitReadExchangeDeliversTheData := by
  intro s c f now t i fc id addr qty name old data ha hcfg hcap hrxq hid1 hid hq1 hq hbuf hold hi hdata hclockc
    hclockf hs
  obtain ⟨code, hcode, rfl, hstart⟩ := readBits_startsExchange ha hcfg hcap hid1 hid hq1 hbuf hold hq hi
  obtain ⟨u, n, crc, hrun, hsent, hat, hholds, hlen, hlength, hcount⟩ := read_exchange_to_parse (unit := .bit) ha
    hcfg hcap hrxq hstart hclockc hclockf (byteCount_bit_le hq) hdata hs
  obtain ⟨-, -, hgood⟩ := readOfBitsUnpacksTheResponse u n [] _ id _ _ name old hat hsent.req hcode (fun _ => rfl)
    rfl (hsent.bitBufs ▸ hbuf) hold hholds hlen
  obtain ⟨bufs, new, hstep, hread, hnew, hbelow, habove, -⟩ := hgood hlength hcount
  refine ⟨_, new, hrun.trans hstep, succeeded_presented hsent.noFault, hsent.exc, hsent.txlog, hread, hnew,
    fun k hk => ?_, habove⟩
  rw [hbelow k hk, List.getD_append _ _ _ _ (by rw [shiftRight_three]; omega)]

end Sys2Proof.Machine
end

section
/-! SUPPORT. The end of a write: the checks on its echo, and a whole unicast write that the device echoes (O41, O60). -/

namespace Sys2Proof.Machine

/-! ## The echo's checks -/

/-- `sent` is the field of a write's request context that the device echoes after the address: the value of a single
write, the quantity of a multiple one (R177, R178). -/
def EchoedField (r : ReqContext) (sent : Word16) : Prop :=
  ((r.fc = .writeSingleCoil ∨ r.fc = .writeSingleRegister) ∧ sent = r.val) ∨
    ((r.fc = .writeMultipleCoils ∨ r.fc = .writeMultipleRegisters) ∧ sent = r.qty)

theorem finishResponse_of_write {r : ReqContext} {sent : Word16} (h : EchoedField r sent) (s : State) :
    finishResponse r s = parseEcho r sent s := by
  rcases h with ⟨hfc | hfc, rfl⟩ | ⟨hfc | hfc, rfl⟩ <;> rw [finishResponse, hfc] <;> rfl

/-- PARSE_ECHO of a response that `BUF` holds: the length, the address, the echoed field. -/
theorem parseEcho_of_holds {s : State} {r : ReqContext} {b0 b1 a1 a0 v1 v0 : Byte} {rest : List Byte}
    (hd : Holds s ([b0, b1, a1, a0, v1, v0] ++ rest)) (sent : Word16) :
    parseEcho r sent s =
      if s.rxLen - 2 ≠ 6 then .next (s.failed .frameIntegrityError)
      else if join a1 a0 ≠ r.addr then .next (s.failed .protocolMismatch)
      else if join v1 v0 ≠ sent then .next (s.failed .protocolMismatch)
      else .next s.succeeded := by
  simp only [parseEcho, hd.readByte (i := 2) rfl, hd.readByte (i := 3) rfl, hd.readByte (i := 4) rfl,
    hd.readByte (i := 5) rfl, orRaise_ok]
  rfl

/-- Settles O41: PARSE hands an accepted write's response to the echo's checks, and these answer in their order. -/
theorem writeEchoIsChecked : Obligations.WriteEchoIsChecked := by
  intro s n es r id a1 a0 v1 v0 rest sent h hr hsent hid hd
  rw [step_of_normal_response (d := a0 :: v1 :: v0 :: rest) h hr hid hd, finishResponse_of_write hsent,
    parseEcho_of_holds (s := s.drawn n es) (hd.drawn n es)]
  refine ⟨fun hlen => if_pos hlen, fun hlen haddr => ?_, fun hlen haddr hfield => ?_, fun hlen haddr hfield => ?_⟩
  · exact (if_neg (not_not.2 hlen)).trans (if_pos haddr)
  · exact (if_neg (not_not.2 hlen)).trans ((if_neg (not_not.2 haddr)).trans (if_pos hfield))
  · exact (if_neg (not_not.2 hlen)).trans ((if_neg (not_not.2 haddr)).trans (if_neg (not_not.2 hfield)))

/-! ## A write's exchange -/

/-- The id and the least quantity of a well-formed multiple write (R71, R73). -/
theorem id_le_and_qty_pos_of_wf {α : Type} {id : Byte} {fc : FuncCode} {qty : Word16} {data : Option (List α)}
    (h : (writeId id && qtyInRange fc qty && holds data qty) = true) : id.toNat ≤ 247 ∧ 1 ≤ qty.toNat := by
  simp only [writeId, qtyInRange, Bool.and_eq_true, decide_eq_true_eq] at h
  obtain ⟨⟨hid, hq1, -⟩, -⟩ := h
  exact ⟨hid, hq1⟩

/-- A well-formed unicast write starts its exchange with the words it is encoded in; `echoed` is the field its device
echoes (R170 to R174). -/
theorem write_startsExchange {s : State} {c f : Word32} {i : Instr} {fc id : Byte} {addr echoed : Word16}
    {words : List Byte} (ha : Accepts s) (hcfg : Configured s c f) (hcap : s.params.wf) (hid1 : 1 ≤ id.toNat)
    (hi : (∃ on, i = .writeSingleCoil id addr on ∧ fc = 0x05#8 ∧ echoed = coilValue on) ∨
      (i = .writeSingleRegister id addr echoed ∧ fc = 0x06#8) ∨
      (∃ data, i = .writeMultipleCoils id addr data echoed ∧ fc = 0x0F#8) ∨
      (∃ data, i = .writeMultipleRegisters id addr data echoed ∧ fc = 0x10#8))
    (hwf : i.wf = true) (henc : encode i = some words) :
    ∃ req, req.id = id ∧ req.addr = addr ∧ fc = fcByte req.fc ∧ EchoedField req echoed ∧
      StartsExchange s i words req := by
  have ha' now es : Accepts (s.drawn now es) := ⟨ha.idle, ha.noFault⟩
  have hcfg' now es : Configured (s.drawn now es) c f := ⟨hcfg.charTo, hcfg.frameTo⟩
  have hexpect : decide (id ≠ 0#8) = true := decide_eq_true fun h0 => by simp [h0] at hid1
  have hlen := length_le_of_encode hwf henc
  rcases hi with ⟨on, rfl, rfl, rfl⟩ | ⟨rfl, rfl⟩ | ⟨data, rfl, rfl⟩ | ⟨data, rfl, rfl⟩
  · rw [encode_writeSingleCoil] at henc
    cases henc
    exact ⟨_, rfl, rfl, rfl, .inl ⟨.inl rfl, rfl⟩, rfl, hlen, hexpect, fun now es =>
      writeSingle_started (ha' now es) (hcfg' now es) hcap (of_decide_eq_true hwf) .writeSingleCoil addr _⟩
  · cases henc
    exact ⟨_, rfl, rfl, rfl, .inl ⟨.inr rfl, rfl⟩, rfl, hlen, hexpect, fun now es =>
      writeSingle_started (ha' now es) (hcfg' now es) hcap (of_decide_eq_true hwf) .writeSingleRegister addr _⟩
  · obtain ⟨l, rfl, hq, hl⟩ := exists_data_of_wf (fc := .writeMultipleCoils) hwf
    obtain ⟨hid, hq1⟩ := id_le_and_qty_pos_of_wf (fc := .writeMultipleCoils) hwf
    cases henc
    have hpack : (packBits l echoed.toNat).length ≤ 246 := by
      simp only [Option.getD_some, List.length_append, List.length_cons] at hlen
      omega
    exact ⟨_, rfl, rfl, rfl, .inr ⟨.inl rfl, rfl⟩, rfl, hlen, hexpect, fun now es =>
      writeMultiple_started (ha' now es) (hcfg' now es) hcap hid hq1 hq hl hpack .bit addr⟩
  · obtain ⟨l, rfl, hq, hl⟩ := exists_data_of_wf (fc := .writeMultipleRegisters) hwf
    obtain ⟨hid, hq1⟩ := id_le_and_qty_pos_of_wf (fc := .writeMultipleRegisters) hwf
    cases henc
    have hpack : (packRegs l echoed.toNat).length ≤ 246 := by
      simp only [Option.getD_some, List.length_append, List.length_cons] at hlen
      omega
    exact ⟨_, rfl, rfl, rfl, .inr ⟨.inr rfl, rfl⟩, rfl, hlen, hexpect, fun now es =>
      writeMultiple_started (ha' now es) (hcfg' now es) hcap hid hq1 hq hl hpack .register addr⟩

/-- Settles O60: the exchange up to PARSE, and what the PARSE of a write's echo does (O41). -/
theorem writeExchangeSucceedsOnItsEcho : Obligations.WriteExchangeSucceedsOnItsEcho := by
  intro s c f now t i fc id addr echoed frame ha hcfg hcap hrxq hid1 hi hwf henc hclockc hclockf hs
  obtain ⟨words, hwords, rfl⟩ := Option.map_eq_some_iff.1 henc
  obtain ⟨req, rfl, rfl, rfl, hfield, hstart⟩ := write_startsExchange ha hcfg hcap hid1 hi hwf hwords
  obtain ⟨u, n, hrun, hsent, hat, hholds, hlen⟩ := exchange_to_parse ha hcfg hcap hrxq hstart (by simp) (by simp)
    hclockc hclockf hs
  have hlength : u.rxLen - 2 = 6 := by rw [hlen]; rfl
  obtain ⟨-, -, -, hgood⟩ := writeEchoIsChecked u n [] req req.id _ _ _ _ _ echoed hat hsent.req hfield (fun _ => rfl)
    hholds
  exact ⟨_, hrun.trans (hgood hlength (join_hi_lo _) (join_hi_lo _)), succeeded_presented hsent.noFault, hsent.exc,
    hsent.txlog, hsent.bitBufs, hsent.wordBufs⟩

end Sys2Proof.Machine
end

section
/-! SUPPORT. The three host-only operations: each is accepted, writes its own register if it has one, and concludes
where `PHASE` is already `IDLE`, so that only `RESULT` changes besides (O17, O18, O19). -/

namespace Sys2Proof.Machine

/-- A result presented while `PHASE = IDLE` changes `RESULT` alone. -/
theorem conclude_of_idle {s : State} (hp : s.phase = .idle) (r : Result) : conclude s r = .next (s.setResult r) := by
  rw [conclude, ← hp]
  rfl

/-- An accepted operation that concludes from a state where `PHASE = IDLE` presents its result there. -/
theorem hostOp_conclude {op : OpName} {s u : State} (ha : Accepts s) (hu : u.phase = .idle) (r : Result) :
    hostOp op s (conclude u r) = .next (u.setResult r) := by
  rw [hostOp_of_accepts ha.idle ha.noFault, conclude_of_idle hu]

/-- Settles O17: the two timeouts are written with `PHASE` kept, then success is presented. -/
theorem configureSetsTheTimeouts : Obligations.ConfigureSetsTheTimeouts := by
  intro s baud fmt ha
  have hu : (s.setTimeouts (timingCalc s.params.bitsTable baud fmt)).phase = .idle := ha.idle
  exact hostOp_conclude ha hu _

/-- Settles O18: `RESP_TO` is written with `PHASE` kept, then success is presented. -/
theorem setResponseTimeoutSetsRespTo : Obligations.SetResponseTimeoutSetsRespTo := by
  intro s w ha
  have hu : (s.setRespTo w).phase = .idle := ha.idle
  exact hostOp_conclude ha hu _

/-- Settles O19: success with the byte `EXC` is presented in the state itself. -/
theorem getExceptionCodeReadsExc : Obligations.GetExceptionCodeReadsExc := by
  intro s ha
  exact hostOp_conclude ha ha.idle _

end Sys2Proof.Machine
end

section
/-! SUPPORT. A block whose `FAULT` is set: the port drops what is issued, and an operation run by itself stops (O45). -/

namespace Sys2Proof.Machine

section
variable {s : State} {f : BlockFault}

theorem unlessStopped_of_fault (hf : s.fault = some f) (k : Out) : unlessStopped s k = .fault (.stopped f) := by
  simp only [unlessStopped, hf]

theorem hostOp_of_fault (hf : s.fault = some f) (op : OpName) (k : Out) : hostOp op s k = .fault (.stopped f) :=
  unlessStopped_of_fault hf _

/-- Every operation looks at `FAULT` first, the eleven of R40 through the port's own test (R205). -/
theorem exec_of_fault (hf : s.fault = some f) (i : Instr) : exec i s = .fault (.stopped f) := by
  cases i with
  | readCoils | readDiscreteInputs | readHoldingRegisters | readInputRegisters | writeSingleCoil | writeSingleRegister
  | writeMultipleCoils | writeMultipleRegisters | configure | setResponseTimeout | getExceptionCode =>
    exact hostOp_of_fault hf _ _
  | exceptionResponse | crc16 | crcUpdate | crcEncode | crcValidate | timingCalc | transact =>
    exact unlessStopped_of_fault hf _

end

/-- Settles O45: the port's answer to a stopped block, and every operation's own. -/
theorem stoppedBlockAcceptsNoOperation : Obligations.StoppedBlockAcceptsNoOperation :=
  ⟨fun _ _ _ _ _ hf hs => step_issue_stopped hs hf, fun _ _ i hf => exec_of_fault hf i⟩

end Sys2Proof.Machine
end

section
/-! SUPPORT. The three templates of a device operation on a bad argument: each ends before it builds a request (O25). -/

namespace Sys2Proof.Machine

/-- A read with an id, a quantity or a buffer that R150 rejects. -/
theorem readRequest_of_bad {fc : FuncCode} {len : Option Nat} {id : Byte} {qty : Word16}
    (hbad : id.toNat = 0 ∨ 247 < id.toNat ∨ qty.toNat = 0 ∨ qtyMax fc < qty.toNat ∨ len = none) (addr : Word16)
    (out : Option BufName) (s : State) :
    readRequest fc len id addr out qty s = .next (s.failed .invalidArgument) := by
  by_cases hid : id.toNat = 0 ∨ 247 < id.toNat
  · exact if_pos hid
  · by_cases hqty : qty.toNat = 0 ∨ qtyMax fc < qty.toNat
    · exact (if_neg hid).trans (if_pos hqty)
    · obtain rfl : len = none := by tauto
      exact (if_neg hid).trans (if_neg hqty)

/-- A single write with an id that R170 rejects. -/
theorem writeSingle_of_bad {id : Byte} (hid : 247 < id.toNat) (fc : FuncCode) (addr v : Word16) (s : State) :
    writeSingle fc id addr v s = .next (s.failed .invalidArgument) := if_pos hid

/-- A multiple write with an id, a quantity or a buffer that R170 rejects. -/
theorem writeMultiple_of_bad {α : Type} {fc : FuncCode} {id : Byte} {data : Option (List α)} {qty : Word16}
    (hbad : 247 < id.toNat ∨ qty.toNat = 0 ∨ qtyMax fc < qty.toNat ∨ data = none) (unit : DataUnit)
    (pack : List α → Nat → List Byte) (addr : Word16) (s : State) :
    writeMultiple fc unit pack id addr data qty s = .next (s.failed .invalidArgument) := by
  by_cases hid : 247 < id.toNat
  · exact if_pos hid
  · by_cases hqty : qty.toNat = 0 ∨ qtyMax fc < qty.toNat
    · exact (if_neg hid).trans (if_pos hqty)
    · obtain rfl : data = none := by tauto
      exact (if_neg hid).trans (if_neg hqty)

/-- Settles O25: the port accepts the operation, and its template rejects the argument. -/
theorem badArgumentFailsBeforeAnyIO : Obligations.BadArgumentFailsBeforeAnyIO := by
  intro s i ha hbad
  have hport : ∀ op k, hostOp op s k = k := fun _ _ => hostOp_of_accepts ha.idle ha.noFault
  cases i with
  | readCoils id addr out qty => exact (hport _ _).trans (readRequest_of_bad (fc := .readCoils) hbad addr out s)
  | readDiscreteInputs id addr out qty =>
    exact (hport _ _).trans (readRequest_of_bad (fc := .readDiscreteInputs) hbad addr out s)
  | readHoldingRegisters id addr out qty =>
    exact (hport _ _).trans (readRequest_of_bad (fc := .readHoldingRegisters) hbad addr out s)
  | readInputRegisters id addr out qty =>
    exact (hport _ _).trans (readRequest_of_bad (fc := .readInputRegisters) hbad addr out s)
  | writeSingleCoil | writeSingleRegister => exact (hport _ _).trans (writeSingle_of_bad hbad _ _ _ s)
  | writeMultipleCoils id addr data qty =>
    exact (hport _ _).trans (writeMultiple_of_bad (fc := .writeMultipleCoils) hbad .bit packBits addr s)
  | writeMultipleRegisters id addr data qty =>
    exact (hport _ _).trans (writeMultiple_of_bad (fc := .writeMultipleRegisters) hbad .register packRegs addr s)
  | exceptionResponse | configure | setResponseTimeout | getExceptionCode | crc16 | crcUpdate | crcEncode
  | crcValidate | timingCalc | transact => exact hbad.elim

end Sys2Proof.Machine
end

section
/-! SUPPORT. The writers of `EXC` (O48), and an operation whose device stays silent (O56). -/

namespace Sys2Proof.Machine

/-- An operation that fails in a block that is not stopped presents its failure. -/
theorem failed_presented {s : State} {k : ErrKind} (hf : s.fault = none) (hk : k ≠ .none) :
    (s.failed k).presented = some { ok := false, err := k, byte := none } :=
  presented_eq_some.2 ⟨rfl, hf, rfl, by simp [Result.complete, hk]⟩

/-! ## `EXC` -/

/-- An engine step leaves `EXC` alone, or is TRANSMIT's, or captures the code of an exception response and presents the
failure (R123, R134, R206). -/
theorem engineStep_exc {s t : State} (hs : engineStep s = .next t) (hf : s.fault = none) :
    t.exc = s.exc ∨
    (s.phase = .transmit ∧ t.exc = 0#8) ∨
    (∃ r, s.phase = .parse ∧ s.req = some r ∧ respLen s = 3 ∧
      Cells.read s.buf 1 = some (exceptionFc (fcByte r.fc)) ∧ Cells.read s.buf 2 = some t.exc ∧
      t.presented = some { ok := false, err := .deviceException, byte := none }) := by
  cases engineStep_move hs with
  | sentRequest f hp | sentBroadcast f hp | sentUnset f hp => exact .inr (.inl ⟨hp, rfl⟩)
  | captured r c hp hr hl h1 h2 =>
    exact .inr (.inr ⟨r, hp, hr, hl, (readByte_ok_iff.1 h1).2, (readByte_ok_iff.1 h2).2,
      failed_presented (s := s.setExc c) hf (by decide)⟩)
  | stay | raised | raisedReading | raisedSending | discarded | flushed | firstByte | nextByte | received | silent
  | validated | failed | wrote | readBits | readRegisters | presented => exact .inl (by simp)

/-- Settles O48: TRANSMIT, a captured exception and reset are the writers of `EXC`; nothing issued at the port is one. -/
theorem excIsWrittenOnlyByAnExceptionResponse : Obligations.ExcIsWrittenOnlyByAnExceptionResponse := by
  intro s t hs
  rcases step_cases hs with ⟨_, rfl⟩ | ⟨b, es, _, rfl⟩ | ⟨n, es, f, _, _, rfl⟩ | ⟨n, es, _, hf, hs⟩ |
    ⟨n, r, es, i, _, hi, hs⟩ | ⟨name, v, es, _, _, rfl⟩ | ⟨name, v, es, _, _, rfl⟩ | ⟨es, hd, rfl⟩
  · exact .inl rfl
  · exact .inl rfl
  · exact .inl rfl
  · rcases engineStep_exc hs hf with hkept | ⟨hp, hzero⟩ | ⟨r, hp, hparse⟩
    · exact .inl hkept
    · exact .inr (.inl ⟨hf, hp, hzero⟩)
    · exact .inr (.inr (.inl ⟨r, hf, hp, hparse⟩))
  · obtain ⟨hexc, _⟩ := issuingDoesNoIO _ _ i (fetch_atPort hi) hs
    exact .inl hexc
  · exact .inl rfl
  · exact .inl rfl
  · exact .inr (.inr (.inr ⟨es, hd, rfl⟩))

/-! ## A silent device -/

/-- `RESP_TO` after TRANSMIT with nothing received, the operation fails (R125, R202). -/
theorem step_rxWait_of_silent {s : State} {t : Nat} {es : List Event} (h : EngineAt s .rxWait (t + s.respTo.toNat) es)
    (hq : s.rxq = []) (hm : s.tMark = some (s.clockAt t)) (hclock : s.respTo.toNat < 2 ^ s.params.clockBits) :
    step s = .next ((s.drawn (t + s.respTo.toNat) es).failed .communicationTimeout) := by
  rw [step_rxWait h]
  exact (window_cases (phaseRxWait_of_silence (s := s.drawn _ es) hq hm)).1 (between_window hclock).ge

/-- Settles O56: FLUSH_STALE ends, TRANSMIT sends the frame, and RX_WAIT runs out. -/
theorem silentDeviceTimesOut : Obligations.SilentDeviceTimesOut := by
  intro s m now t w r f es hf hp hq hm hw hr hexpect hholds hl hsilent hclock hs
  obtain ⟨-, hflush⟩ := flushStaleDiscardsUntilSilence s now (.tick t :: .tick (t + s.respTo.toNat) :: es) ⟨hf, hp, hs⟩
  obtain ⟨hflushed, -⟩ := hflush m w hq hm hw
  have hsend := transmitSendsTheFrame { s.drawn now _ with phase := .transmit } t (.tick (t + s.respTo.toNat) :: es) f r
    ⟨hf, rfl, rfl⟩ (hholds.congr rfl rfl) hl hr hexpect
  have hrun := (steps_add (steps_one (hflushed hsilent)) 2).trans ((steps_add (steps_one hsend) 1).trans
    (steps_one (step_rxWait_of_silent (t := t) (es := es) ⟨hf, rfl, rfl⟩ hq rfl hclock)))
  exact ⟨_, hrun, failed_presented hf (by decide), rfl, rfl, rfl, rfl, rfl⟩

end Sys2Proof.Machine
end

section
/-! SUPPORT. Reset: the values of the registers (O42, O43), and the invariant at its start (O47). -/

namespace Sys2Proof.Machine

theorem step_reset {s : State} {es : List Event} (h : s.schedule = .reset :: es) :
    step s = .next (resetBlock (s.setSchedule es)) := by simp [step, h]

/-- A `RESULT` that is not the record of an operation's end is not presented (R231). -/
theorem presented_of_incomplete {s : State} (h : s.result.complete = false) : s.presented = none := by
  simp [State.presented, State.final, h]

/-- Settles O42: the step is `resetBlock` of the state with the draw taken, and each of its fields is known. -/
theorem resetPutsEveryRegisterAtItsResetValue : Obligations.ResetPutsEveryRegisterAtItsResetValue := by
  intro s es hs
  refine ⟨_, step_reset hs, ?_⟩
  simp

/-- Settles O43: the registers of `State.reset`, whose `RESULT` is no operation's, and the step that draws reset. -/
theorem resetStateHasTheResetValues : Obligations.ResetStateHasTheResetValues :=
  ⟨rfl, rfl, rfl, rfl, Cells.read_nil, rfl, rfl, rfl, rfl, rfl, rfl, rfl, rfl, rfl, presented_of_incomplete rfl,
    fun _ _ hs => ⟨_, step_reset hs, resetBlock_presented _⟩⟩

/-- Settles O47: an idle block with an empty `BUF` and no fault, and a clock at 0, has nothing more to meet. -/
theorem resetMeetsTheInvariant : Obligations.ResetMeetsTheInvariant where
  params := le_refl 256
  bufWf := List.Pairwise.nil
  bufBound := List.forall_mem_nil _
  bitsWf := List.Pairwise.nil
  wordsWf := List.Pairwise.nil
  clock := ⟨Nat.two_pow_pos _, fun _ hm => nomatch hm⟩
  txLen := (by decide : 0 + 2 ≤ 256)
  rxLen := Nat.zero_le 256
  timeouts := rfl
  de := rfl
  notPresenting := ⟨nofun, nofun⟩
  fault := fun _ hf => nomatch hf
  inOperation := fun hp => absurd rfl hp
  request := fun hp => by simp [State.reset] at hp
  received := fun hp => by simp [State.reset] at hp
  parsed := fun hp => by simp [State.reset] at hp

end Sys2Proof.Machine
end

section
/-! SUPPORT. FLUSH_STALE on a line that does not fall silent for `FRAME_TO` (O55). -/

namespace Sys2Proof.Machine

/-- A byte that arrives is discarded by the step at `m`, and before `FRAME_TO` has passed since then the step at `n` stays
in FLUSH_STALE (R122). -/
theorem steps_flushStale_of_arrival {s : State} {b : Byte} {m n : Nat} {w : Word32} {es : List Event}
    (hf : s.fault = none) (hp : s.phase = .flushStale) (hq : s.rxq = []) (hw : s.frameTo = some w)
    (hbusy : s.between m n < w.toNat) (hs : s.schedule = [.deliver b, .tick m, .tick n] ++ es) :
    steps 3 s = .next { s.drawn n es with rxq := [], tMark := some (s.clockAt m) } := by
  set arrived : State := { s with rxq := [b], schedule := .tick m :: .tick n :: es }
  set discarded : State := { arrived.drawn m (.tick n :: es) with rxq := [], tMark := some (s.clockAt m) }
  have hdeliver : step s = .next arrived := by
    simpa [linkDeliver, State.setRxq, State.setSchedule, hq] using step_deliver hs
  have hdiscard : step arrived = .next discarded := by
    obtain ⟨hbyte, -⟩ := flushStaleDiscardsUntilSilence arrived m (.tick n :: es) ⟨hf, hp, rfl⟩
    exact hbyte b [] rfl
  have hstay : step discarded = .next (discarded.drawn n es) := by
    obtain ⟨-, hsilence⟩ := flushStaleDiscardsUntilSilence discarded n es ⟨hf, hp, rfl⟩
    obtain ⟨-, hearly⟩ := hsilence (s.clockAt m) w rfl rfl hw
    exact hearly ((between_clockAt s m n).trans_lt hbusy)
  exact (steps_add (steps_one hdeliver) 2).trans ((steps_add (steps_one hdiscard) 1).trans (steps_one hstay))

/-- However many bytes arrive on a busy line, only the clock and `T_MARK` move (R122, R238). -/
theorem steps_flushStale_of_busy_line {w : Word32} {es : List Event} (line : List (Byte × Nat × Nat)) {s : State}
    (hf : s.fault = none) (hp : s.phase = .flushStale) (hq : s.rxq = []) (hw : s.frameTo = some w)
    (hbusy : ∀ x ∈ line, s.between x.2.1 x.2.2 < w.toNat)
    (hs : s.schedule = line.flatMap (fun x => [.deliver x.1, .tick x.2.1, .tick x.2.2]) ++ es) :
    ∃ t, steps (3 * line.length) s = .next t ∧
      t = { s with rxq := [], now := t.now, tMark := t.tMark, schedule := es } := by
  induction line generalizing s with
  | nil => exact ⟨s, rfl, by rw [← hq, ← show s.schedule = es from hs]⟩
  | cons x line ih =>
    obtain ⟨hx, hline⟩ := List.forall_mem_cons.1 hbusy
    rw [List.flatMap_cons, List.append_assoc] at hs
    have harrival := steps_flushStale_of_arrival hf hp hq hw hx hs
    obtain ⟨t, ht, heq⟩ :=
      ih (s := { s.drawn x.2.2 _ with rxq := [], tMark := some (s.clockAt x.2.1) }) hf hp rfl hw hline rfl
    refine ⟨t, ?_, heq⟩
    rw [List.length_cons, Nat.mul_succ, Nat.add_comm, steps_add harrival, ht]

/-- Settles O55: the run has moved the clock and `T_MARK` alone, so `PHASE`, `FAULT` and `TXLOG` are as before it. -/
theorem busyLineNeverTransmits : Obligations.BusyLineNeverTransmits := by
  intro s _ w line hf hp hq _ hw hbusy hs
  obtain ⟨t, ht, heq⟩ := steps_flushStale_of_busy_line line hf hp hq hw hbusy (hs.trans (List.append_nil _).symm)
  rw [heq] at ht
  exact ⟨_, ht, hp, hf, rfl, rfl, rfl⟩

end Sys2Proof.Machine
end
